-- ==== Sys2Proof/Word.lean ====
section
/-! DEFINITION. The plain data of CNC-CORE: bytes, character codes, binary digits, the command word.

A character element of CIN and COUT has CW = 8 bits (spec/00_scope.md R6); a digit of DIG is one bit
(spec/10_state.md R33, spec/30_encoding.md R87); the command word CMD has 3 bits (R30). -/

namespace Sys2Proof

/-- One byte, as a command word is laid out for the decoder. -/
abbrev Byte := BitVec 8

/-- One character code, an element of CIN or COUT: CW = 8 bits, unsigned (R6, R32, R85). -/
abbrev Code := BitVec 8

/-- One binary digit, an element of DIG: `false` is 0 and `true` is 1 (R33, R87). -/
abbrev Digit := Bool

/-- The value of the register CMD: bit 2 is BE, bit 1 is FE, bit 0 is DIR (R30, R80). -/
abbrev CommandWord := BitVec 3

end Sys2Proof
end

