-- ==== Sys2Proof/Config.lean ====
section
/-! DEFINITION. The parameters of the hardware (spec/00_scope.md R5 to R9) and the free values.

The capacities CAP_CIN, CAP_DIG, CAP_COUT are OPEN in the spec (R7): their form is here, and their values are a
parameter of the machine that State carries and nothing changes (log 10). -/

namespace Sys2Proof

/-- Bits per character in the digit sequence (R5). -/
abbrev Config.W : Nat := 7

/-- Bits per character element of CIN and COUT (R6). -/
abbrev Config.CW : Nat := 8

/-- The code of the cipher character `'0'` (R8, log 11). -/
abbrev Config.codeZero : Code := 0x30#8

/-- The code of the cipher character space (R8, log 11). -/
abbrev Config.codeSpace : Code := 0x20#8

/-- A capacity in elements (R7): a bound, or `none` for an unbounded buffer. -/
abbrev Capacity := Option Nat

/-- A length the capacity has room for. -/
def Capacity.fits : Capacity → Nat → Bool
  | none, _ => true
  | some c, n => decide (n ≤ c)

/-- CAP_CIN, CAP_DIG, CAP_COUT (R7). -/
structure Capacities where
  cin : Capacity
  dig : Capacity
  cout : Capacity
  deriving DecidableEq, Repr

/-- Unbounded buffers, as the spec's own rules and its table of parameters take them (R7). -/
def Capacities.unbounded : Capacities where
  cin := none
  dig := none
  cout := none

/-- FREE VALUE: what the block reads from an element of CIN that nothing has written, by the number of
the call and the index. The spec leaves the element unspecified (R39, 93 U6; log 6). -/
opaque Config.freeCode : Nat → Nat → Code

/-- FREE VALUE: what the block reads from an element of DIG that nothing has written, by the number of
the call and the index (R39, 93 U6; log 6). -/
opaque Config.freeDigit : Nat → Nat → Digit

/-- FREE VALUE: what a host read of an unspecified element of CIN or COUT returns, by the number of
reads answered before and the index (R34, 93 U6; log 6). -/
opaque Config.freeHostCode : Nat → Nat → Code

/-- FREE VALUE: what a host read of an unspecified element of DIG returns, by the number of reads
answered before and the index (R34, 93 U6; log 6). -/
opaque Config.freeHostDigit : Nat → Nat → Digit

end Sys2Proof
end

