-- ==== Sys2Proof/Syntax.lean ====
section
/-! DEFINITION. The instruction set of CNC-CORE: the commands of spec/opcode_table.json, one constructor
per row (spec/30_encoding.md R82, R83). No command has an operand (R84); the reserved row covers two
command words and carries the bit that tells them apart. -/

namespace Sys2Proof

/-- A command of the block (R82, R83). -/
inductive Instr where
  /-- TOBIN, CMD = 0b010: text in CIN to digits in DIG (R110 to R113). -/
  | tobin
  /-- RLDEC, CMD = 0b011: cipher text in CIN to digits in DIG (R150 to R159). -/
  | rldec
  /-- RLENC, CMD = 0b100: digits in DIG to cipher text in COUT (R130 to R135). -/
  | rlenc
  /-- TOTXT, CMD = 0b101: digits in DIG to text in COUT (R114 to R117). -/
  | totxt
  /-- ENC, CMD = 0b110: text in CIN to cipher text in COUT (R187). -/
  | enc
  /-- DEC, CMD = 0b111: cipher text in CIN to text in COUT (R188). -/
  | dec
  /-- RESERVED, CMD = 0b00d: no stage selected (R83); `dir` is the bit d. -/
  | reserved (dir : Bool)
  deriving DecidableEq, Repr

/-- The three control bits of a command (R80): `be` runs the back end, `fe` runs the front end, `dir`
is the direction (`false` encode, `true` decode). -/
structure Control where
  be : Bool
  fe : Bool
  dir : Bool
  deriving DecidableEq, Repr

/-- The control bits of each command, from the table of R82 and from R83. -/
def Instr.control : Instr → Control
  | .tobin => { be := false, fe := true, dir := false }
  | .rldec => { be := false, fe := true, dir := true }
  | .rlenc => { be := true, fe := false, dir := false }
  | .totxt => { be := true, fe := false, dir := true }
  | .enc => { be := true, fe := true, dir := false }
  | .dec => { be := true, fe := true, dir := true }
  | .reserved d => { be := false, fe := false, dir := d }

end Sys2Proof
end

