-- ==== Sys2Proof/WellFormed.lean ====
section
/-! DEFINITION. What is well formed. A command has no operand that could be out of range (spec/30_encoding.md
R84), so every term of Instr is well formed; what can be ill formed is a WORD offered as a command word: CMD
has 3 bits and any of its eight values is legal to write (spec/10_state.md R30). -/

namespace Sys2Proof

/-- Every command is well formed: no operand, immediate or addressing mode exists (R84). -/
def Instr.wf : Instr → Bool
  | .tobin => true
  | .rldec => true
  | .rlenc => true
  | .totxt => true
  | .enc => true
  | .dec => true
  | .reserved _ => true

/-- A number is a command word when it fits the 3 bits of CMD (R30). -/
def commandWordWf (w : Nat) : Bool := decide (w < 8)

end Sys2Proof
end

