-- ==== Sys2Proof/Decode.lean ====
section
/-! DEFINITION. The decoder and the encoder of the command word (spec/30_encoding.md R80, R82, R83).

All eight values of the 3-bit word are accounted for (R83), so decoding CMD never fails. Over BYTES (no bus
exists in the spec; log 4) one command word stands in the low three bits of one byte, and a byte with another
bit set is no command word. -/

namespace Sys2Proof

/-- Why bytes are no command. -/
inductive DecodeError where
  /-- There is no byte to decode. -/
  | noBytes
  /-- A bit above bit 2 is set: the byte is no value of the 3-bit register CMD (R30). -/
  | bitAboveCommandWord
  deriving DecidableEq, Repr

/-- The command a value of CMD stands for, by its bits BE, FE, DIR (R80, R82, R83). -/
def decodeCommand (w : CommandWord) : Instr :=
  match w.getLsbD 2, w.getLsbD 1, w.getLsbD 0 with
  | false, false, d => .reserved d
  | false, true, false => .tobin
  | false, true, true => .rldec
  | true, false, false => .rlenc
  | true, false, true => .totxt
  | true, true, false => .enc
  | true, true, true => .dec

/-- Reads one command from the front of a list of bytes, and the bytes after it. -/
def decode : List Byte → Except DecodeError (Instr × List Byte)
  | [] => .error .noBytes
  | b :: rest =>
    if commandWordWf b.toNat then .ok (decodeCommand (b.setWidth 3), rest)
    else .error .bitAboveCommandWord

/-- The command word of each command, from the encodings of R82 and R83. -/
def encodeCommand : Instr → CommandWord
  | .tobin => 0b010#3
  | .rldec => 0b011#3
  | .rlenc => 0b100#3
  | .totxt => 0b101#3
  | .enc => 0b110#3
  | .dec => 0b111#3
  | .reserved false => 0b000#3
  | .reserved true => 0b001#3

/-- The bytes of a command: its command word in the low three bits of one byte. -/
def encode (i : Instr) : List Byte := [(encodeCommand i).setWidth 8]

/-- The command that a word of spec/opcode_table.json stands for, bit 0 its least significant bit; bits
from `nbits` up are 0. -/
def decodeTableWord (nbits w : Nat) : Option Instr :=
  if w % 2 ^ nbits < 256 then
    match decode [BitVec.ofNat 8 (w % 2 ^ nbits)] with
    | .ok (i, _) => some i
    | .error _ => none
  else none

end Sys2Proof
end

