-- ==== Sys2Proof/Machine/State.lean ====
section
/-! DEFINITION. The state of CNC-CORE: the registers of spec/10_state.md R22 to R35, the three buffers (R32,
R33), three fields of the model's own (`pending`, `answers`, `calls`; logs 1, 6, 7), and the capacities, a parameter
of the machine (R7; log 10). Plain data. -/

namespace Sys2Proof.Machine

open Sys2Proof

/-- STATUS.ST (R35): the value 3 is never written and has no constructor (log 18). -/
inductive CallState where
  /-- 0: no call since reset. -/
  | idle
  /-- 1: a call is running. -/
  | busy
  /-- 2: the last call has ended, with or without error. -/
  | done
  deriving DecidableEq, Repr

/-- STATUS.ERR (R35, R210 to R214): the values 5 to 7 are never written and have no constructor. -/
inductive ErrKind where
  /-- 0: no error. -/
  | none
  /-- 1: the cipher text does not match the grammar (R211). -/
  | malformedCipher
  /-- 2: the number of digits is no multiple of W (R212). -/
  | invalidLength
  /-- 3: a character code at or above 2^W (R213). -/
  | characterOutOfRange
  /-- 4: GO with a reserved command (R214). -/
  | illegalCommand
  deriving DecidableEq, Repr

/-- The register `stage` (R25). -/
inductive Stage where
  /-- 0: the char-to-bit stage is running. -/
  | front
  /-- 1: the bit-to-char stage is running. -/
  | back
  deriving DecidableEq, Repr

/-- The register `ds`, the state of the decode scanner (R26, R154); 6 and 7 are never written. -/
inductive ScanState where
  /-- 0: nothing read. -/
  | s0
  /-- 1: complete tokens, then `"0"`. -/
  | p1
  /-- 2: complete tokens, then `"00"`. -/
  | p2
  /-- 3: the space after a token's first field was read. -/
  | g
  /-- 4: inside a filler. -/
  | r
  /-- 5: one space after a complete token. -/
  | e
  deriving DecidableEq, Repr

/-- The six host-visible registers (R29). -/
inductive HostReg where
  | cmd
  | ctrl
  | status
  | cinLen
  | digLen
  | coutLen
  deriving DecidableEq, Repr

/-- What a host read returns, in the width of what was read (R29, R32, R33). -/
inductive HostValue where
  | cmd (v : CommandWord)
  | ctrl (v : BitVec 1)
  | status (v : BitVec 5)
  | length (n : Nat)
  | code (c : Code)
  | digit (d : Digit)
  deriving DecidableEq, Repr

/-- A move of the host (R20, R40, R252) or of the platform (R250). No move writes STATUS, COUT_LEN or COUT:
the spec offers none (R40). -/
inductive HostMove where
  /-- Write the register CMD. -/
  | writeCmd (v : CommandWord)
  /-- Write the register CTRL; bit 0 is GO. -/
  | writeCtrl (v : BitVec 1)
  /-- Write the register CIN_LEN. -/
  | writeCinLen (n : Nat)
  /-- Write the register DIG_LEN. -/
  | writeDigLen (n : Nat)
  /-- Write one element of CIN. -/
  | writeCin (i : Nat) (c : Code)
  /-- Write one element of DIG. -/
  | writeDig (i : Nat) (d : Digit)
  /-- Read a register. -/
  | readReg (r : HostReg)
  /-- Read one element of CIN. -/
  | readCin (i : Nat)
  /-- Read one element of DIG. -/
  | readDig (i : Nat)
  /-- Read one element of COUT. -/
  | readCout (i : Nat)
  /-- Wait until `ST` is not BUSY (rows 1 and 5 of R252; log 16). -/
  | awaitNotBusy
  /-- Stand aside while the block takes one step (log 1). -/
  | blockTurn
  /-- The platform resets the block (R250, 93 U8; log 13). -/
  | platformReset
  deriving DecidableEq, Repr

/-- A buffer: an index space from 0 (R50), as the list of the elements that have been written, with their
indices. An index that is not listed holds an unspecified element (R39; log 6). -/
abbrev Memory (α : Type) := List (Nat × α)

/-- The state of one instance of the block, its host's remaining moves and what the host has read. -/
structure State where
  /-- The register CMD (R30). -/
  cmd : CommandWord
  /-- The field ST of STATUS (R35). -/
  st : CallState
  /-- The field ERR of STATUS (R35). -/
  err : ErrKind
  /-- The register CIN_LEN (R34). -/
  cinLen : Nat
  /-- The register DIG_LEN (R34). -/
  digLen : Nat
  /-- The register COUT_LEN (R34). -/
  coutLen : Nat
  /-- The input buffer of characters (R32). -/
  cin : List Host.Cell
  /-- The buffer of binary digits (R33). -/
  dig : List (Nat × Digit)
  /-- The output buffer of characters (R32). -/
  cout : List Host.Cell
  /-- The input cursor (R24). -/
  ip : Nat
  /-- The running stage (R25). -/
  stage : Stage
  /-- The last digit examined by the run-length encoder (R22). -/
  prev : Digit
  /-- The state of the decode scanner (R26). -/
  ds : ScanState
  /-- The bit of the token the decode scanner is inside (R27). -/
  tb : Digit
  /-- The model's own: the moves the host and the platform will make, the next first (log 1). -/
  pending : List HostMove
  /-- The model's own: what the host's reads returned, oldest first (log 6). -/
  answers : List HostValue
  /-- The model's own: how many GO transitions were performed (log 6). -/
  calls : Nat
  /-- The parameters CAP_CIN, CAP_DIG, CAP_COUT (R7): no state, carried here because `step` takes nothing else, and
  changed by nothing (log 10). -/
  caps : Capacities
  deriving DecidableEq, Repr

/-- The state right after reset (R39, R250): every element of the buffers is unspecified, so none is listed;
the model's own fields are empty (log 7), and the capacities have the value of the spec's table of parameters
(R7). -/
def State.reset : State where
  cmd := 0b000#3
  st := .idle
  err := .none
  cinLen := 0
  digLen := 0
  coutLen := 0
  cin := []
  dig := []
  cout := []
  ip := 0
  stage := .front
  prev := false
  ds := .s0
  tb := false
  pending := []
  answers := []
  calls := 0
  caps := .unbounded

/-- A stop of the machine by a fault: there is none. Every error kind of the spec ends a CALL with the kind in
STATUS.ERR (R210, R216), which is a next state; nothing in the spec stops the machine. -/
inductive Fault where
  deriving DecidableEq, Repr

/-- A run the model gives no meaning. -/
inductive Refusal where
  /-- An instruction with no meaning yet, by its mnemonic; raised by no arm of this model. Safe. -/
  | notModelled (mnemonic : String)
  /-- A host write to CMD, CTRL, CIN_LEN, DIG_LEN, CIN or DIG while BUSY, which the spec gives no meaning
  (R40, 93 U4); raised by Machine/HostPort.lean. Safe (log 14). -/
  | hostWriteWhileBusy
  /-- A host read of CTRL, DIG_LEN, COUT_LEN, DIG or COUT while BUSY, which the spec gives no meaning
  (R40, R256, 93 U5); raised by Machine/HostPort.lean. Safe (logs 9, 14). -/
  | hostReadWhileBusy
  /-- A finite instance has no room: a length written above its capacity, an element written beyond it, or a step
  that would append beyond it (R7, 93 U7); raised by Machine/HostPort.lean and by `State.commit`. Safe (log 10). -/
  | capacityExceeded
  deriving DecidableEq, Repr

end Sys2Proof.Machine
end

