-- ==== Sys2Proof/Machine/Ops.lean ====
section
/-! DEFINITION. The named operations over buffers, the cursor and the call: reading and writing elements,
appending (spec/00_scope.md section 6), GO (spec/43_toplevel.md R181), FrontDone (R185), Finish (R186), and
the error completion Fail, the block's whole exception entry (spec/60_exceptions.md R216). There is no return
from an exception (R218). Last, the refusal of what does not fit a finite instance (R7). -/

namespace Sys2Proof.Machine

open Sys2Proof

/-- The element at an index, if it has been written. -/
def Memory.get? {α : Type} : Memory α → Nat → Option α
  | [], _ => none
  | (a, v) :: m, i => if i = a then some v else Memory.get? m i

/-- Writes one element and keeps the indices strictly rising. -/
def Memory.set {α : Type} : Memory α → Nat → α → Memory α
  | [], i, v => [(i, v)]
  | (a, w) :: m, i, v =>
    if i < a then (i, v) :: (a, w) :: m
    else if i = a then (i, v) :: m
    else (a, w) :: Memory.set m i v

/-- Writes consecutive elements from an index on. -/
def Memory.setSeq {α : Type} : Memory α → Nat → List α → Memory α
  | m, _, [] => m
  | m, i, v :: vs => Memory.setSeq (Memory.set m i v) (i + 1) vs

/-- The canonical form: indices strictly rising. An unlisted index holds no value of its own (log 6), so no
entry can equal what an unlisted index reads as. -/
def Memory.wf {α : Type} : Memory α → Bool
  | [] => true
  | [_] => true
  | (a, _) :: (b, w) :: m => decide (a < b) && Memory.wf ((b, w) :: m)

/-- The element of CIN the block reads at an index; free where nothing has written it (log 6). -/
def State.cinAt (s : State) (i : Nat) : Code :=
  (Memory.get? s.cin i).getD (Config.freeCode s.calls i)

/-- The element of DIG the block reads at an index; free where nothing has written it (log 6). -/
def State.digAt (s : State) (i : Nat) : Digit :=
  (Memory.get? s.dig i).getD (Config.freeDigit s.calls i)

/-- `Append(DIG, …)`: writes the digits from index DIG_LEN on and adds their number to DIG_LEN. -/
def State.appendDig (s : State) (ds : List Digit) : State :=
  { s with dig := Memory.setSeq s.dig s.digLen ds, digLen := s.digLen + ds.length }

/-- `Append(COUT, …)`: writes the characters from index COUT_LEN on and adds their number to COUT_LEN. -/
def State.appendCout (s : State) (cs : List Code) : State :=
  { s with cout := Memory.setSeq s.cout s.coutLen cs, coutLen := s.coutLen + cs.length }

/-- `ip <- ip + 1` (R24). -/
def State.advance (s : State) : State :=
  { s with ip := s.ip + 1 }

/-- `Fail(e)`, the error completion of a call (R216): no partial output, staged digits discarded when the
front end ran, nothing saved. -/
def State.fail (s : State) (c : Control) (e : ErrKind) : State :=
  { s with
    err := e
    coutLen := 0
    digLen := if c.fe then 0 else s.digLen
    st := .done }

/-- Finish, the end of a successful call (R186): ENC and DEC discard the intermediate digits. -/
def State.finish (s : State) (c : Control) : State :=
  { s with
    digLen := if c.fe && c.be then 0 else s.digLen
    st := .done }

/-- FrontDone, the end of a successful FRONT stage (R185). -/
def State.frontDone (s : State) (c : Control) : State :=
  if c.be then { s with stage := .back, ip := 0 } else s.finish c

/-- The transition of a GO write (R181). A reserved command ends at once with IllegalCommand; a command with
a front end starts in FRONT with DIG emptied; the others start in BACK on the host's DIG. No buffer element
changes. -/
def State.go (s : State) (c : Control) : State :=
  { s with
    err := if !c.fe && !c.be then .illegalCommand else .none
    coutLen := 0
    ip := 0
    prev := false
    ds := .s0
    tb := false
    stage := if !c.fe && c.be then .back else .front
    digLen := if c.fe then 0 else s.digLen
    st := if !c.fe && !c.be then .done else .busy
    calls := s.calls + 1 }

/-- Whether the buffers have room for what a transition from `s` to `t` appended (R7). -/
def State.roomFor (s t : State) : Bool :=
  (decide (t.digLen ≤ s.digLen) || s.caps.dig.fits t.digLen) &&
    (decide (t.coutLen ≤ s.coutLen) || s.caps.cout.fits t.coutLen)

/-- The outcome of a transition from `s` to `t`: a finite instance refuses a call whose intermediate or output does
not fit, and neither truncates nor wraps (R7, 93 U7; log 10). -/
def State.commit (s t : State) : Host.Outcome State Fault Refusal :=
  if s.roomFor t then .next t else .refused .capacityExceeded

end Sys2Proof.Machine
end

