-- ==== Sys2Proof/Machine/Operands.lean ====
section
/-! DEFINITION. The data forms the commands convert between: the W-bit character field (spec/30_encoding.md
R86), the classes of cipher characters (R85), the cipher token (R88 to R90), the strings the run-length encoder
emits (spec/41_runlength_encode.md R130) and the transition table of the decode scanner
(spec/42_runlength_decode.md R155). -/

namespace Sys2Proof.Machine

open Sys2Proof

/-- A character code that fits W bits (R85, R111). -/
def inRange (c : Code) : Bool := decide (c.toNat < 2 ^ Config.W)

/-- The W-bit field of a code, most significant bit first (R86, R110): element i is bit W-1-i. -/
def field (c : Code) : List Digit :=
  (List.range Config.W).map fun i => c.getLsbD (Config.W - 1 - i)

/-- The unsigned value of W digits, most significant first (R86, R114). -/
def groupValue (bit : Nat → Digit) : Nat :=
  ((List.range Config.W).map fun i => (bit i).toNat * 2 ^ (Config.W - 1 - i)).sum

/-- A W-bit value zero-extended to a character element (R86, R115). -/
def codeOfValue (v : Nat) : Code := BitVec.ofNat Config.CW v

/-- The three classes of cipher characters (R85). -/
inductive CharClass where
  /-- `'0'`. -/
  | z
  /-- A space. -/
  | s
  /-- Any other character. -/
  | x
  deriving DecidableEq, Repr

/-- The class of a character element (R85). -/
def classify (c : Code) : CharClass :=
  if c = Config.codeZero then .z else if c = Config.codeSpace then .s else .x

/-- The characters that mark a token's bit (R88): `"0"` for a run of 1, `"00"` for a run of 0. -/
def tokenMark (b : Digit) : List Code :=
  if b then [Config.codeZero] else [Config.codeZero, Config.codeZero]

/-- The token of a run of bit `b` and length `n` (R90): mark, one space, `n` fillers. -/
def token (b : Digit) (n : Nat) : List Code :=
  tokenMark b ++ [Config.codeSpace] ++ List.replicate n Config.codeZero

/-- What the encoder emits for the first digit (R130, R133). -/
def firstEmit : Digit → List Code
  | true => [Config.codeZero, Config.codeSpace, Config.codeZero]
  | false => [Config.codeZero, Config.codeZero, Config.codeSpace, Config.codeZero]

/-- What the encoder emits for a later digit `d` after the digit `p` (R130, R133). -/
def nextEmit (p d : Digit) : List Code :=
  if d = p then [Config.codeZero]
  else if d then [Config.codeSpace, Config.codeZero, Config.codeSpace, Config.codeZero]
  else [Config.codeSpace, Config.codeZero, Config.codeZero, Config.codeSpace, Config.codeZero]

/-- What the decode scanner does with `tb` and DIG besides moving on (R155). -/
inductive ScanAction where
  /-- Nothing. -/
  | none
  /-- `tb` takes the value. -/
  | setTb (b : Digit)
  /-- Append `tb` to DIG. -/
  | appendTb
  deriving DecidableEq, Repr

/-- The transition table of the decode scanner (R155); `none` stands for the ten error cells. -/
def scanCell : ScanState → CharClass → Option (ScanState × ScanAction)
  | .s0, .z => some (.p1, .none)
  | .s0, .s => none
  | .s0, .x => none
  | .p1, .z => some (.p2, .none)
  | .p1, .s => some (.g, .setTb true)
  | .p1, .x => none
  | .p2, .z => none
  | .p2, .s => some (.g, .setTb false)
  | .p2, .x => none
  | .g, .z => some (.r, .appendTb)
  | .g, .s => none
  | .g, .x => none
  | .r, .z => some (.r, .appendTb)
  | .r, .s => some (.e, .none)
  | .r, .x => none
  | .e, .z => some (.p1, .none)
  | .e, .s => none
  | .e, .x => none

/-- The scanner states that accept the end of the input (R154, R157). -/
def scanAccepts : ScanState → Bool
  | .s0 => true
  | .p1 => false
  | .p2 => false
  | .g => false
  | .r => true
  | .e => true

end Sys2Proof.Machine
end

