-- ==== Sys2Proof/Machine/Flags.lean ====
section
/-! DEFINITION. The flags and numbers the host sees: the STATUS word (spec/10_state.md R35), the codes of its
fields, the register numbers (R29) and the numbers of the internal registers' values (R25, R26). The block has
no arithmetic flag (R28). -/

namespace Sys2Proof.Machine

open Sys2Proof

/-- The code of ST in STATUS[1:0] (R35). -/
def CallState.code : CallState → BitVec 2
  | .idle => 0#2
  | .busy => 1#2
  | .done => 2#2

/-- The code of ERR in STATUS[4:2] (R35). -/
def ErrKind.code : ErrKind → BitVec 3
  | .none => 0#3
  | .malformedCipher => 1#3
  | .invalidLength => 2#3
  | .characterOutOfRange => 3#3
  | .illegalCommand => 4#3

/-- The 5-bit register STATUS: ERR above ST (R35). -/
def State.status (s : State) : BitVec 5 := s.err.code ++ s.st.code

/-- The 1-bit encoding of `stage` (R25). -/
def Stage.code : Stage → BitVec 1
  | .front => 0#1
  | .back => 1#1

/-- The 3-bit encoding of `ds` (R26). -/
def ScanState.code : ScanState → BitVec 3
  | .s0 => 0#3
  | .p1 => 1#3
  | .p2 => 2#3
  | .g => 3#3
  | .r => 4#3
  | .e => 5#3

/-- The number of each host-visible register (R29). -/
def HostReg.number : HostReg → Nat
  | .cmd => 0
  | .ctrl => 1
  | .status => 2
  | .cinLen => 3
  | .digLen => 4
  | .coutLen => 5

/-- The host-visible register of a number (R29): there are six. -/
def HostReg.ofNumber : Nat → Option HostReg
  | 0 => some .cmd
  | 1 => some .ctrl
  | 2 => some .status
  | 3 => some .cinLen
  | 4 => some .digLen
  | 5 => some .coutLen
  | _ => none

end Sys2Proof.Machine
end

