-- ==== Sys2Proof/Machine/BitPacker.lean ====
section
/-! DEFINITION. The two stages of the BitPacker, one block step each (spec/40_bitpacker.md): TOBIN as the FRONT
stage of the encode direction and TOTXT as the BACK stage of the decode direction. -/

namespace Sys2Proof.Machine

open Sys2Proof

/-- The TOBIN step: one character to W digits, or CharacterOutOfRange (R111); at the end of the input,
FrontDone (R112). -/
def tobinStep (c : Control) (s : State) : State :=
  if s.ip < s.cinLen then
    if inRange (s.cinAt s.ip) then (s.appendDig (field (s.cinAt s.ip))).advance
    else s.fail c .characterOutOfRange
  else s.frontDone c

/-- The TOTXT step (R115): the length check before any output, then one group of W digits to one character,
until the digits are used up. -/
def totxtStep (c : Control) (s : State) : State :=
  if s.ip = 0 ∧ s.digLen % Config.W ≠ 0 then s.fail c .invalidLength
  else if s.ip * Config.W = s.digLen then s.finish c
  else (s.appendCout [codeOfValue (groupValue fun i => s.digAt (s.ip * Config.W + i))]).advance

end Sys2Proof.Machine
end

