-- ==== Sys2Proof/Machine/RunLength.lean ====
section
/-! DEFINITION. The two stages of the RunLengthCodec, one block step each: RLENC as the BACK stage of the encode
direction (spec/41_runlength_encode.md) and RLDEC as the FRONT stage of the decode direction
(spec/42_runlength_decode.md). -/

namespace Sys2Proof.Machine

open Sys2Proof

/-- The RLENC step: one digit to a new token or one more filler (R133); at the end of the input, Finish
(R134). -/
def rlencStep (c : Control) (s : State) : State :=
  if s.ip < s.digLen then
    let d := s.digAt s.ip
    { (s.appendCout (if s.ip = 0 then firstEmit d else nextEmit s.prev d)).advance with prev := d }
  else s.finish c

/-- Performs the action of a cell of the scanner's table (R155). -/
def State.scanAct (s : State) : ScanAction → State
  | .none => s
  | .setTb b => { s with tb := b }
  | .appendTb => s.appendDig [s.tb]

/-- The RLDEC step: one character through the scanner's table (R156); at the end of the input, accept or
reject by the scanner's state (R157). -/
def rldecStep (c : Control) (s : State) : State :=
  if s.ip < s.cinLen then
    match scanCell s.ds (classify (s.cinAt s.ip)) with
    | some (ds', a) => { (s.scanAct a).advance with ds := ds' }
    | none => s.fail c .malformedCipher
  else if scanAccepts s.ds then s.frontDone c
  else s.fail c .malformedCipher

end Sys2Proof.Machine
end

