-- ==== Sys2Proof/Machine/Calls.lean ====
section
/-! DEFINITION. A call as the block runs it (spec/43_toplevel.md): the step dispatch by stage and direction
(R182, R184), and what a command does next in any state: the GO transition (R181) when no call runs, the one
enabled block step when one does. -/

namespace Sys2Proof.Machine

open Sys2Proof

/-- The enabled block step, chosen by the stage and the direction (R184). -/
def blockStep (c : Control) (s : State) : State :=
  match s.stage, c.dir with
  | .front, false => tobinStep c s
  | .front, true => rldecStep c s
  | .back, false => rlencStep c s
  | .back, true => totxtStep c s

/-- What a command does next: GO when no call is running (R181), its enabled block step when one is (R184). -/
def runCommand (c : Control) (s : State) : State :=
  if s.st = .busy then blockStep c s else s.go c

end Sys2Proof.Machine
end

