-- ==== Sys2Proof/Machine/Commands.lean ====
section
/-! DEFINITION. The meaning of each command of spec/opcode_table.json: its control bits (spec/30_encoding.md
R82, R83) run through the one call mechanism of Machine/Calls.lean. A command answers one transition at a time
(log 2): GO when no call is running, otherwise the block step it enables. The bits are those of the command
itself, which `step` decodes from CMD (log 5). -/

namespace Sys2Proof.Machine

open Sys2Proof

/-- TOBIN (R110 to R113): FRONT stage BitPacker.toBinary. -/
def execTobin (s : State) : Host.Outcome State Fault Refusal :=
  s.commit (runCommand { be := false, fe := true, dir := false } s)

/-- RLDEC (R150 to R159): FRONT stage RunLengthCodec.decode. -/
def execRldec (s : State) : Host.Outcome State Fault Refusal :=
  s.commit (runCommand { be := false, fe := true, dir := true } s)

/-- RLENC (R130 to R135): BACK stage RunLengthCodec.encode. -/
def execRlenc (s : State) : Host.Outcome State Fault Refusal :=
  s.commit (runCommand { be := true, fe := false, dir := false } s)

/-- TOTXT (R114 to R117): BACK stage BitPacker.toText. -/
def execTotxt (s : State) : Host.Outcome State Fault Refusal :=
  s.commit (runCommand { be := true, fe := false, dir := true } s)

/-- ENC (R187): FRONT stage TOBIN, then BACK stage RLENC, the intermediate digits discarded. -/
def execEnc (s : State) : Host.Outcome State Fault Refusal :=
  s.commit (runCommand { be := true, fe := true, dir := false } s)

/-- DEC (R188): FRONT stage RLDEC, then BACK stage TOTXT, the intermediate digits discarded. -/
def execDec (s : State) : Host.Outcome State Fault Refusal :=
  s.commit (runCommand { be := true, fe := true, dir := true } s)

/-- RESERVED (R83, R214): GO ends the call at once with IllegalCommand. -/
def execReserved (d : Bool) (s : State) : Host.Outcome State Fault Refusal :=
  s.commit (runCommand { be := false, fe := false, dir := d } s)

end Sys2Proof.Machine
end

