-- ==== Sys2Proof/Machine/Dispatch.lean ====
section
/-! DEFINITION. One arm per command: which meaning runs. -/

namespace Sys2Proof.Machine

open Sys2Proof

def exec (i : Instr) (s : State) : Host.Outcome State Fault Refusal :=
  match i with
  | .tobin => Sys2Proof.Machine.execTobin s
  | .rldec => Sys2Proof.Machine.execRldec s
  | .rlenc => Sys2Proof.Machine.execRlenc s
  | .totxt => Sys2Proof.Machine.execTotxt s
  | .enc => Sys2Proof.Machine.execEnc s
  | .dec => Sys2Proof.Machine.execDec s
  | .reserved d => Sys2Proof.Machine.execReserved d s

end Sys2Proof.Machine
end

