-- ==== Sys2Proof/Machine/HostPort.lean ====
section
/-! DEFINITION. The moves of the host and the platform: the register and buffer accesses of spec/10_state.md
R29 to R40 with their rights by call state, the GO write (R31), the host's waiting (spec/70_reset_and_hazards.md
R252) and the platform's reset (R250). Whose turn it is stands in `pending` (log 1). -/

namespace Sys2Proof.Machine

open Sys2Proof

/-- The command in CMD takes its next transition: GO when no call runs, else a block step (R67, R181, R184). -/
def runCmd (s : State) : Host.Outcome State Fault Refusal :=
  exec (decodeCommand s.cmd) s

/-- The block's turn: its enabled step while BUSY (R184); between calls it is not stepping (R235; log 2). -/
def blockTurn (s : State) : Host.Outcome State Fault Refusal :=
  if s.st = .busy then runCmd s else .next s

/-- A host write: no meaning while BUSY (R40, 93 U4; log 14), and refused where it does not fit a finite instance
(R7, 93 U7; log 10). -/
def hostWrite (s : State) (fits : Bool) (t : State) : Host.Outcome State Fault Refusal :=
  if s.st = .busy then .refused .hostWriteWhileBusy
  else if fits then .next t
  else .refused .capacityExceeded

/-- The host records what a read returned. -/
def State.answer (s : State) (v : HostValue) : State :=
  { s with answers := s.answers ++ [v] }

/-- The value a register reads as (R29 to R31, R34, R35); CTRL always reads as 0. -/
def State.readReg (s : State) : HostReg → HostValue
  | .cmd => .cmd s.cmd
  | .ctrl => .ctrl 0#1
  | .status => .status s.status
  | .cinLen => .length s.cinLen
  | .digLen => .length s.digLen
  | .coutLen => .length s.coutLen

/-- The registers the host may read while BUSY (R40, R256; CTRL is not among them, log 9). -/
def HostReg.readableWhileBusy : HostReg → Bool
  | .cmd => true
  | .ctrl => false
  | .status => true
  | .cinLen => true
  | .digLen => false
  | .coutLen => false

/-- What a host read of a character element returns: the element below the length register, any value at or
above it or where nothing has written (R34, 93 U6; log 6). -/
def State.hostCode (s : State) (m : List Host.Cell) (len i : Nat) : Code :=
  if i < len then (Memory.get? m i).getD (Config.freeHostCode s.answers.length i)
  else Config.freeHostCode s.answers.length i

/-- What a host read of an element of DIG returns (R34, 93 U6; log 6). -/
def State.hostDigit (s : State) (i : Nat) : Digit :=
  if i < s.digLen then (Memory.get? s.dig i).getD (Config.freeHostDigit s.answers.length i)
  else Config.freeHostDigit s.answers.length i

/-- The state a reset leaves (R250): every register and buffer as after reset; what the host still plans to do
and what it has read are not the block's, free values are not drawn twice (log 13), and the capacities are no
state. -/
def State.platformReset (s : State) : State :=
  { State.reset with pending := s.pending, answers := s.answers, calls := s.calls, caps := s.caps }

/-- Performs one move, already taken from `pending`. -/
def hostMove (m : HostMove) (s : State) : Host.Outcome State Fault Refusal :=
  match m with
  | .writeCmd v => hostWrite s true { s with cmd := v }
  | .writeCtrl v =>
    if s.st = .busy then .refused .hostWriteWhileBusy
    else if v.getLsbD 0 then runCmd s
    else .next s
  | .writeCinLen n => hostWrite s (s.caps.cin.fits n) { s with cinLen := n }
  | .writeDigLen n => hostWrite s (s.caps.dig.fits n) { s with digLen := n }
  | .writeCin i c => hostWrite s (s.caps.cin.fits (i + 1)) { s with cin := Memory.set s.cin i c }
  | .writeDig i d => hostWrite s (s.caps.dig.fits (i + 1)) { s with dig := Memory.set s.dig i d }
  | .readReg r =>
    if s.st = .busy ∧ r.readableWhileBusy = false then .refused .hostReadWhileBusy
    else .next (s.answer (s.readReg r))
  | .readCin i => .next (s.answer (.code (s.hostCode s.cin s.cinLen i)))
  | .readDig i =>
    if s.st = .busy then .refused .hostReadWhileBusy else .next (s.answer (.digit (s.hostDigit i)))
  | .readCout i =>
    if s.st = .busy then .refused .hostReadWhileBusy
    else .next (s.answer (.code (s.hostCode s.cout s.coutLen i)))
  | .awaitNotBusy =>
    if s.st = .busy then runCmd { s with pending := .awaitNotBusy :: s.pending } else .next s
  | .blockTurn => blockTurn s
  | .platformReset => .next s.platformReset

/-- One transition of the whole system: the next pending move, or the block's turn when there is none. -/
def turn (s : State) : Host.Outcome State Fault Refusal :=
  match s.pending with
  | [] => blockTurn s
  | m :: rest => hostMove m { s with pending := rest }

/-- The move that makes the command in CMD take its next transition: a GO write between calls, the block's own
turn during one. -/
def State.runMove (s : State) : HostMove :=
  if s.st = .busy then .blockTurn else .writeCtrl 1#1

end Sys2Proof.Machine
end

