-- ==== Sys2Proof/Machine/Step.lean ====
section
/-! DEFINITION. One step of the machine, and how a command is put where the next step runs it. -/

namespace Sys2Proof.Machine

open Sys2Proof

/-- One step: the next move of the host, or the enabled step of the block (spec/43_toplevel.md R184;
spec/20_memory.md R64; log 1). -/
def step (s : State) : Host.Outcome State Fault Refusal :=
  turn s

/-- `s` with the word in CMD and the move that runs it first in `pending` (log 3). -/
def State.withFetchWord (s : State) (nbits w : Nat) : State :=
  { s with cmd := BitVec.ofNat 3 (w % 2 ^ nbits), pending := s.runMove :: s.pending }

end Sys2Proof.Machine
end

