-- ==== Sys2Proof/Machine/Functions.lean ====
section
/-! DEFINITION. The function level of the spec (spec/00_scope.md R10): each operation as a total function from a
finite sequence to a finite sequence or one error kind, written from its own definition and not from the block's
steps: toBinary (R110), toText (R114), rlEncode (R130), runs and tokens (R131), the cipher grammar (R91) and
rlDecode (R150), encode (R187), decode (R188). -/

namespace Sys2Proof.Machine

open Sys2Proof

/-- `toBinary` (R110): the fields of all characters in order, or CharacterOutOfRange if any does not fit. -/
def toBinary (text : List Code) : Except ErrKind (List Digit) :=
  if text.all inRange then .ok (text.flatMap field) else .error .characterOutOfRange

/-- The characters of the first `n` groups of W digits (R114). -/
def textOfGroups : Nat → List Digit → List Code
  | 0, _ => []
  | n + 1, d => codeOfValue (groupValue fun i => d.getD i false) :: textOfGroups n (d.drop Config.W)

/-- `toText` (R114): InvalidLength unless the number of digits is a multiple of W, tested first. -/
def toText (digits : List Digit) : Except ErrKind (List Code) :=
  if digits.length % Config.W ≠ 0 then .error .invalidLength
  else .ok (textOfGroups (digits.length / Config.W) digits)

/-- The fold of `rlEncode` over the digits after the first, carrying the last digit examined (R130). -/
def encodeRest : Digit → List Digit → List Code
  | _, [] => []
  | p, d :: rest => nextEmit p d ++ encodeRest d rest

/-- `rlEncode` (R130): total, no error case. -/
def rlEncode : List Digit → List Code
  | [] => []
  | d :: rest => firstEmit d ++ encodeRest d rest

/-- The runs of a digit sequence (R131): maximal blocks of equal digits with their lengths. -/
def runs : List Digit → List (Digit × Nat)
  | [] => []
  | d :: rest =>
    match runs rest with
    | [] => [(d, 1)]
    | (b, n) :: more => if b = d then (b, n + 1) :: more else (d, 1) :: (b, n) :: more

/-- Tokens joined by single spaces (R131). -/
def joinTokens : List (Digit × Nat) → List Code
  | [] => []
  | [(b, n)] => token b n
  | (b, n) :: t :: rest => token b n ++ [Config.codeSpace] ++ joinTokens (t :: rest)

/-- The digits a list of tokens stands for (R90, R150): each bit repeated as often as its run is long. -/
def digitsOfTokens (ts : List (Digit × Nat)) : List Digit :=
  ts.flatMap fun t => List.replicate t.2 t.1

/-- The grammar of R91: `cipher` is one or more tokens, each with a filler of at least one character, joined by
single spaces, with at most one more space at the very end; `ts` is its parse. -/
def ParsesAs (cipher : List Code) (ts : List (Digit × Nat)) : Prop :=
  ts ≠ [] ∧ (∀ t ∈ ts, 1 ≤ t.2) ∧
    (cipher = joinTokens ts ∨ cipher = joinTokens ts ++ [Config.codeSpace])

/-- The fields of a character sequence split at every space (R91). -/
def splitAtSpaces : List Code → List (List Code)
  | [] => [[]]
  | c :: cs =>
    if c = Config.codeSpace then [] :: splitAtSpaces cs
    else
      match splitAtSpaces cs with
      | [] => [[c]]
      | f :: fs => (c :: f) :: fs

/-- The bit of a token's first field (R88), if the field is one of the two legal ones. -/
def bitOfMark (f : List Code) : Option Digit :=
  if f = tokenMark true then some true else if f = tokenMark false then some false else none

/-- The tokens of a list of fields, two fields a token (R91). -/
def tokensOfFields : List (List Code) → Option (List (Digit × Nat))
  | [] => some []
  | [_] => none
  | p :: r :: rest =>
    match bitOfMark p, tokensOfFields rest with
    | some b, some ts =>
      if r ≠ [] ∧ r.all (· == Config.codeZero) then some ((b, r.length) :: ts) else none
    | _, _ => none

/-- Removes one trailing space if there is one (R91). -/
def dropTrailingSpace (cipher : List Code) : List Code :=
  if cipher.getLast? = some Config.codeSpace then cipher.dropLast else cipher

/-- The split-and-test form of the grammar (R91): the parse of a cipher text, if it has one. -/
def parseCipher (cipher : List Code) : Option (List (Digit × Nat)) :=
  tokensOfFields (splitAtSpaces (dropTrailingSpace cipher))

/-- `rlDecode` (R150): the empty input decodes to nothing, before the grammar is applied (R92). -/
def rlDecode (cipher : List Code) : Except ErrKind (List Digit) :=
  if cipher = [] then .ok []
  else
    match parseCipher cipher with
    | some ts => .ok (digitsOfTokens ts)
    | none => .error .malformedCipher

/-- Top-level `encode` (R187). -/
def encodeText (text : List Code) : Except ErrKind (List Code) :=
  match toBinary text with
  | .ok digits => .ok (rlEncode digits)
  | .error e => .error e

/-- Top-level `decode` (R188): the grammar is tested before the length (R215). -/
def decodeText (cipher : List Code) : Except ErrKind (List Code) :=
  match rlDecode cipher with
  | .ok digits => toText digits
  | .error e => .error e

end Sys2Proof.Machine
end

