-- ==== Sys2Proof/Safety.lean ====
section
/-! DEFINITION. The terms claims about runs are stated in: what a buffer holds, the text or digits a call reads,
the invariant every step keeps, what the registers and buffers of a running call contain, and which states agree
on everything the result of a call may depend on (spec/10_state.md R37). -/

namespace Sys2Proof.Machine

open Sys2Proof

/-- `n` steps of the machine from `s`. -/
def stepN (n : Nat) (s : State) : Host.Outcome State Fault Refusal :=
  Host.Core.run Sys2Proof.core n s

/-- The buffer holds the sequence from index 0 on. -/
def Memory.Holds {α : Type} (m : Memory α) (xs : List α) : Prop :=
  ∀ i, i < xs.length → Memory.get? m i = xs[i]?

/-- Every element below the length has been written. -/
def Memory.Written {α : Type} (m : Memory α) (len : Nat) : Prop :=
  ∀ i, i < len → (Memory.get? m i).isSome = true

/-- The characters `CIN[0 .. CIN_LEN-1]` as the running call reads them (R34). -/
def State.cinText (s : State) : List Code := (List.range s.cinLen).map s.cinAt

/-- The digits `DIG[0 .. DIG_LEN-1]` as the running call reads them (R34). -/
def State.digText (s : State) : List Digit := (List.range s.digLen).map s.digAt

/-- The characters the call that a GO in `s` starts will read. -/
def State.callText (s : State) : List Code := { s with calls := s.calls + 1 }.cinText

/-- The digits the call that a GO in `s` starts will read, when it has no front end. -/
def State.callDigits (s : State) : List Digit := { s with calls := s.calls + 1 }.digText

/-- The control bits of the command in CMD. -/
def State.control (s : State) : Control := (decodeCommand s.cmd).control

/-- The buffers are in canonical form. -/
structure State.Canonical (s : State) : Prop where
  cin : Memory.wf s.cin = true
  dig : Memory.wf s.dig = true
  cout : Memory.wf s.cout = true

/-- What the registers and lengths of a call satisfy in every state a run reaches, with any host. A GO makes it true
from any state. -/
structure State.CallInv (s : State) : Prop where
  /-- The block wrote every element of COUT below COUT_LEN. -/
  cout_written : Memory.Written s.cout s.coutLen
  /-- ERR is None unless ST is DONE (R35). -/
  err_of_not_done : s.st ≠ .done → s.err = .none
  /-- No output text beside an error (R216). -/
  no_output_with_error : s.err ≠ .none → s.coutLen = 0
  /-- A call runs in a stage that its command has (R182). -/
  stage_of_command : s.st = .busy →
    (s.stage = .front → s.control.fe = true) ∧ (s.stage = .back → s.control.be = true)
  /-- In FRONT the cursor stays within CIN, nothing is output, and the block wrote every staged digit. -/
  front : s.st = .busy → s.stage = .front →
    s.ip ≤ s.cinLen ∧ s.coutLen = 0 ∧ Memory.Written s.dig s.digLen
  /-- In FRONT of the encode direction DIG holds whole groups (R54, R119). -/
  front_encode : s.st = .busy → s.stage = .front → s.control.dir = false →
    s.digLen = s.ip * Config.W
  /-- In BACK after a FRONT stage the block wrote every digit it reads. -/
  back_written : s.st = .busy → s.stage = .back → s.control.fe = true →
    Memory.Written s.dig s.digLen
  /-- In BACK of the encode direction the cursor stays within DIG. -/
  back_encode : s.st = .busy → s.stage = .back → s.control.dir = false → s.ip ≤ s.digLen
  /-- In BACK of the decode direction the cursor stays within the groups of DIG, which has passed the length
  check once a group was read, and one character was output for each group. -/
  back_decode : s.st = .busy → s.stage = .back → s.control.dir = true →
    s.ip * Config.W ≤ s.digLen ∧ s.coutLen = s.ip ∧ (s.ip ≠ 0 → s.digLen % Config.W = 0)

/-- The length registers are within the capacities (R7, 93 U7). -/
structure State.Fits (s : State) : Prop where
  cin : s.caps.cin.fits s.cinLen = true
  dig : s.caps.dig.fits s.digLen = true
  cout : s.caps.cout.fits s.coutLen = true

/-- The invariant every step keeps, whatever the host does. -/
structure State.Inv (s : State) : Prop where
  canonical : s.Canonical
  call : s.CallInv
  fits : s.Fits

/-- The buffers have the sizes that R192 tells a builder to give them for the call a GO in `s` starts. -/
structure State.Room (s : State) : Prop where
  /-- TOBIN and the front of ENC. -/
  front_encode : s.control.fe = true → s.control.dir = false → s.caps.dig.fits (Config.W * s.cinLen) = true
  /-- RLDEC and the front of DEC. -/
  front_decode : s.control.fe = true → s.control.dir = true → s.caps.dig.fits (s.cinLen - 2) = true
  /-- The back of ENC. -/
  back_enc : s.control.fe = true → s.control.be = true → s.control.dir = false →
    s.caps.cout.fits (5 * (Config.W * s.cinLen) - 1) = true
  /-- The back of DEC. -/
  back_dec : s.control.fe = true → s.control.be = true → s.control.dir = true →
    s.caps.cout.fits ((s.cinLen - 2) / Config.W) = true
  /-- RLENC. -/
  back_encode : s.control.fe = false → s.control.be = true → s.control.dir = false →
    s.caps.cout.fits (5 * s.digLen - 1) = true
  /-- TOTXT. -/
  back_decode : s.control.fe = false → s.control.be = true → s.control.dir = true →
    s.caps.cout.fits (s.digLen / Config.W) = true

/-- The scanner's registers and the digits staged after reading characters (R156), from `ds`, `tb` and the digits
so far; `none` when a character was refused. -/
def scanText : ScanState → Digit → List Digit → List Code → Option (ScanState × Digit × List Digit)
  | ds, tb, out, [] => some (ds, tb, out)
  | ds, tb, out, c :: cs =>
    match scanCell ds (classify c) with
    | some (ds', .none) => scanText ds' tb out cs
    | some (ds', .setTb b) => scanText ds' b out cs
    | some (ds', .appendTb) => scanText ds' tb (out ++ [tb]) cs
    | none => none

/-- What the registers and buffers of a running call contain, in terms of the input consumed so far: the
inductions that R112, R116, R134 and R158 rest on. -/
structure State.CallContent (s : State) : Prop where
  /-- TOBIN and the front of ENC: DIG holds the fields of the characters consumed (R112). -/
  front_encode : s.st = .busy → s.stage = .front → s.control.dir = false →
    (s.cinText.take s.ip).all inRange = true ∧
    s.digLen = ((s.cinText.take s.ip).flatMap field).length ∧
    Memory.Holds s.dig ((s.cinText.take s.ip).flatMap field)
  /-- RLDEC and the front of DEC: `ds`, `tb` and DIG are what scanning the characters consumed gives (R158). -/
  front_decode : s.st = .busy → s.stage = .front → s.control.dir = true →
    ∃ out, scanText .s0 false [] (s.cinText.take s.ip) = some (s.ds, s.tb, out) ∧
      s.digLen = out.length ∧ Memory.Holds s.dig out
  /-- The back of ENC: DIG holds the fields of the whole text (R187). -/
  back_enc : s.st = .busy → s.stage = .back → s.control.fe = true → s.control.dir = false →
    toBinary s.cinText = .ok s.digText
  /-- The back of DEC: DIG holds the decoding of the whole cipher text (R188). -/
  back_dec : s.st = .busy → s.stage = .back → s.control.fe = true → s.control.dir = true →
    rlDecode s.cinText = .ok s.digText
  /-- RLENC and the back of ENC: COUT holds the encoding of the digits consumed, `prev` is the last (R134). -/
  back_encode : s.st = .busy → s.stage = .back → s.control.dir = false →
    s.coutLen = (rlEncode (s.digText.take s.ip)).length ∧
    Memory.Holds s.cout (rlEncode (s.digText.take s.ip)) ∧
    (s.ip ≠ 0 → s.digText[s.ip - 1]? = some s.prev)
  /-- TOTXT and the back of DEC: COUT holds the characters of the groups consumed (R116). -/
  back_decode : s.st = .busy → s.stage = .back → s.control.dir = true →
    s.coutLen = s.ip ∧ Memory.Holds s.cout (textOfGroups s.ip s.digText)

/-- The two states agree on the input of the command in CMD: CMD itself, the input length and the written
elements below it (R37). -/
structure SameInput (s t : State) : Prop where
  cmd : s.cmd = t.cmd
  /-- Commands with a front end read CIN. -/
  cin : s.control.fe = true → s.cinLen = t.cinLen ∧
    ∀ i, i < s.cinLen → (Memory.get? s.cin i).isSome = true ∧ Memory.get? s.cin i = Memory.get? t.cin i
  /-- Commands without one read DIG. -/
  dig : s.control.fe = false → s.digLen = t.digLen ∧
    ∀ i, i < s.digLen → (Memory.get? s.dig i).isSome = true ∧ Memory.get? s.dig i = Memory.get? t.dig i

/-- The two states show the host the same result of a call (R183): STATUS, the lengths, and the elements below
them. -/
structure SameResult (s t : State) : Prop where
  status : s.status = t.status
  digLen : s.digLen = t.digLen
  coutLen : s.coutLen = t.coutLen
  dig : ∀ i, i < s.digLen → Memory.get? s.dig i = Memory.get? t.dig i
  cout : ∀ i, i < s.coutLen → Memory.get? s.cout i = Memory.get? t.cout i

/-- The host wrote GO and then waits: the way every call is made (rows 4 and 5 of R252). -/
def State.calling (s : State) : State := { s with pending := [.writeCtrl 1#1] }

/-- The call that a GO starts in `s` has ended in `t`, `n` steps after the host was about to write GO. -/
structure CallEnds (s : State) (n : Nat) (t : State) : Prop where
  started : n ≠ 0
  run : stepN n s.calling = .next t
  done : t.st = .done

/-- What a host does to make a call on an input string and read its result (R252): the elements, CIN_LEN, CMD, GO,
wait, STATUS, COUT_LEN, and `n` elements of COUT. -/
def hostScript (w : CommandWord) (text : List Code) (n : Nat) : List HostMove :=
  text.mapIdx (fun i c => .writeCin i c) ++
    [.writeCinLen text.length, .writeCmd w, .writeCtrl 1#1, .awaitNotBusy, .readReg .status, .readReg .coutLen] ++
    (List.range n).map .readCout

end Sys2Proof.Machine
end

