-- ==== Sys2Proof/Certificates/Slice0/Obligations.lean ====
section
/-! DEFINITION. The statements for the provers. Each docstring names the rule of spec/ it formalises; where a
clause is the model's choice it names the log entry. `stepN n s` is `n` steps from `s`, and `CallEnds s n t` says that
the call a GO starts in `s` has ended in `t` after `n` steps. -/

open Sys2Proof Sys2Proof.Machine

/-! ### Reset, encoding, and how a step runs a command -/

/-- R39: the value of every register after reset; no buffer element has a value; CTRL reads 0. -/
def Obligations.ResetLeavesTheStatedValues : Prop :=
  State.reset.cmd = 0b000#3 ∧ State.reset.readReg .ctrl = .ctrl 0#1 ∧
  State.reset.st = .idle ∧ State.reset.err = .none ∧
  State.reset.cinLen = 0 ∧ State.reset.digLen = 0 ∧ State.reset.coutLen = 0 ∧
  State.reset.ip = 0 ∧ State.reset.stage = .front ∧ State.reset.prev = false ∧
  State.reset.ds = .s0 ∧ State.reset.tb = false ∧
  ∀ i, Memory.get? State.reset.cin i = none ∧ Memory.get? State.reset.dig i = none ∧
    Memory.get? State.reset.cout i = none

/-- The model's choice (log 13), after R250: a platform reset, in any call state, leaves every register and buffer
as after reset, so a running call is abandoned with no result and no error. -/
def Obligations.PlatformResetAbandonsTheCall : Prop :=
  ∀ (s : State) (rest : List HostMove), s.pending = .platformReset :: rest →
    step s = .next { State.reset with pending := rest, answers := s.answers, calls := s.calls, caps := s.caps }

/-- The command words of R82 and R83 stand for their commands, read by the decoder over bytes as well (log 4). -/
def Obligations.CommandWordsOfTheTable : Prop :=
  decodeCommand 0b010#3 = .tobin ∧ decodeCommand 0b011#3 = .rldec ∧ decodeCommand 0b100#3 = .rlenc ∧
  decodeCommand 0b101#3 = .totxt ∧ decodeCommand 0b110#3 = .enc ∧ decodeCommand 0b111#3 = .dec ∧
  decodeCommand 0b000#3 = .reserved false ∧ decodeCommand 0b001#3 = .reserved true ∧
  decode [0x06#8] = .ok (.enc, []) ∧ decodeTableWord 8 7 = some .dec

/-- Decoding the bytes of any command gives it back with the bytes after it (the bytes of a command word are the
model's choice, log 4), encoding the command of a word gives the word back, and the three bits of a command's word
are its control bits (R80). -/
def Obligations.DecodeAndEncodeAgree : Prop :=
  (∀ (i : Instr) (rest : List Byte), i.wf = true → decode (encode i ++ rest) = .ok (i, rest)) ∧
  (∀ w : CommandWord, encodeCommand (decodeCommand w) = w) ∧
  (∀ i : Instr, (encodeCommand i).getLsbD 2 = i.control.be ∧ (encodeCommand i).getLsbD 1 = i.control.fe ∧
    (encodeCommand i).getLsbD 0 = i.control.dir)

/-- The model's choice (log 4): bytes that are no command word are refused by name. -/
def Obligations.OtherBytesAreNoCommand : Prop :=
  decode [] = .error .noBytes ∧
  ∀ (b : Byte) (rest : List Byte), 8 ≤ b.toNat → decode (b :: rest) = .error .bitAboveCommandWord

/-- A step in which the block acts runs the command in CMD: while BUSY with no host move, with a waiting host or
with a host that stands aside, and at a GO write between calls; and so does the step after a word was placed
(logs 1, 3). -/
def Obligations.StepRunsTheCommandInCmd : Prop :=
  (∀ s : State, s.st = .busy → s.pending = [] → step s = exec (decodeCommand s.cmd) s) ∧
  (∀ (s : State) (rest : List HostMove), s.st = .busy → s.pending = .awaitNotBusy :: rest →
    step s = exec (decodeCommand s.cmd) s) ∧
  (∀ (s : State) (rest : List HostMove), s.st = .busy → s.pending = .blockTurn :: rest →
    step s = exec (decodeCommand s.cmd) { s with pending := rest }) ∧
  (∀ (s : State) (v : BitVec 1) (rest : List HostMove), s.st ≠ .busy → v.getLsbD 0 = true →
    s.pending = .writeCtrl v :: rest →
    step s = exec (decodeCommand s.cmd) { s with pending := rest }) ∧
  (∀ (s : State) (nbits w : Nat) (i : Instr), decodeTableWord nbits w = some i →
    step (s.withFetchWord nbits w) = exec i { s with cmd := BitVec.ofNat 3 (w % 2 ^ nbits) })

/-- Between calls the block does not step and everything is retained (R235; log 2): with no move pending a step
changes nothing, and a host that waits or stands aside changes nothing but its own list. -/
def Obligations.BlockRestsBetweenCalls : Prop :=
  (∀ s : State, s.st ≠ .busy → s.pending = [] → step s = .next s) ∧
  (∀ (s : State) (m : HostMove) (rest : List HostMove), s.st ≠ .busy → m = .awaitNotBusy ∨ m = .blockTurn →
    s.pending = m :: rest → step s = .next { s with pending := rest })

/-- Every command completes its transition in every state whose buffers have room for what one block step appends (W
digits, five characters; between calls nothing is needed): none stops the machine but for a finite instance that has
no room (R7; log 10). -/
def Obligations.EveryCommandAnswersANextState : Prop :=
  ∀ (i : Instr) (s : State),
    (s.st ≠ .busy ∨ s.caps.dig.fits (s.digLen + Config.W) = true ∧ s.caps.cout.fits (s.coutLen + 5) = true →
      ∃ t, exec i s = .next t) ∧
    (∀ r, exec i s = .refused r → s.st = .busy ∧ r = .capacityExceeded)

/-! ### GO -/

/-- R181: a GO write while ST is not BUSY performs the GO transition of the command in CMD, by the three cases of
the rule, and changes neither CMD, CIN, CIN_LEN nor any buffer element. (A GO write while BUSY is among the accesses
of HostAccessByCallState.) -/
def Obligations.GoTransition : Prop :=
  (∀ (s : State) (v : BitVec 1) (rest : List HostMove), v.getLsbD 0 = true → s.pending = .writeCtrl v :: rest →
    s.st ≠ .busy → step s = exec (decodeCommand s.cmd) { s with pending := rest }) ∧
  ∀ (i : Instr) (s : State), s.st ≠ .busy → ∃ t, exec i s = .next t ∧
    t.coutLen = 0 ∧ t.ip = 0 ∧ t.prev = false ∧ t.ds = .s0 ∧ t.tb = false ∧
    t.cmd = s.cmd ∧ t.cinLen = s.cinLen ∧ t.pending = s.pending ∧ t.answers = s.answers ∧ t.caps = s.caps ∧
    (∀ a, Memory.get? t.cin a = Memory.get? s.cin a ∧ Memory.get? t.dig a = Memory.get? s.dig a ∧
      Memory.get? t.cout a = Memory.get? s.cout a) ∧
    (i.control.fe = false → i.control.be = false →
      t.stage = .front ∧ t.err = .illegalCommand ∧ t.st = .done ∧ t.digLen = s.digLen) ∧
    (i.control.fe = true → t.stage = .front ∧ t.err = .none ∧ t.st = .busy ∧ t.digLen = 0) ∧
    (i.control.fe = false → i.control.be = true →
      t.stage = .back ∧ t.err = .none ∧ t.st = .busy ∧ t.digLen = s.digLen)

/-- R83: the reserved words are 0b000 and 0b001 and no other, and a GO with one ends at once with IllegalCommand,
COUT_LEN = 0 and DIG, DIG_LEN unchanged. -/
def Obligations.ReservedCommandEndsAtGo : Prop :=
  (∀ w : CommandWord, (∃ d, decodeCommand w = .reserved d) ↔ w = 0b000#3 ∨ w = 0b001#3) ∧
  ∀ (d : Bool) (s : State), s.st ≠ .busy → ∃ t, exec (.reserved d) s = .next t ∧
    t.st = .done ∧ t.err = .illegalCommand ∧ t.coutLen = 0 ∧ t.dig = s.dig ∧ t.digLen = s.digLen

/-! ### The block steps of each command -/

/-- R111: the TOBIN character step, of TOBIN and of ENC, where DIG has room for the digits (R7): W digits at once, most
significant first, or CharacterOutOfRange; nothing else changes. -/
def Obligations.TobinCharacterStep : Prop :=
  ∀ (i : Instr) (s : State), i = .tobin ∨ i = .enc → s.st = .busy → s.stage = .front → s.ip < s.cinLen →
    ((s.cinAt s.ip).toNat < 2 ^ Config.W → s.caps.dig.fits (s.digLen + Config.W) = true →
      ∃ t, exec i s = .next t ∧
      t = { s with dig := t.dig, digLen := s.digLen + Config.W, ip := s.ip + 1 } ∧
      (∀ k, k < Config.W →
        Memory.get? t.dig (s.digLen + k) = some ((s.cinAt s.ip).getLsbD (Config.W - 1 - k))) ∧
      (∀ a, a < s.digLen ∨ s.digLen + Config.W ≤ a → Memory.get? t.dig a = Memory.get? s.dig a)) ∧
    (2 ^ Config.W ≤ (s.cinAt s.ip).toNat →
      exec i s = .next { s with err := .characterOutOfRange, coutLen := 0, digLen := 0, st := .done })

/-- R115: the TOTXT step, of TOTXT and of DEC, by its three cases in order: the length check, Finish, the group step
where COUT has room for the character (R7); nothing else changes, and where the invariant of a call holds a group
step reads only digits below DIG_LEN. -/
def Obligations.TotxtStep : Prop :=
  ∀ (i : Instr) (s : State), i = .totxt ∨ i = .dec → s.st = .busy → s.stage = .back →
    (s.ip = 0 ∧ s.digLen % Config.W ≠ 0 → exec i s = .next { s with
      err := .invalidLength, coutLen := 0, digLen := if i.control.fe then 0 else s.digLen, st := .done }) ∧
    (¬(s.ip = 0 ∧ s.digLen % Config.W ≠ 0) → s.ip * Config.W = s.digLen → exec i s = .next { s with
      digLen := if i.control.fe then 0 else s.digLen, st := .done }) ∧
    (¬(s.ip = 0 ∧ s.digLen % Config.W ≠ 0) → s.ip * Config.W ≠ s.digLen →
      s.caps.cout.fits (s.coutLen + 1) = true → ∃ t, exec i s = .next t ∧
      t = { s with cout := t.cout, coutLen := s.coutLen + 1, ip := s.ip + 1 } ∧
      Memory.get? t.cout s.coutLen = some (BitVec.ofNat Config.CW (∑ k ∈ Finset.range Config.W,
        (s.digAt (s.ip * Config.W + k)).toNat * 2 ^ (Config.W - 1 - k))) ∧
      (∀ a, a ≠ s.coutLen → Memory.get? t.cout a = Memory.get? s.cout a) ∧
      (s.CallInv → s.control = i.control → s.ip * Config.W + Config.W ≤ s.digLen))

/-- R133: the RLENC digit step, of RLENC and of ENC, where COUT has room for the characters (R7): the strings appended
for a first digit, a changed digit and a repeated digit, and the digit kept in `prev`; nothing else changes. -/
def Obligations.RlencDigitStep : Prop :=
  ∀ (i : Instr) (s : State), i = .rlenc ∨ i = .enc → s.st = .busy → s.stage = .back → s.ip < s.digLen →
    ∃ t cs, (s.caps.cout.fits (s.coutLen + cs.length) = true → exec i s = .next t) ∧
      t = { s with cout := t.cout, coutLen := s.coutLen + cs.length, prev := s.digAt s.ip, ip := s.ip + 1 } ∧
      (s.ip = 0 → s.digAt s.ip = true → cs = [0x30#8, 0x20#8, 0x30#8]) ∧
      (s.ip = 0 → s.digAt s.ip = false → cs = [0x30#8, 0x30#8, 0x20#8, 0x30#8]) ∧
      (s.ip ≠ 0 → s.digAt s.ip ≠ s.prev → s.digAt s.ip = true → cs = [0x20#8, 0x30#8, 0x20#8, 0x30#8]) ∧
      (s.ip ≠ 0 → s.digAt s.ip ≠ s.prev → s.digAt s.ip = false →
        cs = [0x20#8, 0x30#8, 0x30#8, 0x20#8, 0x30#8]) ∧
      (s.ip ≠ 0 → s.digAt s.ip = s.prev → cs = [0x30#8]) ∧
      (∀ k, k < cs.length → Memory.get? t.cout (s.coutLen + k) = cs[k]?) ∧
      (∀ a, a < s.coutLen ∨ s.coutLen + cs.length ≤ a → Memory.get? t.cout a = Memory.get? s.cout a)

/-- R156: the RLDEC character step, of RLDEC and of DEC: every cell of the scanner's table, the ten error cells among
them; a digit is appended where DIG has room for it (R7); nothing else changes. -/
def Obligations.RldecCharacterStep : Prop :=
  ∀ (i : Instr) (s : State), i = .rldec ∨ i = .dec → s.st = .busy → s.stage = .front → s.ip < s.cinLen →
    (s.cinAt s.ip = 0x30#8 →
      (s.ds = .s0 → exec i s = .next { s with ds := .p1, ip := s.ip + 1 }) ∧
      (s.ds = .p1 → exec i s = .next { s with ds := .p2, ip := s.ip + 1 }) ∧
      (s.ds = .g ∨ s.ds = .r → s.caps.dig.fits (s.digLen + 1) = true → exec i s = .next { s with
        ds := .r, dig := Memory.set s.dig s.digLen s.tb, digLen := s.digLen + 1, ip := s.ip + 1 }) ∧
      (s.ds = .e → exec i s = .next { s with ds := .p1, ip := s.ip + 1 })) ∧
    (s.cinAt s.ip = 0x20#8 →
      (s.ds = .p1 → exec i s = .next { s with ds := .g, tb := true, ip := s.ip + 1 }) ∧
      (s.ds = .p2 → exec i s = .next { s with ds := .g, tb := false, ip := s.ip + 1 }) ∧
      (s.ds = .r → exec i s = .next { s with ds := .e, ip := s.ip + 1 })) ∧
    ((s.cinAt s.ip = 0x30#8 ∧ s.ds = .p2) ∨
      (s.cinAt s.ip = 0x20#8 ∧ (s.ds = .s0 ∨ s.ds = .g ∨ s.ds = .e)) ∨
      (s.cinAt s.ip ≠ 0x30#8 ∧ s.cinAt s.ip ≠ 0x20#8) →
      exec i s = .next { s with err := .malformedCipher, coutLen := 0, digLen := 0, st := .done })

/-- A finite instance (R7) does what the unbounded machine of the spec's rules does, and neither truncates nor wraps: a
command whose transition there appends within the capacities, or appends nothing, has the same next state here, and
one whose transition appends beyond a capacity is refused (93 U7; at this transition and under this name by the
model's choice, log 10). -/
def Obligations.FiniteInstanceAgreesOrRefuses : Prop :=
  ∀ (i : Instr) (s t : State), exec i { s with caps := Capacities.unbounded } = .next t →
    ((t.digLen ≤ s.digLen ∨ s.caps.dig.fits t.digLen = true) →
      (t.coutLen ≤ s.coutLen ∨ s.caps.cout.fits t.coutLen = true) → exec i s = .next { t with caps := s.caps }) ∧
    (s.digLen < t.digLen ∧ s.caps.dig.fits t.digLen = false ∨
        s.coutLen < t.coutLen ∧ s.caps.cout.fits t.coutLen = false →
      exec i s = .refused .capacityExceeded)

/-- R157: the end of RLDEC's input: accepted in S0, R and E, which is FrontDone, malformed in P1, P2 and G; S0 there
means an empty input, where the registers hold what scanning the input gives. -/
def Obligations.RldecEndOfInput : Prop :=
  ∀ s : State, s.st = .busy → s.stage = .front → s.ip = s.cinLen →
    (s.ds = .s0 ∨ s.ds = .r ∨ s.ds = .e →
      exec .rldec s = .next { s with st := .done } ∧
      exec .dec s = .next { s with stage := .back, ip := 0 }) ∧
    (s.ds = .p1 ∨ s.ds = .p2 ∨ s.ds = .g → ∀ i : Instr, i = .rldec ∨ i = .dec →
      exec i s = .next { s with err := .malformedCipher, coutLen := 0, digLen := 0, st := .done }) ∧
    (s.CallContent → s.control.dir = true → s.ds = .s0 → s.cinLen = 0)

/-- R185: the end of a successful FRONT stage: ENC and DEC go on in BACK with the cursor at 0, TOBIN and RLDEC
finish with their digits kept. -/
def Obligations.FrontDoneGoesOnOrFinishes : Prop :=
  ∀ (i : Instr) (s : State), s.st = .busy → s.stage = .front → s.ip = s.cinLen → i.control.fe = true →
    (i.control.dir = true → s.ds = .s0 ∨ s.ds = .r ∨ s.ds = .e) →
    (i.control.be = true → exec i s = .next { s with stage := .back, ip := 0 }) ∧
    (i.control.be = false → exec i s = .next { s with st := .done })

/-- R186: Finish, at the end of every successful call: ENC and DEC set DIG_LEN to 0, the other commands keep it,
and ST becomes DONE; nothing else changes. -/
def Obligations.FinishEndsTheCall : Prop :=
  ∀ s : State, s.st = .busy →
    (s.stage = .front → s.ip = s.cinLen → exec .tobin s = .next { s with st := .done } ∧
      (s.ds = .s0 ∨ s.ds = .r ∨ s.ds = .e → exec .rldec s = .next { s with st := .done })) ∧
    (s.stage = .back → s.ip = s.digLen → exec .rlenc s = .next { s with st := .done } ∧
      exec .enc s = .next { s with digLen := 0, st := .done }) ∧
    (s.stage = .back → s.ip * Config.W = s.digLen → exec .totxt s = .next { s with st := .done } ∧
      exec .dec s = .next { s with digLen := 0, st := .done })

/-! ### Errors -/

/-- R216: whenever a block step raises an error, the step does exactly what Fail says and nothing of its own: ERR,
COUT_LEN, DIG_LEN when the front end ran, ST; the internal registers and every buffer element keep what they
held. -/
def Obligations.FailReplacesTheStep : Prop :=
  ∀ (i : Instr) (s t : State), s.st = .busy → s.err = .none → exec i s = .next t → t.err ≠ .none →
    t = { s with err := t.err, coutLen := 0, digLen := if i.control.fe then 0 else s.digLen, st := .done }

/-- Which command can end with which kind (the table under R214): the only kinds a step of a running call of each
command can raise. -/
def Obligations.ErrorKindsOfEachCommand : Prop :=
  ∀ s t : State, s.CallInv → s.st = .busy → exec (decodeCommand s.cmd) s = .next t → t.err ≠ .none →
    (decodeCommand s.cmd = .tobin ∧ t.err = .characterOutOfRange) ∨
    (decodeCommand s.cmd = .rldec ∧ t.err = .malformedCipher) ∨
    (decodeCommand s.cmd = .totxt ∧ t.err = .invalidLength) ∨
    (decodeCommand s.cmd = .enc ∧ t.err = .characterOutOfRange) ∨
    (decodeCommand s.cmd = .dec ∧ (t.err = .malformedCipher ∨ t.err = .invalidLength))

/-- The observable state after a failed call is the state before it with ST = DONE, the kind in ERR, COUT_LEN = 0
and, when the front end ran, DIG_LEN = 0 (R217). -/
def Obligations.FailedCallLeavesOnlyItsKind : Prop :=
  ∀ (s t : State) (n : Nat), s.st ≠ .busy → CallEnds s n t → t.err ≠ .none →
    t.cmd = s.cmd ∧ t.cin = s.cin ∧ t.cinLen = s.cinLen ∧ t.coutLen = 0 ∧
    (s.control.fe = true → t.digLen = 0) ∧ (s.control.fe = false → t.digLen = s.digLen ∧ t.dig = s.dig)

/-! ### The host -/

/-- R30: CMD takes any of its eight values from the host and reads back unchanged, its three bits are BE, FE and
DIR, and it is constant during a call: no step of a BUSY machine but a reset (offered as a move, log 13)
changes it, and a host write, which has no meaning, is refused by name (log 14). -/
def Obligations.CmdHoldsAnyValueAndIsConstantInACall : Prop :=
  (∀ (s : State) (v : CommandWord) (rest : List HostMove), s.st ≠ .busy →
    s.pending = .writeCmd v :: .readReg .cmd :: rest →
    stepN 2 s =
      .next { s with cmd := v, pending := rest, answers := s.answers ++ [.cmd v] }) ∧
  (∀ v : CommandWord, (decodeCommand v).control =
    { be := v.getLsbD 2, fe := v.getLsbD 1, dir := v.getLsbD 0 }) ∧
  (∀ (s : State) (v : CommandWord) (rest : List HostMove), s.st = .busy → s.pending = .writeCmd v :: rest →
    step s = .refused .hostWriteWhileBusy) ∧
  (∀ s t : State, s.st = .busy → s.pending.head? ≠ some .platformReset → step s = .next t → t.cmd = s.cmd)

/-- R31: a CTRL write with GO = 1 while not BUSY performs GO, one with GO = 0 does nothing, and CTRL reads 0. While
BUSY a read of it has no meaning and is refused by name (R256; logs 9, 14). -/
def Obligations.CtrlTriggersAndReadsZero : Prop :=
  (∀ (s : State) (v : BitVec 1) (rest : List HostMove), s.st ≠ .busy → s.pending = .writeCtrl v :: rest →
    (v.getLsbD 0 = true → step s = .next ({ s with pending := rest }.go s.control)) ∧
    (v.getLsbD 0 = false → step s = .next { s with pending := rest })) ∧
  ∀ (s : State) (rest : List HostMove), s.pending = .readReg .ctrl :: rest → s.readReg .ctrl = .ctrl 0#1 ∧
    (s.st ≠ .busy → step s = .next { s with pending := rest, answers := s.answers ++ [.ctrl 0#1] }) ∧
    (s.st = .busy → step s = .refused .hostReadWhileBusy)

/-- R35: the layout of STATUS, the values never written, that the host cannot write it, and the transitions of
ST: from IDLE and DONE by GO only, from BUSY to DONE only and by Finish or Fail only, to IDLE by reset only; ERR is
None while ST is IDLE or BUSY, in every state the invariant of a call holds in. -/
def Obligations.StatusLayoutAndTransitions : Prop :=
  (∀ s : State,
    (s.status.extractLsb' 0 2 = match s.st with | .idle => 0#2 | .busy => 1#2 | .done => 2#2) ∧
    (s.status.extractLsb' 2 3 = match s.err with
      | .none => 0#3 | .malformedCipher => 1#3 | .invalidLength => 2#3
      | .characterOutOfRange => 3#3 | .illegalCommand => 4#3)) ∧
  (∀ s t : State, step s = .next t → s.pending.head? ≠ some .platformReset →
    (s.st = .busy → t.st ≠ .idle) ∧
    (s.st = .busy → t.st = .done → ∃ p, t = ({ s with pending := p } : State).finish s.control ∨
      ∃ e, e ≠ .none ∧ t = ({ s with pending := p } : State).fail s.control e) ∧
    (s.st ≠ .busy → (∀ v : BitVec 1, v.getLsbD 0 = true → s.pending.head? ≠ some (.writeCtrl v)) →
      t.st = s.st ∧ t.err = s.err) ∧
    (s.st ≠ .busy → (∃ v : BitVec 1, v.getLsbD 0 = true ∧ s.pending.head? = some (.writeCtrl v)) →
      t.st ≠ .idle)) ∧
  ∀ s : State, s.CallInv → s.st ≠ .done → s.err = .none

/-- R40: every host access between calls, where what is written fits the capacities, and while BUSY the four reads
that are allowed and every access that has no meaning (refused by name, log 14; a CTRL read, log 9). -/
def Obligations.HostAccessByCallState : Prop :=
  (∀ (s : State) (rest : List HostMove), s.st ≠ .busy →
    (∀ v, s.pending = .writeCmd v :: rest → step s = .next { s with pending := rest, cmd := v }) ∧
    (s.pending = .writeCtrl 1#1 :: rest → step s = .next ({ s with pending := rest }.go s.control)) ∧
    (s.pending = .writeCtrl 0#1 :: rest → step s = .next { s with pending := rest }) ∧
    (∀ n, s.pending = .writeCinLen n :: rest → s.caps.cin.fits n = true →
      step s = .next { s with pending := rest, cinLen := n }) ∧
    (∀ n, s.pending = .writeDigLen n :: rest → s.caps.dig.fits n = true →
      step s = .next { s with pending := rest, digLen := n }) ∧
    (∀ i c, s.pending = .writeCin i c :: rest → s.caps.cin.fits (i + 1) = true →
      ∃ m, step s = .next { s with pending := rest, cin := m } ∧
      Memory.get? m i = some c ∧ ∀ a, a ≠ i → Memory.get? m a = Memory.get? s.cin a) ∧
    (∀ i d, s.pending = .writeDig i d :: rest → s.caps.dig.fits (i + 1) = true →
      ∃ m, step s = .next { s with pending := rest, dig := m } ∧
      Memory.get? m i = some d ∧ ∀ a, a ≠ i → Memory.get? m a = Memory.get? s.dig a) ∧
    (s.pending = .readReg .digLen :: rest →
      step s = .next { s with pending := rest, answers := s.answers ++ [.length s.digLen] }) ∧
    (s.pending = .readReg .coutLen :: rest →
      step s = .next { s with pending := rest, answers := s.answers ++ [.length s.coutLen] }) ∧
    (s.pending = .readReg .ctrl :: rest →
      step s = .next { s with pending := rest, answers := s.answers ++ [.ctrl 0#1] }) ∧
    (∀ i, s.pending = .readDig i :: rest → ∃ d, step s =
      .next { s with pending := rest, answers := s.answers ++ [.digit d] } ∧
      (i < s.digLen → ∀ e, Memory.get? s.dig i = some e → d = e)) ∧
    (∀ i, s.pending = .readCout i :: rest → ∃ c, step s =
      .next { s with pending := rest, answers := s.answers ++ [.code c] } ∧
      (i < s.coutLen → ∀ e, Memory.get? s.cout i = some e → c = e))) ∧
  (∀ (s : State) (rest : List HostMove),
    (s.pending = .readReg .status :: rest →
      step s = .next { s with pending := rest, answers := s.answers ++ [.status s.status] }) ∧
    (s.pending = .readReg .cmd :: rest →
      step s = .next { s with pending := rest, answers := s.answers ++ [.cmd s.cmd] }) ∧
    (s.pending = .readReg .cinLen :: rest →
      step s = .next { s with pending := rest, answers := s.answers ++ [.length s.cinLen] }) ∧
    (∀ i, s.pending = .readCin i :: rest → ∃ c, step s =
      .next { s with pending := rest, answers := s.answers ++ [.code c] } ∧
      (i < s.cinLen → ∀ e, Memory.get? s.cin i = some e → c = e))) ∧
  (∀ (s : State) (m : HostMove) (rest : List HostMove), s.st = .busy → s.pending = m :: rest →
    ((∃ v, m = .writeCmd v) ∨ (∃ v, m = .writeCtrl v) ∨ (∃ n, m = .writeCinLen n) ∨ (∃ n, m = .writeDigLen n) ∨
      (∃ i c, m = .writeCin i c) ∨ (∃ i d, m = .writeDig i d) → step s = .refused .hostWriteWhileBusy) ∧
    (m = .readReg .ctrl ∨ m = .readReg .digLen ∨ m = .readReg .coutLen ∨ (∃ i, m = .readDig i) ∨
      (∃ i, m = .readCout i) →
      step s = .refused .hostReadWhileBusy)) ∧
  (∀ s : State, s.CallInv → s.st = .busy → s.status = 0b00001#5)

/-- A step is refused only for an access that has no meaning while BUSY, or for what does not fit a finite instance,
each reason tied to what it refuses: a host write while BUSY (93 U4), a host read while BUSY of a register or buffer
that the host may not read then (93 U5, R256), and a length or an element written beyond a capacity between calls or a
block step that would append beyond one (93 U7). The names are the model's choice (logs 9, 10, 14). -/
def Obligations.OnlyAccessesWhileBusyAreRefused : Prop :=
  ∀ (s : State) (r : Refusal), step s = .refused r →
    (r = .hostWriteWhileBusy ∧ s.st = .busy ∧ ∃ m rest, s.pending = m :: rest ∧
      ((∃ v, m = .writeCmd v) ∨ (∃ v, m = .writeCtrl v) ∨ (∃ n, m = .writeCinLen n) ∨ (∃ n, m = .writeDigLen n) ∨
        (∃ i c, m = .writeCin i c) ∨ (∃ i d, m = .writeDig i d))) ∨
    (r = .hostReadWhileBusy ∧ s.st = .busy ∧ ∃ m rest, s.pending = m :: rest ∧
      (m = .readReg .ctrl ∨ m = .readReg .digLen ∨ m = .readReg .coutLen ∨ (∃ i, m = .readDig i) ∨
        (∃ i, m = .readCout i))) ∨
    (r = .capacityExceeded ∧ s.st ≠ .busy ∧ ∃ m rest, s.pending = m :: rest ∧
      ((∃ n, m = .writeCinLen n ∧ s.caps.cin.fits n = false) ∨
        (∃ n, m = .writeDigLen n ∧ s.caps.dig.fits n = false) ∨
        (∃ i c, m = .writeCin i c ∧ s.caps.cin.fits (i + 1) = false) ∨
        (∃ i d, m = .writeDig i d ∧ s.caps.dig.fits (i + 1) = false))) ∨
    (r = .capacityExceeded ∧ s.st = .busy ∧
      (s.pending = [] ∨ ∃ m rest, s.pending = m :: rest ∧ (m = .awaitNotBusy ∨ m = .blockTurn)) ∧
      (s.caps.dig.fits (s.digLen + Config.W) = false ∨ s.caps.cout.fits (s.coutLen + 5) = false))

/-- A finite instance refuses a length register written with a value above its capacity, and an element written beyond
it, and so neither truncates nor wraps (93 U7, R7; the element and the name are the model's choice, log 10). -/
def Obligations.WritesThatDoNotFitAreRefused : Prop :=
  ∀ (s : State) (rest : List HostMove), s.st ≠ .busy →
    (∀ n, s.pending = .writeCinLen n :: rest → s.caps.cin.fits n = false →
      step s = .refused .capacityExceeded) ∧
    (∀ n, s.pending = .writeDigLen n :: rest → s.caps.dig.fits n = false →
      step s = .refused .capacityExceeded) ∧
    (∀ i c, s.pending = .writeCin i c :: rest → s.caps.cin.fits (i + 1) = false →
      step s = .refused .capacityExceeded) ∧
    (∀ i d, s.pending = .writeDig i d :: rest → s.caps.dig.fits (i + 1) = false →
      step s = .refused .capacityExceeded)

/-- A host read that the call state allows (of CIN always, of DIG and COUT between calls) of an element at or above
its length register returns any value, whatever the buffer holds there (R34, R40, 93 U6; log 6), and a read changes
nothing but what the host has read (R58). -/
def Obligations.ReadAtOrAboveTheLengthIsFree : Prop :=
  ∀ (s : State) (rest : List HostMove) (i : Nat),
    (s.pending = .readCin i :: rest → s.cinLen ≤ i → step s =
      .next { s with pending := rest, answers := s.answers ++ [.code (Config.freeHostCode s.answers.length i)] }) ∧
    (s.st ≠ .busy → s.pending = .readDig i :: rest → s.digLen ≤ i → step s =
      .next { s with pending := rest, answers := s.answers ++ [.digit (Config.freeHostDigit s.answers.length i)] }) ∧
    (s.st ≠ .busy → s.pending = .readCout i :: rest → s.coutLen ≤ i → step s =
      .next { s with pending := rest, answers := s.answers ++ [.code (Config.freeHostCode s.answers.length i)] })

/-! ### Frames and whole-machine rules -/

/-- What no transition of any command changes, and what a stage leaves alone: CMD, CIN, CIN_LEN, the capacities and
the host's fields always; in FRONT every element of COUT; in BACK every element of DIG and the scanner's registers;
the elements of DIG below DIG_LEN and those of COUT below COUT_LEN in every step (R20, R32, R56). -/
def Obligations.FrameOfEveryCommand : Prop :=
  ∀ (i : Instr) (s t : State), exec i s = .next t →
    t.cmd = s.cmd ∧ t.cinLen = s.cinLen ∧ t.pending = s.pending ∧ t.answers = s.answers ∧ t.caps = s.caps ∧
    (∀ a, Memory.get? t.cin a = Memory.get? s.cin a) ∧
    (s.st = .busy → s.stage = .front → t.prev = s.prev ∧ ∀ a, Memory.get? t.cout a = Memory.get? s.cout a) ∧
    (s.st = .busy → s.stage = .back → t.ds = s.ds ∧ t.tb = s.tb ∧ t.stage = .back ∧
      ∀ a, Memory.get? t.dig a = Memory.get? s.dig a) ∧
    (∀ a, a < s.digLen ∨ s.digLen + Config.W ≤ a → Memory.get? t.dig a = Memory.get? s.dig a) ∧
    (∀ a, a < s.coutLen ∨ s.coutLen + 5 ≤ a → Memory.get? t.cout a = Memory.get? s.cout a)

/-- R24: every block step either consumes one element, adding exactly 1 to the cursor with the call still running,
or is FrontDone, which sets it to 0, or ends the call and leaves it. -/
def Obligations.CursorMovesByOne : Prop :=
  ∀ (i : Instr) (s t : State), s.st = .busy → exec i s = .next t →
    (t.ip = s.ip + 1 ∧ t.st = .busy ∧ t.stage = s.stage) ∨
    (t.ip = 0 ∧ t.st = .busy ∧ s.stage = .front ∧ t.stage = .back ∧ s.cinLen ≤ s.ip) ∨
    (t.ip = s.ip ∧ t.st = .done ∧ t.stage = s.stage)

/-- The invariant holds after reset, and so do the contents of a running call (there is none). -/
def Obligations.ResetMeetsTheInvariant : Prop :=
  State.reset.Inv ∧ State.reset.CallContent

/-- Every step keeps the invariant, whatever the host does. -/
def Obligations.StepKeepsTheInvariant : Prop :=
  ∀ s t : State, s.Inv → step s = .next t → t.Inv

/-- Every step keeps the contents of a running call: what DIG, COUT, `prev`, `ds` and `tb` hold is the
function-level result on the input consumed so far (the inductions of R112, R116, R134, R158). -/
def Obligations.StepKeepsTheCallContent : Prop :=
  ∀ s t : State, s.CallInv → s.CallContent → step s = .next t → t.CallContent

/-- Every running call ends, within a number of steps that is linear in the lengths (R191, R261), or, in a finite
instance only, is refused (R7; log 10). -/
def Obligations.EveryCallEnds : Prop :=
  ∀ s : State, s.CallInv → s.st = .busy → s.pending = [] →
    ∃ n, n ≤ 8 * s.cinLen + s.digLen + 2 ∧
      ((∃ t, stepN n s = .next t ∧ t.st = .done) ∨
        stepN n s = .refused .capacityExceeded ∧ (s.caps.dig ≠ none ∨ s.caps.cout ≠ none))

/-! ### The result of a call of each command (R183) -/

/-- TOBIN (R112): a call that ends has the digits of the whole text, or CharacterOutOfRange and nothing; it ends when
DIG has room for the digits of the text. -/
def Obligations.TobinCallResult : Prop :=
  ∀ s : State, s.st ≠ .busy → decodeCommand s.cmd = .tobin →
    (∀ n t, CallEnds s n t →
      t.coutLen = 0 ∧ t.cmd = s.cmd ∧ t.cin = s.cin ∧ t.cinLen = s.cinLen ∧
      (∀ d, toBinary s.callText = .ok d → t.err = .none ∧
        t.digLen = d.length ∧ t.digLen = Config.W * s.cinLen ∧ Memory.Holds t.dig d) ∧
      (∀ e, toBinary s.callText = .error e → e = .characterOutOfRange ∧ t.err = e ∧ t.digLen = 0)) ∧
    (s.caps.dig.fits (Config.W * s.cinLen) = true → ∃ t, CallEnds s (s.cinLen + 2) t)

/-- RLDEC (R158): a call that ends has the decoding of the whole cipher text, or MalformedCipher and nothing; it ends
when DIG has room for the digits, or, where the text is malformed, the room of R192. -/
def Obligations.RldecCallResult : Prop :=
  ∀ s : State, s.st ≠ .busy → decodeCommand s.cmd = .rldec →
    (∀ n t, CallEnds s n t →
      t.coutLen = 0 ∧ t.cmd = s.cmd ∧ t.cin = s.cin ∧ t.cinLen = s.cinLen ∧
      (∀ d, rlDecode s.callText = .ok d → t.err = .none ∧ t.digLen = d.length ∧ Memory.Holds t.dig d) ∧
      (∀ e, rlDecode s.callText = .error e → e = .malformedCipher ∧ t.err = e ∧ t.digLen = 0)) ∧
    ((∀ d, rlDecode s.callText = .ok d → s.caps.dig.fits d.length = true) →
      (∀ e, rlDecode s.callText = .error e → s.caps.dig.fits (s.cinLen - 2) = true) →
      ∃ t, CallEnds s (s.cinLen + 2) t)

/-- RLENC (R134): a call that ends has the encoding of the digits, always, with DIG and DIG_LEN unchanged; it ends
when COUT has room for the encoding. -/
def Obligations.RlencCallResult : Prop :=
  ∀ s : State, s.st ≠ .busy → decodeCommand s.cmd = .rlenc →
    (∀ n t, CallEnds s n t → t.err = .none ∧
      t.coutLen = (rlEncode s.callDigits).length ∧ Memory.Holds t.cout (rlEncode s.callDigits) ∧
      t.dig = s.dig ∧ t.digLen = s.digLen ∧ t.cmd = s.cmd ∧ t.cin = s.cin ∧ t.cinLen = s.cinLen) ∧
    (s.caps.cout.fits (rlEncode s.callDigits).length = true → ∃ t, CallEnds s (s.digLen + 2) t)

/-- TOTXT (R116): a call that ends has the characters of the groups, or InvalidLength; DIG and DIG_LEN unchanged in
both cases; it ends when COUT has room for the characters, if there are any. -/
def Obligations.TotxtCallResult : Prop :=
  ∀ s : State, s.st ≠ .busy → decodeCommand s.cmd = .totxt →
    (∀ n t, CallEnds s n t →
      t.dig = s.dig ∧ t.digLen = s.digLen ∧ t.cmd = s.cmd ∧ t.cin = s.cin ∧ t.cinLen = s.cinLen ∧
      (∀ c, toText s.callDigits = .ok c → t.err = .none ∧
        t.coutLen = c.length ∧ t.coutLen = s.digLen / Config.W ∧ Memory.Holds t.cout c) ∧
      (∀ e, toText s.callDigits = .error e → e = .invalidLength ∧ t.err = e ∧ t.coutLen = 0)) ∧
    ((∀ c, toText s.callDigits = .ok c → s.caps.cout.fits c.length = true) →
      ∃ t, CallEnds s (s.digLen / Config.W + 2) t)

/-- ENC (R187, R183): a call that ends has the cipher of the whole text and no digits left, or CharacterOutOfRange and
nothing; it ends when DIG has room for the digits of the text and COUT for the cipher. -/
def Obligations.EncCallResult : Prop :=
  ∀ s : State, s.st ≠ .busy → decodeCommand s.cmd = .enc →
    (∀ n t, CallEnds s n t →
      t.digLen = 0 ∧ t.cmd = s.cmd ∧ t.cin = s.cin ∧ t.cinLen = s.cinLen ∧
      (∀ c, encodeText s.callText = .ok c → t.err = .none ∧ t.coutLen = c.length ∧ Memory.Holds t.cout c) ∧
      (∀ e, encodeText s.callText = .error e → e = .characterOutOfRange ∧ t.err = e ∧ t.coutLen = 0)) ∧
    (s.caps.dig.fits (Config.W * s.cinLen) = true →
      (∀ c, encodeText s.callText = .ok c → s.caps.cout.fits c.length = true) →
      ∃ t, CallEnds s (s.cinLen + 1 + Config.W * s.cinLen + 1 + 1) t)

/-- DEC (R188, R183, R215): a call that ends has the text of the whole cipher and no digits left, or MalformedCipher,
or, only after a cipher that the grammar accepts, InvalidLength, and nothing; it ends when DIG has room for the
digits, or where the text is malformed the room of R192, and COUT for the text. -/
def Obligations.DecCallResult : Prop :=
  ∀ s : State, s.st ≠ .busy → decodeCommand s.cmd = .dec →
    (∀ n t, CallEnds s n t →
      t.digLen = 0 ∧ t.cmd = s.cmd ∧ t.cin = s.cin ∧ t.cinLen = s.cinLen ∧
      (∀ c, decodeText s.callText = .ok c → t.err = .none ∧ t.coutLen = c.length ∧ Memory.Holds t.cout c) ∧
      (∀ e, decodeText s.callText = .error e → t.err = e ∧ t.coutLen = 0 ∧
        (e = .malformedCipher ∧ rlDecode s.callText = .error .malformedCipher ∨
          e = .invalidLength ∧ ∃ d, rlDecode s.callText = .ok d ∧ d.length % Config.W ≠ 0))) ∧
    ((∀ d, rlDecode s.callText = .ok d → s.caps.dig.fits d.length = true) →
      (∀ e, rlDecode s.callText = .error e → s.caps.dig.fits (s.cinLen - 2) = true) →
      (∀ c, decodeText s.callText = .ok c → s.caps.cout.fits c.length = true) →
      ∃ n t, CallEnds s n t ∧ (∀ c, decodeText s.callText = .ok c → n = s.cinLen + 1 + c.length + 1 + 1) ∧
        (∀ e, decodeText s.callText = .error e → n ≤ s.cinLen + 3))

/-- A call in buffers of the sizes of R192 is never refused: it ends, whatever its input. -/
def Obligations.CallWithRoomEnds : Prop :=
  ∀ s : State, s.st ≠ .busy → s.Room → ∃ n t, CallEnds s n t

/-- A call whose digits or output do not fit the capacities is refused, neither truncated nor wrapped (R7, 93 U7; at
which step, and under what name, is the model's choice, log 10). -/
def Obligations.CallThatDoesNotFitIsRefused : Prop :=
  ∀ s : State, s.st ≠ .busy →
    ((decodeCommand s.cmd = .tobin ∨ decodeCommand s.cmd = .enc) ∧
        (∃ d, toBinary s.callText = .ok d ∧ s.caps.dig.fits d.length = false) ∨
      (decodeCommand s.cmd = .rldec ∨ decodeCommand s.cmd = .dec) ∧
        (∃ d, rlDecode s.callText = .ok d ∧ s.caps.dig.fits d.length = false) ∨
      decodeCommand s.cmd = .rlenc ∧ s.caps.cout.fits (rlEncode s.callDigits).length = false ∨
      decodeCommand s.cmd = .totxt ∧
        (∃ c, toText s.callDigits = .ok c ∧ s.caps.cout.fits c.length = false) ∨
      decodeCommand s.cmd = .enc ∧
        (∃ c, encodeText s.callText = .ok c ∧ s.caps.cout.fits c.length = false) ∨
      decodeCommand s.cmd = .dec ∧
        (∃ c, decodeText s.callText = .ok c ∧ s.caps.cout.fits c.length = false)) →
    ∃ n, stepN n s.calling = .refused .capacityExceeded

/-- R198: a DEC call whose input matches the grammar with a number of fillers that is no multiple of W ends with
InvalidLength; the same input to RLDEC succeeds with that number in DIG_LEN. Either call ends when DIG has room for
that number of digits (R7). -/
def Obligations.LengthValidation : Prop :=
  ∀ (s : State) (ts : List (Digit × Nat)), s.st ≠ .busy → ParsesAs s.callText ts →
    (ts.map Prod.snd).sum % Config.W ≠ 0 →
    (decodeCommand s.cmd = .dec → ∀ n t, CallEnds s n t → t.err = .invalidLength) ∧
    (decodeCommand s.cmd = .rldec → ∀ n t, CallEnds s n t → t.err = .none ∧ t.digLen = (ts.map Prod.snd).sum) ∧
    (decodeCommand s.cmd = .dec ∨ decodeCommand s.cmd = .rldec →
      s.caps.dig.fits (ts.map Prod.snd).sum = true → ∃ n t, CallEnds s n t)

/-- An RLDEC or DEC call whose input holds any character but `'0'` and space ends with MalformedCipher (R197); it ends
when DIG has the room of R192. -/
def Obligations.OtherCharactersAreRejected : Prop :=
  ∀ (s : State) (c : Code), s.st ≠ .busy → decodeCommand s.cmd = .rldec ∨ decodeCommand s.cmd = .dec →
    c ∈ s.callText → c ≠ 0x30#8 → c ≠ 0x20#8 →
    (∀ n t, CallEnds s n t → t.err = .malformedCipher) ∧
    (s.caps.dig.fits (s.cinLen - 2) = true → ∃ n t, CallEnds s n t)

/-- Every one of the six commands, given an input of length 0, ends with ERR = None and an output of length 0
(R194). -/
def Obligations.EmptyInputGivesEmptyOutput : Prop :=
  ∀ s : State, s.st ≠ .busy → (s.control.fe = true ∨ s.control.be = true) →
    (s.control.fe = true → s.cinLen = 0) → (s.control.fe = false → s.digLen = 0) →
    ∃ n t, n ≤ 3 ∧ CallEnds s n t ∧ t.err = .none ∧
      t.digLen = 0 ∧ t.coutLen = 0

/-- R37: the result of a call is a function of CMD, the input length and the input elements below it: two machines
that agree on these, and on nothing else, end the call with the same STATUS, lengths and output, and both end it in
buffers of the sizes of R192. (Where an
input element was never written its value is free, log 6; the statement is about inputs that were.) -/
def Obligations.ResultDependsOnTheInputAlone : Prop :=
  ∀ s t : State, s.st ≠ .busy → t.st ≠ .busy → SameInput s t →
    (∀ n m u v, CallEnds s n u → CallEnds t m v → SameResult u v) ∧
    (s.Room → t.Room → ∃ n u v, CallEnds s n u ∧ CallEnds t n v)

/-- ENC is TOBIN followed, if it succeeded, by RLENC on the digits it left: the same COUT, COUT_LEN and ERR; only
DIG_LEN differs (R98). All three calls end in buffers of the sizes that R192 gives ENC. -/
def Obligations.EncIsTobinThenRlenc : Prop :=
  ∀ s : State, s.st ≠ .busy → Memory.Written s.cin s.cinLen →
    (∀ n m t v, CallEnds { s with cmd := 0b010#3 } n t → CallEnds { s with cmd := 0b110#3 } m v →
      v.digLen = 0 ∧
      (t.err ≠ .none → v.err = t.err ∧ v.coutLen = 0) ∧
      (t.err = .none → ∀ k u, CallEnds { t with cmd := 0b100#3 } k u →
        u.err = v.err ∧ u.coutLen = v.coutLen ∧ u.digLen = t.digLen ∧
        ∀ a, a < u.coutLen → Memory.get? u.cout a = Memory.get? v.cout a)) ∧
    (({ s with cmd := 0b110#3 } : State).Room → ∃ n m t v,
      CallEnds { s with cmd := 0b010#3 } n t ∧ CallEnds { s with cmd := 0b110#3 } m v ∧
      (t.err = .none → ∃ k u, CallEnds { t with cmd := 0b100#3 } k u))

/-- DEC is RLDEC followed, if it succeeded, by TOTXT on the digits it left (R98). All three calls end in buffers of
the sizes that R192 gives DEC. -/
def Obligations.DecIsRldecThenTotxt : Prop :=
  ∀ s : State, s.st ≠ .busy → Memory.Written s.cin s.cinLen →
    (∀ n m t v, CallEnds { s with cmd := 0b011#3 } n t → CallEnds { s with cmd := 0b111#3 } m v →
      v.digLen = 0 ∧
      (t.err ≠ .none → v.err = t.err ∧ v.coutLen = 0) ∧
      (t.err = .none → ∀ k u, CallEnds { t with cmd := 0b101#3 } k u →
        u.err = v.err ∧ u.coutLen = v.coutLen ∧ u.digLen = t.digLen ∧
        ∀ a, a < u.coutLen → Memory.get? u.cout a = Memory.get? v.cout a)) ∧
    (({ s with cmd := 0b111#3 } : State).Room → ∃ n m t v,
      CallEnds { s with cmd := 0b011#3 } n t ∧ CallEnds { s with cmd := 0b111#3 } m v ∧
      (t.err = .none → ∃ k u, CallEnds { t with cmd := 0b101#3 } k u))

/-- R195, on the machine and at the function level: for a text of characters below 2^W, an ENC call, the host's
copy of COUT into CIN and COUT_LEN into CIN_LEN, and a DEC call give the text back, both calls without error, where
the buffers have room for the digits of the text and for its cipher (R7). -/
def Obligations.EncThenDecGivesTheTextBack : Prop :=
  (∀ (s : State) (text : List Code), s.st ≠ .busy → s.cinLen = text.length → Memory.Holds s.cin text →
    (∀ c ∈ text, c.toNat < 2 ^ Config.W) → s.caps.dig.fits (Config.W * text.length) = true →
    (∀ c, encodeText text = .ok c → s.caps.cout.fits c.length = true) →
    ∃ n t m u, CallEnds { s with cmd := 0b110#3 } n t ∧ t.err = .none ∧
      CallEnds { t with cin := t.cout, cinLen := t.coutLen, cmd := 0b111#3 } m u ∧ u.err = .none ∧
      u.coutLen = text.length ∧ Memory.Holds u.cout text) ∧
  ∀ text : List Code, (∀ c ∈ text, c.toNat < 2 ^ Config.W) →
    ∃ c, encodeText text = .ok c ∧ decodeText c = .ok text

/-- The host protocol of R252 for ENC and DEC: a host that writes a string, its length and the command, writes GO,
waits, and reads STATUS, COUT_LEN and that many elements of COUT, reads DONE without error, the length and the
characters of the function-level result; a host whose input is in error reads DONE with the kind and length 0. CIN
has room for the string, and the other buffers have the sizes of R192. -/
def Obligations.HostProtocolDeliversTheResult : Prop :=
  ∀ (s : State) (i : Instr) (text : List Code) (f : List Code → Except ErrKind (List Code)), s.st ≠ .busy →
    (i = .enc ∧ f = encodeText) ∨ (i = .dec ∧ f = decodeText) →
    s.caps.cin.fits text.length = true →
    ({ s with cmd := encodeCommand i, cinLen := text.length } : State).Room →
    (∀ c, f text = .ok c → s.pending = hostScript (encodeCommand i) text c.length →
      ∃ n t, stepN n s = .next t ∧ t.pending = [] ∧
        t.answers = s.answers ++ [.status 0b00010#5, .length c.length] ++ c.map .code) ∧
    (∀ e, f text = .error e → s.pending = hostScript (encodeCommand i) text 0 →
      ∃ n t, stepN n s = .next t ∧ t.pending = [] ∧
        t.answers = s.answers ++ [.status (e.code ++ 2#2), .length 0])

/-! ### The function level -/

/-- R86: the W-bit field: bit W-1-i of the code at index i, the value as the weighted sum of the digits, always
below 2^W, zero-extended to a character; every pattern of W digits is the field of its value. -/
def Obligations.FieldIsMostSignificantFirst : Prop :=
  (∀ c : Code, (field c).length = Config.W ∧
    ∀ i, i < Config.W → (field c)[i]? = some (c.getLsbD (Config.W - 1 - i))) ∧
  (∀ bit : Nat → Digit,
    groupValue bit = ∑ i ∈ Finset.range Config.W, (bit i).toNat * 2 ^ (Config.W - 1 - i) ∧
    groupValue bit < 2 ^ Config.W ∧ (codeOfValue (groupValue bit)).toNat = groupValue bit ∧
    field (codeOfValue (groupValue bit)) = (List.range Config.W).map bit)

/-- R110: the defining equations of `toBinary`, and the length of its result. -/
def Obligations.ToBinaryFollowsItsDefinition : Prop :=
  toBinary [] = .ok [] ∧
  (∀ (c : Code) (t : List Code) (d : List Digit), c.toNat < 2 ^ Config.W → toBinary t = .ok d →
    toBinary (c :: t) = .ok ([c.getLsbD 6, c.getLsbD 5, c.getLsbD 4, c.getLsbD 3, c.getLsbD 2, c.getLsbD 1,
      c.getLsbD 0] ++ d)) ∧
  (∀ t : List Code, (∃ c ∈ t, 2 ^ Config.W ≤ c.toNat) → toBinary t = .error .characterOutOfRange) ∧
  (∀ (t : List Code) (d : List Digit), toBinary t = .ok d → d.length = t.length * Config.W)

/-- R114: the defining equations of `toText`, the length test first, and the length of its result. -/
def Obligations.ToTextFollowsItsDefinition : Prop :=
  (∀ d : List Digit, d.length % Config.W ≠ 0 → toText d = .error .invalidLength) ∧
  toText [] = .ok [] ∧
  (∀ (g r : List Digit) (c : List Code), g.length = Config.W → toText r = .ok c →
    toText (g ++ r) = .ok (BitVec.ofNat Config.CW (∑ i ∈ Finset.range Config.W,
      (g.getD i false).toNat * 2 ^ (Config.W - 1 - i)) :: c)) ∧
  (∀ (d : List Digit) (c : List Code), toText d = .ok c → c.length = d.length / Config.W)

/-- `toBinary` and `toText` are mutually inverse on their domains (R120). -/
def Obligations.BitPackerRoundTrip : Prop :=
  (∀ t : List Code, (∀ c ∈ t, c.toNat < 2 ^ Config.W) → ∃ d, toBinary t = .ok d ∧ toText d = .ok t) ∧
  (∀ d : List Digit, d.length % Config.W = 0 → ∃ t, toText d = .ok t ∧ toBinary t = .ok d)

/-- R131: the runs of a digit sequence are its only partition into maximal blocks, and the digit-at-a-time encoder
gives exactly the tokens of the runs joined by single spaces. -/
def Obligations.EncoderEmitsOneTokenPerRun : Prop :=
  ∀ d : List Digit, rlEncode d = joinTokens (runs d) ∧ digitsOfTokens (runs d) = d ∧
    (∀ r ∈ runs d, 1 ≤ r.2) ∧ List.IsChain (fun a b : Digit × Nat => a.1 ≠ b.1) (runs d) ∧
    ∀ ts : List (Digit × Nat), (∀ r ∈ ts, 1 ≤ r.2) →
      List.IsChain (fun a b : Digit × Nat => a.1 ≠ b.1) ts → digitsOfTokens ts = d → ts = runs d

/-- The alphabet, the spacing, the length and the grammar of the encoder's output (R132). -/
def Obligations.EncoderOutputShape : Prop :=
  ∀ d : List Digit, d ≠ [] →
    (∀ c ∈ rlEncode d, c = 0x30#8 ∨ c = 0x20#8) ∧
    (rlEncode d).head? = some 0x30#8 ∧ (rlEncode d).getLast? = some 0x30#8 ∧
    List.IsChain (fun a b : Code => ¬(a = 0x20#8 ∧ b = 0x20#8)) (rlEncode d) ∧
    (rlEncode d).length = d.length + 2 * ((runs d).filter fun r => r.1).length +
      3 * ((runs d).filter fun r => !r.1).length + ((runs d).length - 1) ∧
    d.length + 2 ≤ (rlEncode d).length ∧ (rlEncode d).length ≤ 5 * d.length - 1 ∧
    ParsesAs (rlEncode d) (runs d)

/-- R150: `rlDecode` accepts the empty input, accepts exactly the texts of the grammar besides, gives the digits of
their unique parse, and answers MalformedCipher to every other input. -/
def Obligations.RlDecodeFollowsTheGrammar : Prop :=
  rlDecode [] = .ok [] ∧
  (∀ (c : List Code) (ts : List (Digit × Nat)), ParsesAs c ts → rlDecode c = .ok (digitsOfTokens ts) ∧
    (digitsOfTokens ts).length = (ts.map Prod.snd).sum) ∧
  (∀ c : List Code, c ≠ [] → (¬∃ ts, ParsesAs c ts) → rlDecode c = .error .malformedCipher) ∧
  (∀ (c : List Code) (ts us : List (Digit × Nat)), ParsesAs c ts → ParsesAs c us → ts = us)

/-- The block's six-state scanner accepts exactly what the grammar-based `rlDecode` accepts, with the same digits
(R158). -/
def Obligations.ScannerDecidesTheGrammar : Prop :=
  ∀ c : List Code,
    (∀ d, rlDecode c = .ok d ↔ ∃ ds tb, scanText .s0 false [] c = some (ds, tb, d) ∧ scanAccepts ds = true) ∧
    (rlDecode c = .error .malformedCipher ↔
      ∀ ds tb d, scanText .s0 false [] c = some (ds, tb, d) → scanAccepts ds = false)

/-- For every digit sequence, decoding its encoding gives it back; the converse holds for exactly the canonical
cipher texts, those the encoder emits (R196, R94). -/
def Obligations.RunLengthRoundTrip : Prop :=
  (∀ d : List Digit, rlDecode (rlEncode d) = .ok d) ∧
  (∃ (c : List Code) (d : List Digit), rlDecode c = .ok d ∧ rlEncode d ≠ c) ∧
  ∀ (c : List Code) (d : List Digit), rlDecode c = .ok d → (rlEncode d = c ↔ ∃ d', c = rlEncode d')

/-- The bounds a builder of a finite instance needs on decoded digits (R192). -/
def Obligations.DecodedDigitBound : Prop :=
  ∀ (c : List Code) (d : List Digit), rlDecode c = .ok d →
    (3 ≤ c.length → d.length ≤ c.length - 2) ∧ (c.length < 3 → d = [])
end

