-- ==== Sys2Proof/Laws/State.lean ====
section
/-! SUPPORT. One lemma per field per update of the state, so that no later proof unfolds a record update. -/

namespace Sys2Proof.Machine

open Sys2Proof

@[simp] theorem State.appendDig_cmd (s : State) (xs : List Digit) : (s.appendDig xs).cmd = s.cmd := rfl
@[simp] theorem State.appendDig_st (s : State) (xs : List Digit) : (s.appendDig xs).st = s.st := rfl
@[simp] theorem State.appendDig_err (s : State) (xs : List Digit) : (s.appendDig xs).err = s.err := rfl
@[simp] theorem State.appendDig_cinLen (s : State) (xs : List Digit) : (s.appendDig xs).cinLen = s.cinLen := rfl
@[simp] theorem State.appendDig_digLen (s : State) (xs : List Digit) : (s.appendDig xs).digLen = s.digLen + xs.length := rfl
@[simp] theorem State.appendDig_coutLen (s : State) (xs : List Digit) : (s.appendDig xs).coutLen = s.coutLen := rfl
@[simp] theorem State.appendDig_cin (s : State) (xs : List Digit) : (s.appendDig xs).cin = s.cin := rfl
@[simp] theorem State.appendDig_dig (s : State) (xs : List Digit) : (s.appendDig xs).dig = Memory.setSeq s.dig s.digLen xs := rfl
@[simp] theorem State.appendDig_cout (s : State) (xs : List Digit) : (s.appendDig xs).cout = s.cout := rfl
@[simp] theorem State.appendDig_ip (s : State) (xs : List Digit) : (s.appendDig xs).ip = s.ip := rfl
@[simp] theorem State.appendDig_stage (s : State) (xs : List Digit) : (s.appendDig xs).stage = s.stage := rfl
@[simp] theorem State.appendDig_prev (s : State) (xs : List Digit) : (s.appendDig xs).prev = s.prev := rfl
@[simp] theorem State.appendDig_ds (s : State) (xs : List Digit) : (s.appendDig xs).ds = s.ds := rfl
@[simp] theorem State.appendDig_tb (s : State) (xs : List Digit) : (s.appendDig xs).tb = s.tb := rfl
@[simp] theorem State.appendDig_pending (s : State) (xs : List Digit) : (s.appendDig xs).pending = s.pending := rfl
@[simp] theorem State.appendDig_answers (s : State) (xs : List Digit) : (s.appendDig xs).answers = s.answers := rfl
@[simp] theorem State.appendDig_calls (s : State) (xs : List Digit) : (s.appendDig xs).calls = s.calls := rfl
@[simp] theorem State.appendDig_caps (s : State) (xs : List Digit) : (s.appendDig xs).caps = s.caps := rfl

@[simp] theorem State.appendCout_cmd (s : State) (xs : List Code) : (s.appendCout xs).cmd = s.cmd := rfl
@[simp] theorem State.appendCout_st (s : State) (xs : List Code) : (s.appendCout xs).st = s.st := rfl
@[simp] theorem State.appendCout_err (s : State) (xs : List Code) : (s.appendCout xs).err = s.err := rfl
@[simp] theorem State.appendCout_cinLen (s : State) (xs : List Code) : (s.appendCout xs).cinLen = s.cinLen := rfl
@[simp] theorem State.appendCout_digLen (s : State) (xs : List Code) : (s.appendCout xs).digLen = s.digLen := rfl
@[simp] theorem State.appendCout_coutLen (s : State) (xs : List Code) : (s.appendCout xs).coutLen = s.coutLen + xs.length := rfl
@[simp] theorem State.appendCout_cin (s : State) (xs : List Code) : (s.appendCout xs).cin = s.cin := rfl
@[simp] theorem State.appendCout_dig (s : State) (xs : List Code) : (s.appendCout xs).dig = s.dig := rfl
@[simp] theorem State.appendCout_cout (s : State) (xs : List Code) : (s.appendCout xs).cout = Memory.setSeq s.cout s.coutLen xs := rfl
@[simp] theorem State.appendCout_ip (s : State) (xs : List Code) : (s.appendCout xs).ip = s.ip := rfl
@[simp] theorem State.appendCout_stage (s : State) (xs : List Code) : (s.appendCout xs).stage = s.stage := rfl
@[simp] theorem State.appendCout_prev (s : State) (xs : List Code) : (s.appendCout xs).prev = s.prev := rfl
@[simp] theorem State.appendCout_ds (s : State) (xs : List Code) : (s.appendCout xs).ds = s.ds := rfl
@[simp] theorem State.appendCout_tb (s : State) (xs : List Code) : (s.appendCout xs).tb = s.tb := rfl
@[simp] theorem State.appendCout_pending (s : State) (xs : List Code) : (s.appendCout xs).pending = s.pending := rfl
@[simp] theorem State.appendCout_answers (s : State) (xs : List Code) : (s.appendCout xs).answers = s.answers := rfl
@[simp] theorem State.appendCout_calls (s : State) (xs : List Code) : (s.appendCout xs).calls = s.calls := rfl
@[simp] theorem State.appendCout_caps (s : State) (xs : List Code) : (s.appendCout xs).caps = s.caps := rfl

@[simp] theorem State.advance_cmd (s : State) : s.advance.cmd = s.cmd := rfl
@[simp] theorem State.advance_st (s : State) : s.advance.st = s.st := rfl
@[simp] theorem State.advance_err (s : State) : s.advance.err = s.err := rfl
@[simp] theorem State.advance_cinLen (s : State) : s.advance.cinLen = s.cinLen := rfl
@[simp] theorem State.advance_digLen (s : State) : s.advance.digLen = s.digLen := rfl
@[simp] theorem State.advance_coutLen (s : State) : s.advance.coutLen = s.coutLen := rfl
@[simp] theorem State.advance_cin (s : State) : s.advance.cin = s.cin := rfl
@[simp] theorem State.advance_dig (s : State) : s.advance.dig = s.dig := rfl
@[simp] theorem State.advance_cout (s : State) : s.advance.cout = s.cout := rfl
@[simp] theorem State.advance_ip (s : State) : s.advance.ip = s.ip + 1 := rfl
@[simp] theorem State.advance_stage (s : State) : s.advance.stage = s.stage := rfl
@[simp] theorem State.advance_prev (s : State) : s.advance.prev = s.prev := rfl
@[simp] theorem State.advance_ds (s : State) : s.advance.ds = s.ds := rfl
@[simp] theorem State.advance_tb (s : State) : s.advance.tb = s.tb := rfl
@[simp] theorem State.advance_pending (s : State) : s.advance.pending = s.pending := rfl
@[simp] theorem State.advance_answers (s : State) : s.advance.answers = s.answers := rfl
@[simp] theorem State.advance_calls (s : State) : s.advance.calls = s.calls := rfl
@[simp] theorem State.advance_caps (s : State) : s.advance.caps = s.caps := rfl

@[simp] theorem State.fail_cmd (s : State) (c : Control) (e : ErrKind) : (s.fail c e).cmd = s.cmd := rfl
@[simp] theorem State.fail_st (s : State) (c : Control) (e : ErrKind) : (s.fail c e).st = .done := rfl
@[simp] theorem State.fail_err (s : State) (c : Control) (e : ErrKind) : (s.fail c e).err = e := rfl
@[simp] theorem State.fail_cinLen (s : State) (c : Control) (e : ErrKind) : (s.fail c e).cinLen = s.cinLen := rfl
@[simp] theorem State.fail_digLen (s : State) (c : Control) (e : ErrKind) : (s.fail c e).digLen = if c.fe then 0 else s.digLen := rfl
@[simp] theorem State.fail_coutLen (s : State) (c : Control) (e : ErrKind) : (s.fail c e).coutLen = 0 := rfl
@[simp] theorem State.fail_cin (s : State) (c : Control) (e : ErrKind) : (s.fail c e).cin = s.cin := rfl
@[simp] theorem State.fail_dig (s : State) (c : Control) (e : ErrKind) : (s.fail c e).dig = s.dig := rfl
@[simp] theorem State.fail_cout (s : State) (c : Control) (e : ErrKind) : (s.fail c e).cout = s.cout := rfl
@[simp] theorem State.fail_ip (s : State) (c : Control) (e : ErrKind) : (s.fail c e).ip = s.ip := rfl
@[simp] theorem State.fail_stage (s : State) (c : Control) (e : ErrKind) : (s.fail c e).stage = s.stage := rfl
@[simp] theorem State.fail_prev (s : State) (c : Control) (e : ErrKind) : (s.fail c e).prev = s.prev := rfl
@[simp] theorem State.fail_ds (s : State) (c : Control) (e : ErrKind) : (s.fail c e).ds = s.ds := rfl
@[simp] theorem State.fail_tb (s : State) (c : Control) (e : ErrKind) : (s.fail c e).tb = s.tb := rfl
@[simp] theorem State.fail_pending (s : State) (c : Control) (e : ErrKind) : (s.fail c e).pending = s.pending := rfl
@[simp] theorem State.fail_answers (s : State) (c : Control) (e : ErrKind) : (s.fail c e).answers = s.answers := rfl
@[simp] theorem State.fail_calls (s : State) (c : Control) (e : ErrKind) : (s.fail c e).calls = s.calls := rfl
@[simp] theorem State.fail_caps (s : State) (c : Control) (e : ErrKind) : (s.fail c e).caps = s.caps := rfl

@[simp] theorem State.finish_cmd (s : State) (c : Control) : (s.finish c).cmd = s.cmd := rfl
@[simp] theorem State.finish_st (s : State) (c : Control) : (s.finish c).st = .done := rfl
@[simp] theorem State.finish_err (s : State) (c : Control) : (s.finish c).err = s.err := rfl
@[simp] theorem State.finish_cinLen (s : State) (c : Control) : (s.finish c).cinLen = s.cinLen := rfl
@[simp] theorem State.finish_digLen (s : State) (c : Control) : (s.finish c).digLen = if c.fe && c.be then 0 else s.digLen := rfl
@[simp] theorem State.finish_coutLen (s : State) (c : Control) : (s.finish c).coutLen = s.coutLen := rfl
@[simp] theorem State.finish_cin (s : State) (c : Control) : (s.finish c).cin = s.cin := rfl
@[simp] theorem State.finish_dig (s : State) (c : Control) : (s.finish c).dig = s.dig := rfl
@[simp] theorem State.finish_cout (s : State) (c : Control) : (s.finish c).cout = s.cout := rfl
@[simp] theorem State.finish_ip (s : State) (c : Control) : (s.finish c).ip = s.ip := rfl
@[simp] theorem State.finish_stage (s : State) (c : Control) : (s.finish c).stage = s.stage := rfl
@[simp] theorem State.finish_prev (s : State) (c : Control) : (s.finish c).prev = s.prev := rfl
@[simp] theorem State.finish_ds (s : State) (c : Control) : (s.finish c).ds = s.ds := rfl
@[simp] theorem State.finish_tb (s : State) (c : Control) : (s.finish c).tb = s.tb := rfl
@[simp] theorem State.finish_pending (s : State) (c : Control) : (s.finish c).pending = s.pending := rfl
@[simp] theorem State.finish_answers (s : State) (c : Control) : (s.finish c).answers = s.answers := rfl
@[simp] theorem State.finish_calls (s : State) (c : Control) : (s.finish c).calls = s.calls := rfl
@[simp] theorem State.finish_caps (s : State) (c : Control) : (s.finish c).caps = s.caps := rfl

@[simp] theorem State.go_cmd (s : State) (c : Control) : (s.go c).cmd = s.cmd := rfl
@[simp] theorem State.go_st (s : State) (c : Control) : (s.go c).st = if !c.fe && !c.be then .done else .busy := rfl
@[simp] theorem State.go_err (s : State) (c : Control) : (s.go c).err = if !c.fe && !c.be then .illegalCommand else .none := rfl
@[simp] theorem State.go_cinLen (s : State) (c : Control) : (s.go c).cinLen = s.cinLen := rfl
@[simp] theorem State.go_digLen (s : State) (c : Control) : (s.go c).digLen = if c.fe then 0 else s.digLen := rfl
@[simp] theorem State.go_coutLen (s : State) (c : Control) : (s.go c).coutLen = 0 := rfl
@[simp] theorem State.go_cin (s : State) (c : Control) : (s.go c).cin = s.cin := rfl
@[simp] theorem State.go_dig (s : State) (c : Control) : (s.go c).dig = s.dig := rfl
@[simp] theorem State.go_cout (s : State) (c : Control) : (s.go c).cout = s.cout := rfl
@[simp] theorem State.go_ip (s : State) (c : Control) : (s.go c).ip = 0 := rfl
@[simp] theorem State.go_stage (s : State) (c : Control) : (s.go c).stage = if !c.fe && c.be then .back else .front := rfl
@[simp] theorem State.go_prev (s : State) (c : Control) : (s.go c).prev = false := rfl
@[simp] theorem State.go_ds (s : State) (c : Control) : (s.go c).ds = .s0 := rfl
@[simp] theorem State.go_tb (s : State) (c : Control) : (s.go c).tb = false := rfl
@[simp] theorem State.go_pending (s : State) (c : Control) : (s.go c).pending = s.pending := rfl
@[simp] theorem State.go_answers (s : State) (c : Control) : (s.go c).answers = s.answers := rfl
@[simp] theorem State.go_calls (s : State) (c : Control) : (s.go c).calls = s.calls + 1 := rfl
@[simp] theorem State.go_caps (s : State) (c : Control) : (s.go c).caps = s.caps := rfl

@[simp] theorem State.answer_cmd (s : State) (v : HostValue) : (s.answer v).cmd = s.cmd := rfl
@[simp] theorem State.answer_st (s : State) (v : HostValue) : (s.answer v).st = s.st := rfl
@[simp] theorem State.answer_err (s : State) (v : HostValue) : (s.answer v).err = s.err := rfl
@[simp] theorem State.answer_cinLen (s : State) (v : HostValue) : (s.answer v).cinLen = s.cinLen := rfl
@[simp] theorem State.answer_digLen (s : State) (v : HostValue) : (s.answer v).digLen = s.digLen := rfl
@[simp] theorem State.answer_coutLen (s : State) (v : HostValue) : (s.answer v).coutLen = s.coutLen := rfl
@[simp] theorem State.answer_cin (s : State) (v : HostValue) : (s.answer v).cin = s.cin := rfl
@[simp] theorem State.answer_dig (s : State) (v : HostValue) : (s.answer v).dig = s.dig := rfl
@[simp] theorem State.answer_cout (s : State) (v : HostValue) : (s.answer v).cout = s.cout := rfl
@[simp] theorem State.answer_ip (s : State) (v : HostValue) : (s.answer v).ip = s.ip := rfl
@[simp] theorem State.answer_stage (s : State) (v : HostValue) : (s.answer v).stage = s.stage := rfl
@[simp] theorem State.answer_prev (s : State) (v : HostValue) : (s.answer v).prev = s.prev := rfl
@[simp] theorem State.answer_ds (s : State) (v : HostValue) : (s.answer v).ds = s.ds := rfl
@[simp] theorem State.answer_tb (s : State) (v : HostValue) : (s.answer v).tb = s.tb := rfl
@[simp] theorem State.answer_pending (s : State) (v : HostValue) : (s.answer v).pending = s.pending := rfl
@[simp] theorem State.answer_answers (s : State) (v : HostValue) : (s.answer v).answers = s.answers ++ [v] := rfl
@[simp] theorem State.answer_calls (s : State) (v : HostValue) : (s.answer v).calls = s.calls := rfl
@[simp] theorem State.answer_caps (s : State) (v : HostValue) : (s.answer v).caps = s.caps := rfl

@[simp] theorem State.calling_cmd (s : State) : s.calling.cmd = s.cmd := rfl
@[simp] theorem State.calling_st (s : State) : s.calling.st = s.st := rfl
@[simp] theorem State.calling_err (s : State) : s.calling.err = s.err := rfl
@[simp] theorem State.calling_cinLen (s : State) : s.calling.cinLen = s.cinLen := rfl
@[simp] theorem State.calling_digLen (s : State) : s.calling.digLen = s.digLen := rfl
@[simp] theorem State.calling_coutLen (s : State) : s.calling.coutLen = s.coutLen := rfl
@[simp] theorem State.calling_cin (s : State) : s.calling.cin = s.cin := rfl
@[simp] theorem State.calling_dig (s : State) : s.calling.dig = s.dig := rfl
@[simp] theorem State.calling_cout (s : State) : s.calling.cout = s.cout := rfl
@[simp] theorem State.calling_ip (s : State) : s.calling.ip = s.ip := rfl
@[simp] theorem State.calling_stage (s : State) : s.calling.stage = s.stage := rfl
@[simp] theorem State.calling_prev (s : State) : s.calling.prev = s.prev := rfl
@[simp] theorem State.calling_ds (s : State) : s.calling.ds = s.ds := rfl
@[simp] theorem State.calling_tb (s : State) : s.calling.tb = s.tb := rfl
@[simp] theorem State.calling_pending (s : State) : s.calling.pending = [.writeCtrl 1#1] := rfl
@[simp] theorem State.calling_answers (s : State) : s.calling.answers = s.answers := rfl
@[simp] theorem State.calling_calls (s : State) : s.calling.calls = s.calls := rfl
@[simp] theorem State.calling_caps (s : State) : s.calling.caps = s.caps := rfl

@[simp] theorem State.frontDone_cmd (s : State) (c : Control) : (s.frontDone c).cmd = s.cmd := by
  unfold State.frontDone; split <;> rfl
@[simp] theorem State.frontDone_err (s : State) (c : Control) : (s.frontDone c).err = s.err := by
  unfold State.frontDone; split <;> rfl
@[simp] theorem State.frontDone_cinLen (s : State) (c : Control) : (s.frontDone c).cinLen = s.cinLen := by
  unfold State.frontDone; split <;> rfl
@[simp] theorem State.frontDone_coutLen (s : State) (c : Control) : (s.frontDone c).coutLen = s.coutLen := by
  unfold State.frontDone; split <;> rfl
@[simp] theorem State.frontDone_cin (s : State) (c : Control) : (s.frontDone c).cin = s.cin := by
  unfold State.frontDone; split <;> rfl
@[simp] theorem State.frontDone_dig (s : State) (c : Control) : (s.frontDone c).dig = s.dig := by
  unfold State.frontDone; split <;> rfl
@[simp] theorem State.frontDone_cout (s : State) (c : Control) : (s.frontDone c).cout = s.cout := by
  unfold State.frontDone; split <;> rfl
@[simp] theorem State.frontDone_prev (s : State) (c : Control) : (s.frontDone c).prev = s.prev := by
  unfold State.frontDone; split <;> rfl
@[simp] theorem State.frontDone_ds (s : State) (c : Control) : (s.frontDone c).ds = s.ds := by
  unfold State.frontDone; split <;> rfl
@[simp] theorem State.frontDone_tb (s : State) (c : Control) : (s.frontDone c).tb = s.tb := by
  unfold State.frontDone; split <;> rfl
@[simp] theorem State.frontDone_pending (s : State) (c : Control) : (s.frontDone c).pending = s.pending := by
  unfold State.frontDone; split <;> rfl
@[simp] theorem State.frontDone_answers (s : State) (c : Control) : (s.frontDone c).answers = s.answers := by
  unfold State.frontDone; split <;> rfl
@[simp] theorem State.frontDone_calls (s : State) (c : Control) : (s.frontDone c).calls = s.calls := by
  unfold State.frontDone; split <;> rfl
@[simp] theorem State.frontDone_caps (s : State) (c : Control) : (s.frontDone c).caps = s.caps := by
  unfold State.frontDone; split <;> rfl

/-- FrontDone with a back end to run. -/
theorem State.frontDone_be (s : State) (c : Control) (h : c.be = true) :
    s.frontDone c = { s with stage := .back, ip := 0 } := by
  simp [State.frontDone, h]

/-- FrontDone with none: the call finishes with its digits kept. -/
theorem State.frontDone_not_be (s : State) (c : Control) (h : c.be = false) :
    s.frontDone c = { s with st := .done } := by
  simp [State.frontDone, State.finish, h]

/-- The action of a scanner cell changes only `tb` and DIG. -/
theorem State.scanAct_eq (s : State) (a : ScanAction) :
    s.scanAct a = { s with
      tb := (match a with | .setTb b => b | _ => s.tb)
      dig := (match a with | .appendTb => Memory.set s.dig s.digLen s.tb | _ => s.dig)
      digLen := (match a with | .appendTb => s.digLen + 1 | _ => s.digLen) } := by
  cases a <;> rfl

end Sys2Proof.Machine
end

