-- ==== Sys2Proof/Laws/Memory.lean ====
section
/-! SUPPORT. The laws of buffers: a read after a write, a write elsewhere, the canonical form is kept, and the same
for consecutive writes. -/

namespace Sys2Proof.Machine

open Sys2Proof

variable {α : Type}

@[simp] theorem Memory.get?_nil (i : Nat) : Memory.get? ([] : Memory α) i = none := rfl

@[simp] theorem Memory.get?_set_self (m : Memory α) (i : Nat) (v : α) :
    Memory.get? (Memory.set m i v) i = some v := by
  induction m with
  | nil => simp [Memory.set, Memory.get?]
  | cons p m ih =>
    obtain ⟨a, w⟩ := p
    unfold Memory.set
    split
    · simp [Memory.get?]
    · split
      · simp [Memory.get?]
      · simp [Memory.get?, *]

theorem Memory.get?_set_other (m : Memory α) (i j : Nat) (v : α) (h : j ≠ i) :
    Memory.get? (Memory.set m i v) j = Memory.get? m j := by
  induction m with
  | nil => simp [Memory.set, Memory.get?, h]
  | cons p m ih =>
    obtain ⟨a, w⟩ := p
    unfold Memory.set
    split
    · simp [Memory.get?, h]
    · split
      · subst_vars; simp [Memory.get?, h]
      · simp [Memory.get?, ih]

theorem Memory.get?_set (m : Memory α) (i j : Nat) (v : α) :
    Memory.get? (Memory.set m i v) j = if j = i then some v else Memory.get? m j := by
  by_cases h : j = i
  · subst h; simp
  · simp [h, Memory.get?_set_other]

/-- A buffer whose indices all lie above `a`, in front of which `a` can stand. -/
theorem Memory.wf_cons (a : Nat) (v : α) (m : Memory α) :
    Memory.wf ((a, v) :: m) = true ↔ (∀ p ∈ m.head?, a < p.1) ∧ Memory.wf m = true := by
  cases m with
  | nil => simp [Memory.wf]
  | cons p m => obtain ⟨b, w⟩ := p; simp [Memory.wf]

theorem Memory.head?_set_lt (m : Memory α) (a i : Nat) (v : α) (hi : a < i)
    (h : ∀ p ∈ m.head?, a < p.1) : ∀ p ∈ (Memory.set m i v).head?, a < p.1 := by
  cases m with
  | nil => simp [Memory.set, hi]
  | cons p m =>
    obtain ⟨b, w⟩ := p
    simp only [List.head?_cons, Option.mem_def, Option.some.injEq, forall_eq'] at h
    unfold Memory.set
    split
    · simp [hi]
    · split <;> simp [hi, h]

/-- A write keeps the canonical form. -/
theorem Memory.wf_set (m : Memory α) (i : Nat) (v : α) (h : Memory.wf m = true) :
    Memory.wf (Memory.set m i v) = true := by
  induction m with
  | nil => rfl
  | cons p m ih =>
    obtain ⟨a, w⟩ := p
    have h' := (Memory.wf_cons a w m).1 h
    unfold Memory.set
    split
    · rw [Memory.wf_cons]; exact ⟨by simpa using ‹i < a›, h⟩
    · split
      · subst_vars; rw [Memory.wf_cons]; exact h'
      · rw [Memory.wf_cons]
        exact ⟨Memory.head?_set_lt m a i v (by omega) h'.1, ih h'.2⟩

/-- Consecutive writes keep the canonical form. -/
theorem Memory.wf_setSeq (m : Memory α) (i : Nat) (vs : List α) (h : Memory.wf m = true) :
    Memory.wf (Memory.setSeq m i vs) = true := by
  induction vs generalizing m i with
  | nil => exact h
  | cons v vs ih => exact ih _ _ (Memory.wf_set m i v h)

theorem Memory.get?_setSeq_lt (m : Memory α) (i j : Nat) (vs : List α) (h : j < i) :
    Memory.get? (Memory.setSeq m i vs) j = Memory.get? m j := by
  induction vs generalizing m i with
  | nil => rfl
  | cons v vs ih =>
    rw [Memory.setSeq, ih _ _ (by omega), Memory.get?_set_other _ _ _ _ (by omega)]

theorem Memory.get?_setSeq_ge (m : Memory α) (i j : Nat) (vs : List α) (h : i + vs.length ≤ j) :
    Memory.get? (Memory.setSeq m i vs) j = Memory.get? m j := by
  induction vs generalizing m i with
  | nil => rfl
  | cons v vs ih =>
    simp only [List.length_cons] at h
    rw [Memory.setSeq, ih _ _ (by omega), Memory.get?_set_other _ _ _ _ (by omega)]

theorem Memory.get?_setSeq_at (m : Memory α) (i k : Nat) (vs : List α) (h : k < vs.length) :
    Memory.get? (Memory.setSeq m i vs) (i + k) = vs[k]? := by
  induction vs generalizing m i k with
  | nil => simp at h
  | cons v vs ih =>
    cases k with
    | zero => rw [Memory.setSeq, Nat.add_zero, Memory.get?_setSeq_lt _ _ _ _ (by omega)]; simp
    | succ k =>
      have := ih (Memory.set m i v) (i + 1) k (by simpa using h)
      rw [Memory.setSeq, show i + (k + 1) = i + 1 + k by omega, this]; simp

/-- Appending after what a buffer holds. -/
theorem Memory.Holds.append {m : Memory α} {xs : List α} (h : Memory.Holds m xs) (ys : List α) :
    Memory.Holds (Memory.setSeq m xs.length ys) (xs ++ ys) := by
  intro i hi
  by_cases hx : i < xs.length
  · rw [Memory.get?_setSeq_lt _ _ _ _ hx, h i hx, List.getElem?_append_left hx]
  · simp only [List.length_append] at hi
    obtain ⟨k, rfl⟩ : ∃ k, i = xs.length + k := ⟨i - xs.length, by omega⟩
    rw [Memory.get?_setSeq_at _ _ _ _ (by omega), List.getElem?_append_right (by omega)]
    simp

/-- A buffer that holds a sequence has been written below its length. -/
theorem Memory.Holds.written {m : Memory α} {xs : List α} (h : Memory.Holds m xs) :
    Memory.Written m xs.length := by
  intro i hi
  rw [h i hi, List.getElem?_eq_getElem hi]; rfl

theorem Memory.holds_nil (m : Memory α) : Memory.Holds m [] := by
  intro i hi; simp at hi

theorem Memory.written_zero (m : Memory α) : Memory.Written m 0 := by
  intro i hi; omega

/-- Appending keeps a buffer written below its length. -/
theorem Memory.Written.append {m : Memory α} {len : Nat} (h : Memory.Written m len) (ys : List α) :
    Memory.Written (Memory.setSeq m len ys) (len + ys.length) := by
  intro i hi
  by_cases hx : i < len
  · rw [Memory.get?_setSeq_lt _ _ _ _ hx]; exact h i hx
  · obtain ⟨k, rfl⟩ : ∃ k, i = len + k := ⟨i - len, by omega⟩
    rw [Memory.get?_setSeq_at _ _ _ _ (by omega), List.getElem?_eq_getElem (by omega)]; rfl

end Sys2Proof.Machine
end

