-- ==== Sys2Proof/Laws/Steps.lean ====
section
/-! SUPPORT. What a transition can do, said once: exec in terms of the one call mechanism, each block step by its
cases, every block step by its shape (consume one element, FrontDone, Finish, Fail), and a step of the machine by
whose turn it is. -/

namespace Sys2Proof.Machine

open Sys2Proof

@[simp] theorem Capacity.fits_none (n : Nat) : Capacity.fits none n = true := rfl

@[simp] theorem Capacity.fits_zero (c : Capacity) : c.fits 0 = true := by
  cases c <;> simp [Capacity.fits]

/-- What fits leaves room for anything shorter. -/
theorem Capacity.fits_mono {c : Capacity} {m n : Nat} (h : c.fits n = true) (hmn : m ≤ n) : c.fits m = true := by
  cases c with
  | none => rfl
  | some k => simp only [Capacity.fits, decide_eq_true_eq] at h ⊢; omega

theorem State.roomFor_iff (s t : State) : s.roomFor t = true ↔
    (t.digLen ≤ s.digLen ∨ s.caps.dig.fits t.digLen = true) ∧
    (t.coutLen ≤ s.coutLen ∨ s.caps.cout.fits t.coutLen = true) := by
  simp [State.roomFor]

/-- A transition that leaves no buffer longer has room. -/
theorem State.roomFor_of_le {s t : State} (hd : t.digLen ≤ s.digLen) (hc : t.coutLen ≤ s.coutLen) :
    s.roomFor t = true := (State.roomFor_iff s t).2 ⟨.inl hd, .inl hc⟩

theorem State.commit_of_room {s t : State} (h : s.roomFor t = true) : s.commit t = .next t := by
  simp [State.commit, h]

theorem State.commit_of_no_room {s t : State} (h : s.roomFor t = false) :
    s.commit t = .refused .capacityExceeded := by
  simp [State.commit, h]

/-- A transition that leaves no buffer longer is never refused. -/
theorem State.commit_of_le {s t : State} (hd : t.digLen ≤ s.digLen) (hc : t.coutLen ≤ s.coutLen) :
    s.commit t = .next t := State.commit_of_room (State.roomFor_of_le hd hc)

/-- A transition is refused for want of room only. -/
theorem State.commit_refused {s t : State} {r : Refusal} :
    s.commit t = .refused r ↔ r = .capacityExceeded ∧ s.roomFor t = false := by
  cases h : s.roomFor t <;> simp [State.commit, h, eq_comm]

theorem State.commit_next {s t u : State} : s.commit t = .next u ↔ u = t ∧ s.roomFor t = true := by
  cases h : s.roomFor t with
  | false => simp [State.commit, h]
  | true => simp [State.commit, h, eq_comm]

/-- Every command runs its control bits through the one call mechanism. -/
theorem exec_eq (i : Instr) (s : State) : exec i s = s.commit (runCommand i.control s) := by
  cases i <;> rfl

theorem exec_of_busy (i : Instr) (s : State) (h : s.st = .busy) :
    exec i s = s.commit (blockStep i.control s) := by
  simp [exec_eq, runCommand, h]

/-- A GO is never refused: it leaves no buffer longer. -/
theorem exec_of_not_busy (i : Instr) (s : State) (h : s.st ≠ .busy) :
    exec i s = .next (s.go i.control) := by
  rw [exec_eq, runCommand, if_neg h, State.commit_of_le]
  · rw [State.go_digLen]; split <;> omega
  · exact Nat.zero_le _

/-- A host write that answers a next state was made between calls and fits. -/
theorem hostWrite_next {s t u : State} {f : Bool} :
    hostWrite s f t = .next u ↔ s.st ≠ .busy ∧ f = true ∧ u = t := by
  by_cases hb : s.st = .busy
  · simp [hostWrite, hb]
  · cases f <;> simp [hostWrite, hb, eq_comm]

theorem blockStep_front_encode (c : Control) (s : State) (hs : s.stage = .front) (hd : c.dir = false) :
    blockStep c s = tobinStep c s := by
  simp [blockStep, hs, hd]

theorem blockStep_front_decode (c : Control) (s : State) (hs : s.stage = .front) (hd : c.dir = true) :
    blockStep c s = rldecStep c s := by
  simp [blockStep, hs, hd]

theorem blockStep_back_encode (c : Control) (s : State) (hs : s.stage = .back) (hd : c.dir = false) :
    blockStep c s = rlencStep c s := by
  simp [blockStep, hs, hd]

theorem blockStep_back_decode (c : Control) (s : State) (hs : s.stage = .back) (hd : c.dir = true) :
    blockStep c s = totxtStep c s := by
  simp [blockStep, hs, hd]

/-- The TOBIN step consumes a character, raises, or is FrontDone. -/
theorem tobinStep_cases (c : Control) (s : State) :
    (s.ip < s.cinLen ∧ inRange (s.cinAt s.ip) = true ∧
      tobinStep c s = (s.appendDig (field (s.cinAt s.ip))).advance) ∨
    (s.ip < s.cinLen ∧ inRange (s.cinAt s.ip) = false ∧ tobinStep c s = s.fail c .characterOutOfRange) ∨
    (s.cinLen ≤ s.ip ∧ tobinStep c s = s.frontDone c) := by
  unfold tobinStep
  by_cases h : s.ip < s.cinLen
  · cases hr : inRange (s.cinAt s.ip) <;> simp [h]
  · simp [h]; omega

/-- The TOTXT step raises, finishes, or consumes a group. -/
theorem totxtStep_cases (c : Control) (s : State) :
    ((s.ip = 0 ∧ s.digLen % Config.W ≠ 0) ∧ totxtStep c s = s.fail c .invalidLength) ∨
    (¬(s.ip = 0 ∧ s.digLen % Config.W ≠ 0) ∧ s.ip * Config.W = s.digLen ∧ totxtStep c s = s.finish c) ∨
    (¬(s.ip = 0 ∧ s.digLen % Config.W ≠ 0) ∧ s.ip * Config.W ≠ s.digLen ∧ totxtStep c s =
      (s.appendCout [codeOfValue (groupValue fun i => s.digAt (s.ip * Config.W + i))]).advance) := by
  unfold totxtStep
  by_cases h : s.ip = 0 ∧ s.digLen % Config.W ≠ 0
  · exact .inl ⟨h, if_pos h⟩
  · by_cases h2 : s.ip * Config.W = s.digLen
    · exact .inr (.inl ⟨h, h2, by rw [if_neg h, if_pos h2]⟩)
    · exact .inr (.inr ⟨h, h2, by rw [if_neg h, if_neg h2]⟩)

/-- What the RLENC step emits for the digit under the cursor. -/
def State.emitted (s : State) : List Code :=
  if s.ip = 0 then firstEmit (s.digAt s.ip) else nextEmit s.prev (s.digAt s.ip)

/-- The RLENC step consumes a digit or finishes. -/
theorem rlencStep_cases (c : Control) (s : State) :
    (s.ip < s.digLen ∧ rlencStep c s =
      { (s.appendCout s.emitted).advance with prev := s.digAt s.ip }) ∨
    (s.digLen ≤ s.ip ∧ rlencStep c s = s.finish c) := by
  unfold rlencStep
  by_cases h : s.ip < s.digLen
  · exact .inl ⟨h, by rw [if_pos h]; rfl⟩
  · exact .inr ⟨by omega, by rw [if_neg h]⟩

/-- The RLDEC step consumes a character, raises, or is FrontDone. -/
theorem rldecStep_cases (c : Control) (s : State) :
    (s.ip < s.cinLen ∧ ∃ ds' a, scanCell s.ds (classify (s.cinAt s.ip)) = some (ds', a) ∧
      rldecStep c s = { (s.scanAct a).advance with ds := ds' }) ∨
    (s.ip < s.cinLen ∧ scanCell s.ds (classify (s.cinAt s.ip)) = none ∧
      rldecStep c s = s.fail c .malformedCipher) ∨
    (s.cinLen ≤ s.ip ∧ scanAccepts s.ds = true ∧ rldecStep c s = s.frontDone c) ∨
    (s.cinLen ≤ s.ip ∧ scanAccepts s.ds = false ∧ rldecStep c s = s.fail c .malformedCipher) := by
  unfold rldecStep
  by_cases h : s.ip < s.cinLen
  · cases hc : scanCell s.ds (classify (s.cinAt s.ip)) with
    | none => simp [h]
    | some p => obtain ⟨ds', a⟩ := p; simp [h]
  · cases ha : scanAccepts s.ds <;> simp [h] <;> omega

theorem State.emitted_length_le (s : State) : s.emitted.length ≤ 5 := by
  unfold State.emitted
  cases s.digAt s.ip <;> cases s.prev <;> split <;> simp [firstEmit, nextEmit]

theorem State.frontDone_lengths_le (s : State) (c : Control) :
    (s.frontDone c).digLen ≤ s.digLen ∧ (s.frontDone c).coutLen ≤ s.coutLen := by
  unfold State.frontDone
  cases hb : c.be
  · simp only [Bool.false_eq_true, if_false, State.finish_digLen, State.finish_coutLen]
    constructor
    · split <;> omega
    · omega
  · simp

/-- No block step appends more than W digits or five characters. -/
theorem blockStep_lengths_le (c : Control) (s : State) :
    (blockStep c s).digLen ≤ s.digLen + Config.W ∧ (blockStep c s).coutLen ≤ s.coutLen + 5 := by
  have hf := s.frontDone_lengths_le c
  unfold blockStep
  cases s.stage <;> cases c.dir <;> simp only
  · rcases tobinStep_cases c s with ⟨_, _, e⟩ | ⟨_, _, e⟩ | ⟨_, e⟩ <;> rw [e]
    · simp [field]
    · simp; split <;> omega
    · omega
  · rcases rldecStep_cases c s with ⟨_, _, a, _, e⟩ | ⟨_, _, e⟩ | ⟨_, _, e⟩ | ⟨_, _, e⟩ <;> rw [e]
    · cases a <;> simp [State.scanAct]
    · simp; split <;> omega
    · omega
    · simp; split <;> omega
  · rcases rlencStep_cases c s with ⟨_, e⟩ | ⟨_, e⟩ <;> rw [e]
    · simpa using s.emitted_length_le
    · simp; split <;> omega
  · rcases totxtStep_cases c s with ⟨_, e⟩ | ⟨_, _, e⟩ | ⟨_, _, e⟩ <;> rw [e] <;> simp <;> split <;> omega

/-- A command's transition changes no capacity, and does not depend on one. -/
theorem runCommand_withCaps (c : Control) (s : State) (k : Capacities) :
    runCommand c { s with caps := k } = { runCommand c s with caps := k } := by
  obtain ⟨cmd, st, err, cinLen, digLen, coutLen, cin, dig, cout, ip, stage, prev, ds, tb, pending, answers, calls,
    caps⟩ := s
  obtain ⟨be, fe, dir⟩ := c
  unfold runCommand
  by_cases hb : st = .busy
  · simp only [if_pos hb]
    unfold blockStep
    cases stage <;> cases dir <;> simp only
    · unfold tobinStep State.frontDone
      simp only [State.cinAt]
      by_cases h : ip < cinLen
      · simp only [if_pos h]
        by_cases hr : inRange ((Memory.get? cin ip).getD (Config.freeCode calls ip)) = true
        · simp [hr, State.appendDig, State.advance]
        · simp [hr, State.fail]
      · simp only [if_neg h]; cases be <;> rfl
    · unfold rldecStep State.frontDone
      simp only [State.cinAt]
      by_cases h : ip < cinLen
      · simp only [if_pos h]
        cases scanCell ds (classify ((Memory.get? cin ip).getD (Config.freeCode calls ip))) with
        | none => rfl
        | some x => obtain ⟨_, a⟩ := x; cases a <;> rfl
      · simp only [if_neg h]
        cases scanAccepts ds
        · rfl
        · cases be <;> rfl
    · unfold rlencStep
      simp only [State.digAt]
      by_cases h : ip < digLen
      · simp only [if_pos h]; rfl
      · simp only [if_neg h]; rfl
    · unfold totxtStep
      simp only [State.digAt]
      by_cases h : ip = 0 ∧ digLen % Config.W ≠ 0
      · simp only [if_pos h]; rfl
      · by_cases h2 : ip * Config.W = digLen
        · simp only [if_neg h, if_pos h2]; rfl
        · simp only [if_neg h, if_neg h2]; rfl
  · simp only [if_neg hb]; rfl

/-- A step with a pending move performs it. -/
theorem step_cons (s : State) (m : HostMove) (rest : List HostMove) (h : s.pending = m :: rest) :
    step s = hostMove m { s with pending := rest } := by
  simp [step, turn, h]

/-- A step with no pending move is the block's turn. -/
theorem step_nil (s : State) (h : s.pending = []) : step s = blockTurn s := by
  simp [step, turn, h]

theorem blockTurn_of_busy (s : State) (h : s.st = .busy) :
    blockTurn s = s.commit (blockStep s.control s) := by
  simp [blockTurn, h, runCmd, exec_of_busy, State.control]

theorem blockTurn_of_not_busy (s : State) (h : s.st ≠ .busy) : blockTurn s = .next s := by
  simp [blockTurn, h]

/-- What a step that answers a next state can have done: a block step, a GO, a change of the host's own fields
alone, one of the host writes between calls, or a platform reset; `m` is the move at the head of `pending`. -/
inductive StepShape (m : Option HostMove) (s t : State) : Prop where
  | block (busy : s.st = .busy) (p : List HostMove) (eq : t = blockStep s.control { s with pending := p })
      (room : s.roomFor t = true)
  | go (free : s.st ≠ .busy) (v : BitVec 1) (head : m = some (.writeCtrl v)) (hv : v.getLsbD 0 = true)
      (p : List HostMove) (eq : t = ({ s with pending := p } : State).go s.control)
  | host (p : List HostMove) (a : List HostValue) (eq : t = { s with pending := p, answers := a })
  | cmd (free : s.st ≠ .busy) (p : List HostMove) (v : CommandWord) (eq : t = { s with pending := p, cmd := v })
  | cinLen (free : s.st ≠ .busy) (p : List HostMove) (n : Nat) (eq : t = { s with pending := p, cinLen := n })
      (fits : s.caps.cin.fits n = true)
  | digLen (free : s.st ≠ .busy) (p : List HostMove) (n : Nat) (eq : t = { s with pending := p, digLen := n })
      (fits : s.caps.dig.fits n = true)
  | cin (free : s.st ≠ .busy) (p : List HostMove) (i : Nat) (c : Code)
      (eq : t = { s with pending := p, cin := Memory.set s.cin i c })
  | dig (free : s.st ≠ .busy) (p : List HostMove) (i : Nat) (d : Digit)
      (eq : t = { s with pending := p, dig := Memory.set s.dig i d })
  | reset (head : m = some .platformReset) (p : List HostMove) (eq : t = ({ s with pending := p } : State).platformReset)

/-- A move that answers a next state has one of the shapes. -/
theorem hostMove_shape (m : HostMove) (s t : State) (h : hostMove m s = .next t) :
    StepShape (some m) s t := by
  by_cases hb : s.st = .busy
  · cases m with
    | readReg r =>
      simp only [hostMove, hb, true_and] at h
      split at h
      · cases h
      · cases h; exact .host s.pending _ rfl
    | readCin i => cases h; exact .host s.pending _ rfl
    | awaitNotBusy =>
      simp only [hostMove, if_pos hb, runCmd] at h
      rw [exec_of_busy _ { s with pending := .awaitNotBusy :: s.pending } hb] at h
      obtain ⟨rfl, hr⟩ := State.commit_next.1 h
      exact .block hb (.awaitNotBusy :: s.pending) rfl hr
    | blockTurn =>
      rw [hostMove, blockTurn_of_busy s hb] at h
      obtain ⟨rfl, hr⟩ := State.commit_next.1 h
      exact .block hb s.pending rfl hr
    | platformReset => cases h; exact .reset rfl s.pending rfl
    | writeCmd | writeCtrl | writeCinLen | writeDigLen | writeCin | writeDig | readDig | readCout =>
      simp [hostMove, hostWrite, hb] at h
  · cases m with
    | writeCmd v =>
      obtain ⟨_, _, rfl⟩ := hostWrite_next.1 h
      exact .cmd hb s.pending v rfl
    | writeCtrl v =>
      simp only [hostMove, hb, if_false] at h
      split at h
      · rename_i hv
        rw [runCmd, exec_of_not_busy _ _ hb] at h
        cases h; exact .go hb v rfl hv s.pending rfl
      · cases h; exact .host s.pending s.answers rfl
    | writeCinLen n =>
      obtain ⟨_, hf, rfl⟩ := hostWrite_next.1 h
      exact .cinLen hb s.pending n rfl hf
    | writeDigLen n =>
      obtain ⟨_, hf, rfl⟩ := hostWrite_next.1 h
      exact .digLen hb s.pending n rfl hf
    | writeCin i c =>
      obtain ⟨_, _, rfl⟩ := hostWrite_next.1 h
      exact .cin hb s.pending i c rfl
    | writeDig i d =>
      obtain ⟨_, _, rfl⟩ := hostWrite_next.1 h
      exact .dig hb s.pending i d rfl
    | readReg r =>
      simp only [hostMove, hb, false_and, if_false] at h
      cases h; exact .host s.pending _ rfl
    | readCin i => cases h; exact .host s.pending _ rfl
    | readDig i =>
      simp only [hostMove, hb, if_false] at h
      cases h; exact .host s.pending _ rfl
    | readCout i =>
      simp only [hostMove, hb, if_false] at h
      cases h; exact .host s.pending _ rfl
    | awaitNotBusy =>
      simp only [hostMove, hb, if_false] at h
      cases h; exact .host s.pending s.answers rfl
    | blockTurn =>
      rw [hostMove, blockTurn_of_not_busy s hb] at h
      cases h; exact .host s.pending s.answers rfl
    | platformReset => cases h; exact .reset rfl s.pending rfl

/-- A step that answers a next state has one of the shapes: the inversion every proof about steps starts from. -/
theorem step_shape (s t : State) (h : step s = .next t) : StepShape s.pending.head? s t := by
  cases hp : s.pending with
  | nil =>
    rw [step_nil s hp] at h
    by_cases hb : s.st = .busy
    · rw [blockTurn_of_busy s hb] at h
      obtain ⟨rfl, hr⟩ := State.commit_next.1 h
      exact .block hb s.pending rfl hr
    · rw [blockTurn_of_not_busy s hb] at h
      cases h; exact .host s.pending s.answers rfl
  | cons m rest =>
    rw [step_cons s m rest hp] at h
    cases hostMove_shape m _ t h with
    | block busy p eq room => exact .block busy p eq room
    | go free v head hv p eq => exact .go free v head hv p eq
    | host p a eq => exact .host p a eq
    | cmd free p v eq => exact .cmd free p v eq
    | cinLen free p n eq fits => exact .cinLen free p n eq fits
    | digLen free p n eq fits => exact .digLen free p n eq fits
    | cin free p i c eq => exact .cin free p i c eq
    | dig free p i d eq => exact .dig free p i d eq
    | reset head p eq => exact .reset head p eq

@[simp] theorem stepN_zero (s : State) : stepN 0 s = .next s := rfl

/-- A run of one more step goes on from where its first step leads. -/
theorem stepN_next {s t : State} (n : Nat) (h : step s = .next t) :
    stepN (n + 1) s = stepN n t := by
  have h' : Host.Core.step Sys2Proof.core s = .next t := h
  show Host.Core.run Sys2Proof.core (n + 1) s = Host.Core.run Sys2Proof.core n t
  simp only [Host.Core.run, h']

/-- A run that answers a next state after one more step took a first step. -/
theorem stepN_succ_next {s t : State} {n : Nat} (h : stepN (n + 1) s = .next t) :
    ∃ u, step s = .next u ∧ stepN n u = .next t := by
  cases hs : step s with
  | next u => exact ⟨u, rfl, by rw [← stepN_next n hs]; exact h⟩
  | fault r =>
    have h' : Host.Core.step Sys2Proof.core s = .fault r := hs
    simp only [stepN, Host.Core.run, h'] at h
    cases h
  | refused r =>
    have h' : Host.Core.step Sys2Proof.core s = .refused r := hs
    simp only [stepN, Host.Core.run, h'] at h
    cases h

/-- Runs compose. -/
theorem stepN_add {s t : State} (m n : Nat) (h : stepN m s = .next t) :
    stepN (m + n) s = stepN n t := by
  induction m generalizing s with
  | zero => rw [stepN_zero] at h; cases h; simp
  | succ m ih =>
    obtain ⟨u, hu, hr⟩ := stepN_succ_next h
    rw [show m + 1 + n = m + n + 1 by omega, stepN_next _ hu, ih hr]

end Sys2Proof.Machine
end

