-- ==== Sys2Proof/Laws/Calls.lean ====
section
/-! SUPPORT. A call as a run: its first step is GO, the block's steps do not read the host's list, a machine whose
call has ended and whose host has no move left rests, and so a call ends in one state. -/

namespace Sys2Proof.Machine

open Sys2Proof

/-- The state a GO in `s` leads to when the host has nothing else to do. -/
def State.callStart (s : State) : State := ({ s with pending := [] } : State).go s.control

@[simp] theorem State.callStart_pending (s : State) : s.callStart.pending = [] := rfl

@[simp] theorem State.callStart_control (s : State) : s.callStart.control = s.control := rfl

theorem State.callStart_cinText (s : State) : s.callStart.cinText = s.callText := rfl

/-- The first step of a call is GO. -/
theorem step_calling {s : State} (h : s.st ≠ .busy) : step s.calling = .next s.callStart := by
  rw [step_cons _ _ _ (State.calling_pending s)]
  have h' : ({ s with pending := [] } : State).st ≠ .busy := h
  show hostMove (.writeCtrl 1#1) { s with pending := [] } = _
  simp only [hostMove, if_neg h]
  rw [if_pos (by decide), runCmd, exec_of_not_busy _ _ h']
  rfl

/-- A step of a running call with no host move is its block step. -/
theorem step_of_busy {s : State} (hb : s.st = .busy) (hp : s.pending = []) :
    step s = s.commit (blockStep s.control s) := by
  rw [step_nil _ hp, blockTurn_of_busy _ hb]

/-- A machine whose call has ended and whose host has no move left rests. -/
theorem stepN_rest {s : State} (hs : s.st ≠ .busy) (hp : s.pending = []) (n : Nat) : stepN n s = .next s := by
  induction n with
  | zero => rfl
  | succ n ih => rw [stepN_next n (t := s) (by rw [step_nil _ hp, blockTurn_of_not_busy _ hs]), ih]

@[simp] theorem blockStep_pending (c : Control) (s : State) : (blockStep c s).pending = s.pending := by
  unfold blockStep
  cases s.stage <;> cases c.dir <;> simp only
  · rcases tobinStep_cases c s with ⟨_, _, e⟩ | ⟨_, _, e⟩ | ⟨_, e⟩ <;> rw [e] <;> simp
  · rcases rldecStep_cases c s with ⟨_, _, a, _, e⟩ | ⟨_, _, e⟩ | ⟨_, _, e⟩ | ⟨_, _, e⟩ <;> rw [e] <;>
      simp [State.scanAct_eq, State.advance]
  · rcases rlencStep_cases c s with ⟨_, e⟩ | ⟨_, e⟩ <;> rw [e] <;> simp
  · rcases totxtStep_cases c s with ⟨_, e⟩ | ⟨_, _, e⟩ | ⟨_, _, e⟩ <;> rw [e] <;> simp

theorem step_keeps_no_move {s t : State} (hp : s.pending = []) (h : step s = .next t) : t.pending = [] := by
  by_cases hb : s.st = .busy
  · rw [step_of_busy hb hp] at h
    obtain ⟨rfl, _⟩ := State.commit_next.1 h
    simp [hp]
  · rw [step_nil _ hp, blockTurn_of_not_busy _ hb] at h; cases h; exact hp

theorem stepN_keeps_no_move {s t : State} (n : Nat) (hp : s.pending = []) (h : stepN n s = .next t) :
    t.pending = [] := by
  induction n generalizing s with
  | zero => cases h; exact hp
  | succ n ih =>
    obtain ⟨u, hu, hr⟩ := stepN_succ_next h
    exact ih (step_keeps_no_move hp hu) hr

theorem CallEnds.pending {s t : State} {n : Nat} (hs : s.st ≠ .busy) (h : CallEnds s n t) : t.pending = [] := by
  obtain ⟨m, rfl⟩ : ∃ m, n = m + 1 := ⟨n - 1, by have := h.started; omega⟩
  have hr := h.run
  rw [stepN_next m (step_calling hs)] at hr
  exact stepN_keeps_no_move m rfl hr

/-- A call that has ended has also ended any number of steps later. -/
theorem CallEnds.later {s t : State} {n : Nat} (hs : s.st ≠ .busy) (h : CallEnds s n t) (k : Nat) :
    CallEnds s (n + k) t :=
  ⟨by have := h.started; omega, by rw [stepN_add n k h.run, stepN_rest (by simp [h.done]) (h.pending hs)], h.done⟩

/-- A call ends in one state. -/
theorem CallEnds.unique {s u v : State} {n m : Nat} (hs : s.st ≠ .busy) (h : CallEnds s n u)
    (k : CallEnds s m v) : u = v := by
  have h1 := (h.later hs m).run
  have h2 := (k.later hs n).run
  rw [Nat.add_comm, h1] at h2
  cases h2; rfl

end Sys2Proof.Machine
end

