-- ==== Sys2Proof/Laws/Operands.lean ====
section
/-! SUPPORT. The small lemmas of the data forms: ranges, fields, group values, character classes, tokens, what the
encoder emits. -/

namespace Sys2Proof.Machine

open Sys2Proof

theorem inRange_iff (c : Code) : inRange c = true ↔ c.toNat < 2 ^ Config.W := by
  simp [inRange]

@[simp] theorem field_length (c : Code) : (field c).length = 7 := by
  simp [field]

theorem field_getElem? (c : Code) (k : Nat) (h : k < Config.W) :
    (field c)[k]? = some (c.getLsbD (Config.W - 1 - k)) := by
  simp [field, h]

/-- The value of W digits, as a sum over their indices. -/
theorem groupValue_eq_sum (bit : Nat → Digit) :
    groupValue bit = ∑ i ∈ Finset.range Config.W, (bit i).toNat * 2 ^ (Config.W - 1 - i) := by
  simp [groupValue, Finset.sum_range_succ, List.range_succ, Config.W]
  omega

@[simp] theorem classify_zero : classify Config.codeZero = .z := by decide

@[simp] theorem classify_space : classify Config.codeSpace = .s := by decide

theorem classify_other (c : Code) (hz : c ≠ Config.codeZero) (hs : c ≠ Config.codeSpace) :
    classify c = .x := by
  simp [classify, hz, hs]

theorem classify_eq_z (c : Code) : classify c = .z ↔ c = Config.codeZero := by
  unfold classify
  split
  · simp [*]
  · split
    · rename_i h; subst h; decide
    · simp [*]

theorem classify_eq_s (c : Code) : classify c = .s ↔ c = Config.codeSpace := by
  unfold classify
  split
  · rename_i h; subst h; decide
  · split <;> simp [*]

/-- The length of a token (R90): its mark, one space, its fillers. -/
theorem token_length (b : Digit) (n : Nat) : (token b n).length = (if b then n + 2 else n + 3) := by
  cases b <;> simp [token, tokenMark]

/-- The first emission is a token with one filler, and a later one of a changed digit has the space in front. -/
theorem firstEmit_eq (d : Digit) : firstEmit d = token d 1 := by
  cases d <;> rfl

theorem nextEmit_same (d : Digit) : nextEmit d d = [Config.codeZero] := by
  simp [nextEmit]

theorem nextEmit_changed (p d : Digit) (h : d ≠ p) :
    nextEmit p d = [Config.codeSpace] ++ token d 1 := by
  cases d <;> simp [nextEmit, h, token, tokenMark]

end Sys2Proof.Machine
end

