-- ==== Sys2Proof/Laws/Functions.lean ====
section
/-! SUPPORT. The small lemmas of the function level and of what a call reads: how each function grows when one more
element is consumed, and the lengths and prefixes of the texts a call reads. -/

namespace Sys2Proof.Machine

open Sys2Proof

theorem field_flatMap_length (t : List Code) : (t.flatMap field).length = t.length * 7 := by
  induction t with
  | nil => rfl
  | cons c t ih => simp [List.flatMap_cons, ih]; omega

/-- A group's value depends on its W digits alone. -/
theorem groupValue_congr {a b : Nat → Digit} (h : ∀ i, i < 7 → a i = b i) : groupValue a = groupValue b := by
  simp [groupValue, List.range_succ, Config.W, h]

@[simp] theorem textOfGroups_length (n : Nat) (d : List Digit) : (textOfGroups n d).length = n := by
  induction n generalizing d with
  | zero => rfl
  | succ n ih => simp [textOfGroups, ih]

/-- One more group appends its character. -/
theorem textOfGroups_succ (n : Nat) (d : List Digit) : textOfGroups (n + 1) d =
    textOfGroups n d ++ [codeOfValue (groupValue fun i => d.getD (n * 7 + i) false)] := by
  induction n generalizing d with
  | zero => simp [textOfGroups]
  | succ n ih =>
    rw [textOfGroups, ih, textOfGroups]
    simp only [List.cons_append]
    congr 3
    simp [List.getD_eq_getElem?_getD, Config.W]
    congr 1; congr 1
    funext i; congr 2; omega

theorem encodeRest_append_one (p d : Digit) (ys : List Digit) :
    encodeRest p (ys ++ [d]) = encodeRest p ys ++ nextEmit ((p :: ys).getLast (by simp)) d := by
  induction ys generalizing p with
  | nil => simp [encodeRest]
  | cons y ys ih => simp [encodeRest, ih]

/-- One more digit appends what the RLENC step emits for it. -/
theorem rlEncode_append_one (xs : List Digit) (d : Digit) : rlEncode (xs ++ [d]) = rlEncode xs ++
    (match xs.getLast? with | none => firstEmit d | some p => nextEmit p d) := by
  cases xs with
  | nil => simp [rlEncode, encodeRest]
  | cons x xs =>
    simp only [List.cons_append, rlEncode, encodeRest_append_one, List.append_assoc]
    rw [List.getLast?_eq_some_getLast (by simp)]

/-- Scanning two texts one after the other. -/
theorem scanText_append (ds : ScanState) (tb : Digit) (out : List Digit) (xs ys : List Code) :
    scanText ds tb out (xs ++ ys) =
      (match scanText ds tb out xs with
       | some (ds', tb', out') => scanText ds' tb' out' ys
       | none => none) := by
  induction xs generalizing ds tb out with
  | nil => rfl
  | cons x xs ih =>
    simp only [List.cons_append, scanText]
    cases scanCell ds (classify x) with
    | none => rfl
    | some p => obtain ⟨ds', a⟩ := p; cases a <;> simp [ih]

@[simp] theorem State.cinText_length (s : State) : s.cinText.length = s.cinLen := by simp [State.cinText]

@[simp] theorem State.digText_length (s : State) : s.digText.length = s.digLen := by simp [State.digText]

@[simp] theorem State.callText_length (s : State) : s.callText.length = s.cinLen := by
  simp [State.callText, State.cinText]

@[simp] theorem State.callDigits_length (s : State) : s.callDigits.length = s.digLen := by
  simp [State.callDigits, State.digText]

/-- The characters up to and with the one under the cursor. -/
theorem State.cinText_take_succ (s : State) (h : s.ip < s.cinLen) :
    s.cinText.take (s.ip + 1) = s.cinText.take s.ip ++ [s.cinAt s.ip] := by
  rw [List.take_add_one]; simp [State.cinText, h]

/-- The digits up to and with the one under the cursor. -/
theorem State.digText_take_succ (s : State) (h : s.ip < s.digLen) :
    s.digText.take (s.ip + 1) = s.digText.take s.ip ++ [s.digAt s.ip] := by
  rw [List.take_add_one]; simp [State.digText, h]

theorem State.cinText_congr {s t : State} (h1 : t.cin = s.cin) (h2 : t.cinLen = s.cinLen)
    (h3 : t.calls = s.calls) : t.cinText = s.cinText := by
  simp [State.cinText, State.cinAt, h1, h2, h3]

theorem State.digText_congr {s t : State} (h1 : t.dig = s.dig) (h2 : t.digLen = s.digLen)
    (h3 : t.calls = s.calls) : t.digText = s.digText := by
  simp [State.digText, State.digAt, h1, h2, h3]

/-- What DIG holds is what a call reads. -/
theorem State.digText_of_holds {s : State} {d : List Digit} (h : Memory.Holds s.dig d)
    (hl : s.digLen = d.length) : s.digText = d := by
  apply List.ext_getElem
  · simp [hl]
  · intro i h1 h2
    have := h i h2
    simp [State.digText, State.digAt, this, List.getElem?_eq_getElem h2]

/-- What CIN holds is what the call a GO starts will read. -/
theorem State.callText_of_holds {s : State} {c : List Code} (h : Memory.Holds s.cin c)
    (hl : s.cinLen = c.length) : s.callText = c := by
  apply List.ext_getElem
  · simp [hl]
  · intro i h1 h2
    have := h i h2
    simp [State.callText, State.cinText, State.cinAt, this, List.getElem?_eq_getElem h2]

end Sys2Proof.Machine
end

