-- ==== Sys2Proof/Laws/PerInstr.lean ====
section
/-! SUPPORT. The families of statements made per command. RoundTrip: the bytes of a command decode to it, with the
bytes after them left over, and its control bits are the three bits of its word (spec/30_encoding.md R80). -/

namespace Sys2Proof.Laws.RoundTrip

open Sys2Proof

/-- A command is well formed, is decoded from its bytes, and its word carries its control bits. -/
def Statement (i : Instr) : Prop :=
  i.wf = true ∧ (∀ rest : List Byte, decode (encode i ++ rest) = .ok (i, rest)) ∧
  (encodeCommand i).getLsbD 2 = i.control.be ∧ (encodeCommand i).getLsbD 1 = i.control.fe ∧
  (encodeCommand i).getLsbD 0 = i.control.dir

theorem tobin : Statement .tobin := ⟨rfl, fun _ => rfl, rfl, rfl, rfl⟩

theorem rldec : Statement .rldec := ⟨rfl, fun _ => rfl, rfl, rfl, rfl⟩

theorem rlenc : Statement .rlenc := ⟨rfl, fun _ => rfl, rfl, rfl, rfl⟩

theorem totxt : Statement .totxt := ⟨rfl, fun _ => rfl, rfl, rfl, rfl⟩

theorem enc : Statement .enc := ⟨rfl, fun _ => rfl, rfl, rfl, rfl⟩

theorem dec : Statement .dec := ⟨rfl, fun _ => rfl, rfl, rfl, rfl⟩

theorem reserved (d : Bool) : Statement (.reserved d) := by
  cases d <;> exact ⟨rfl, fun _ => rfl, rfl, rfl, rfl⟩

end Sys2Proof.Laws.RoundTrip
end

