-- ==== Sys2Proof/Tests/Slice0.lean ====
section
/-! SUPPORT. Tests of the model against spec/95_test_vectors.md and the encodings of spec/30_encoding.md, and for
every statement with hypotheses a state that meets them, clause by clause. -/

namespace Sys2Proof.Tests

open Sys2Proof Sys2Proof.Machine

/-! ### Small states -/

/-- The state a step leads to, if it answers one. -/
def nextOf (o : Host.Outcome State Fault Refusal) : Option State :=
  match o with
  | .next s => some s
  | .fault _ => none
  | .refused _ => none

/-- The state a step leads to, or the one it started from. -/
def after (n : Nat) (s : State) : State := (nextOf (stepN n s)).getD s

/-- After reset, with a command word and a text in CIN. -/
def withText (w : CommandWord) (cs : List Code) : State :=
  { State.reset with cmd := w, cin := Memory.setSeq [] 0 cs, cinLen := cs.length }

/-- After reset, with a command word and digits in DIG. -/
def withDigits (w : CommandWord) (ds : List Digit) : State :=
  { State.reset with cmd := w, dig := Memory.setSeq [] 0 ds, digLen := ds.length }

/-- A call running in FRONT. -/
def inFront (s : State) : State := { s with st := .busy, stage := .front }

/-- A call running in BACK. -/
def inBack (s : State) : State := { s with st := .busy, stage := .back }

/-- With one move of the host to make. -/
def hostDoes (m : HostMove) (s : State) : State := { s with pending := [m] }

/-- An instance whose three buffers hold `n` elements. -/
def sized (n : Nat) (s : State) : State := { s with caps := { cin := some n, dig := some n, cout := some n } }

/-- The digits of `'A'`, 1000001 (95_test_vectors.md S1). -/
def digitsOfA : List Digit := [true, false, false, false, false, false, true]

/-! ### What is no command word -/

theorem test_command_word_above_three_bits_ill_formed : commandWordWf 8 = false := by decide

theorem test_largest_command_word_well_formed : commandWordWf 7 = true := by decide

theorem test_byte_above_command_word_refused : decode [0b00001000#8] = .error .bitAboveCommandWord := by rfl

theorem test_no_bytes_refused : decode [] = .error .noBytes := by rfl

theorem test_table_word_above_command_word_refused : decodeTableWord 8 0x86 = none := by decide

/-! ### Every command word of spec/30_encoding.md R82 and R83, bit by bit: BE, FE, DIR -/

theorem test_decode_tobin : decodeTableWord 8 0b00000010 = some .tobin := by decide

theorem test_decode_rldec : decodeTableWord 8 0b00000011 = some .rldec := by decide

theorem test_decode_rlenc : decodeTableWord 8 0b00000100 = some .rlenc := by decide

theorem test_decode_totxt : decodeTableWord 8 0b00000101 = some .totxt := by decide

theorem test_decode_enc : decodeTableWord 8 0b00000110 = some .enc := by decide

theorem test_decode_dec : decodeTableWord 8 0b00000111 = some .dec := by decide

theorem test_decode_reserved_encode_direction : decodeTableWord 8 0b00000000 = some (.reserved false) := by decide

theorem test_decode_reserved_decode_direction : decodeTableWord 8 0b00000001 = some (.reserved true) := by decide

/-! ### One step of each command (values from spec/95_test_vectors.md) -/

/-- 2.1, CIN 41: seven digits 1000001. -/
theorem test_tobin_step_of_A :
    (nextOf (exec .tobin (inFront (withText 0b010#3 [0x41#8])))).map (fun t => (t.digText, t.ip, t.st)) =
      some (digitsOfA, 1, .busy) := by decide

/-- 2.1, CIN 80: the smallest code out of range. -/
theorem test_tobin_step_of_80 :
    (nextOf (exec .tobin (inFront (withText 0b010#3 [0x80#8])))).map (fun t => (t.status, t.digLen)) =
      some (0x0E#5, 0) := by decide

/-- 2.2, DIG 1000001: one character 41. -/
theorem test_totxt_step_of_A :
    (nextOf (exec .totxt (inBack (withDigits 0b101#3 digitsOfA)))).map (fun t => (t.cout, t.coutLen, t.digLen)) =
      some ([(0, 0x41#8)], 1, 7) := by decide

/-- 2.2, DIG 0: InvalidLength, the host's digit kept. -/
theorem test_totxt_step_of_one_digit :
    (nextOf (exec .totxt (inBack (withDigits 0b101#3 [false])))).map (fun t => (t.status, t.digLen)) =
      some (0x0A#5, 1) := by decide

/-- 2.3, DIG 0: `"00 0"`. -/
theorem test_rlenc_step_of_first_zero :
    (nextOf (exec .rlenc (inBack (withDigits 0b100#3 [false])))).map (fun t => (t.cout, t.prev)) =
      some ([(0, 0x30#8), (1, 0x30#8), (2, 0x20#8), (3, 0x30#8)], false) := by decide

/-- 2.3, DIG 01 after its first digit: `" 0 0"` more. -/
theorem test_rlenc_step_of_changed_digit :
    (nextOf (exec .rlenc { inBack (withDigits 0b100#3 [false, true]) with ip := 1 })).map
      (fun t => (t.cout, t.prev)) =
      some ([(0, 0x20#8), (1, 0x30#8), (2, 0x20#8), (3, 0x30#8)], true) := by decide

/-- 42_runlength_decode.md R155: `'0'` in G appends the token's bit. -/
theorem test_rldec_step_of_filler :
    (nextOf (exec .rldec { inFront (withText 0b011#3 [0x30#8]) with ds := .g, tb := true })).map
      (fun t => (t.digText, t.ds)) = some ([true], .r) := by decide

/-- S3: the character a (61) is refused. -/
theorem test_rldec_step_of_other_character :
    (nextOf (exec .rldec { inFront (withText 0b011#3 [0x61#8]) with ds := .r })).map (fun t => t.status) =
      some 0x06#5 := by decide

/-- R185: the end of the text takes ENC to its back end. -/
theorem test_enc_step_at_end_of_text :
    (nextOf (exec .enc { inFront (withText 0b110#3 [0x41#8]) with ip := 1 })).map
      (fun t => (t.stage, t.ip, t.st)) = some (.back, 0, .busy) := by decide

/-- R186: the end of the digits ends ENC with none left. -/
theorem test_enc_step_at_end_of_digits :
    (nextOf (exec .enc { inBack (withDigits 0b110#3 [true]) with ip := 1 })).map
      (fun t => (t.digLen, t.status)) = some (0, 0x02#5) := by decide

/-- S4: one digit is no whole group, and DEC leaves none. -/
theorem test_dec_step_of_one_digit :
    (nextOf (exec .dec (inBack (withDigits 0b111#3 [false])))).map (fun t => (t.status, t.digLen)) =
      some (0x0A#5, 0) := by decide

/-- R157: a cipher text that ends inside a first field is malformed. -/
theorem test_dec_step_at_end_in_first_field :
    (nextOf (exec .dec { inFront (withText 0b111#3 [0x30#8]) with ip := 1, ds := .p1 })).map
      (fun t => t.status) = some 0x06#5 := by decide

/-- 2.8: a reserved command ends at GO with IllegalCommand, the host's digits kept. -/
theorem test_reserved_go :
    (nextOf (exec (.reserved true) (withDigits 0b001#3 [true]))).map (fun t => (t.status, t.digLen)) =
      some (0x12#5, 1) := by decide

/-- S1, at the function level. -/
theorem test_encode_of_A : encodeText [0x41#8] = .ok [0x30#8, 0x20#8, 0x30#8, 0x20#8, 0x30#8, 0x30#8, 0x20#8,
    0x30#8, 0x30#8, 0x30#8, 0x30#8, 0x30#8, 0x20#8, 0x30#8, 0x20#8, 0x30#8] := by rfl

/-- S4, at the function level. -/
theorem test_decode_of_one_zero : decodeText [0x30#8, 0x30#8, 0x20#8, 0x30#8] = .error .invalidLength := by rfl

/-- A word placed after reset runs in the very next step: ENC starts a call. -/
theorem test_placed_word_runs_next :
    (nextOf (step (State.reset.withFetchWord 8 0b110))).map (fun t => (t.cmd, t.st, t.stage)) =
      some (0b110#3, .busy, .front) := by decide

/-- 93_implementation_defined.md U7: six elements have no room for the seven digits of a character. -/
theorem test_tobin_step_without_room :
    step (sized 6 (inFront (withText 0b010#3 [0x41#8]))) = .refused .capacityExceeded := by rfl

/-- 93_implementation_defined.md U7: CIN_LEN is not written above its capacity. -/
theorem test_length_above_capacity_refused :
    step (sized 4 (hostDoes (.writeCinLen 5) State.reset)) = .refused .capacityExceeded := by rfl

/-! ### States that meet the hypotheses of the statements -/

/-- A running call in unbounded buffers, and in buffers with room for exactly one more step. -/
theorem witness_EveryCommandAnswersANextState :
    State.reset.st ≠ .busy ∧
    ((inFront State.reset).caps.dig.fits ((inFront State.reset).digLen + Config.W) = true ∧
      (inFront State.reset).caps.cout.fits ((inFront State.reset).coutLen + 5) = true) ∧
    (let s := sized 7 (inFront (withText 0b010#3 [0x41#8]))
     s.st = .busy ∧ s.caps.dig.fits (s.digLen + Config.W) = true ∧ s.caps.cout.fits (s.coutLen + 5) = true) ∧
    exec .tobin (sized 6 (inFront (withText 0b010#3 [0x41#8]))) = .refused .capacityExceeded :=
  ⟨by decide, by decide, by decide, rfl⟩

/-- A platform reset during a call. -/
theorem witness_PlatformResetAbandonsTheCall :
    (hostDoes .platformReset (inFront State.reset)).pending = [.platformReset] := by decide

theorem witness_DecodeAndEncodeAgree : ∀ i : Instr, i.wf = true := by
  intro i; cases i <;> rfl

/-- The smallest and the largest byte that is no command word. -/
theorem witness_OtherBytesAreNoCommand : 8 ≤ (0x08#8).toNat ∧ 8 ≤ (0xFF#8).toNat := by decide

theorem witness_StepRunsTheCommandInCmd :
    ((inFront State.reset).st = .busy ∧ (inFront State.reset).pending = []) ∧
    ((hostDoes .awaitNotBusy (inFront State.reset)).st = .busy ∧
      (hostDoes .awaitNotBusy (inFront State.reset)).pending = [.awaitNotBusy]) ∧
    ((hostDoes .blockTurn (inFront State.reset)).st = .busy ∧
      (hostDoes .blockTurn (inFront State.reset)).pending = [.blockTurn]) ∧
    ((hostDoes (.writeCtrl 1#1) State.reset).st ≠ .busy ∧ (1#1 : BitVec 1).getLsbD 0 = true ∧
      (hostDoes (.writeCtrl 1#1) State.reset).pending = [.writeCtrl 1#1]) ∧
    decodeTableWord 8 0b110 = some .enc := by decide

theorem witness_BlockRestsBetweenCalls :
    (State.reset.st ≠ .busy ∧ State.reset.pending = []) ∧
    ((hostDoes .awaitNotBusy State.reset).st ≠ .busy ∧
      (hostDoes .awaitNotBusy State.reset).pending = [.awaitNotBusy]) ∧
    ((hostDoes .blockTurn State.reset).st ≠ .busy ∧
      (hostDoes .blockTurn State.reset).pending = [.blockTurn]) := by decide

/-- A GO write between calls; a command of each of the three cases; no call running. -/
theorem witness_GoTransition :
    (1#1 : BitVec 1).getLsbD 0 = true ∧
    ((hostDoes (.writeCtrl 1#1) State.reset).pending = [.writeCtrl 1#1] ∧
      (hostDoes (.writeCtrl 1#1) State.reset).st ≠ .busy) ∧
    ((Instr.reserved true).control.fe = false ∧ (Instr.reserved true).control.be = false) ∧
    Instr.tobin.control.fe = true ∧ (Instr.rlenc.control.fe = false ∧ Instr.rlenc.control.be = true) := by decide

/-- After a failed call, as after reset, no call runs. -/
theorem witness_ReservedCommandEndsAtGo :
    State.reset.st ≠ .busy ∧ (State.reset.fail Instr.enc.control .characterOutOfRange).st ≠ .busy := by decide

/-- The largest code in range, with room for exactly its digits, and the smallest code out of range. -/
theorem witness_TobinCharacterStep :
    (let s := inFront (withText 0b010#3 [0x7F#8])
     s.st = .busy ∧ s.stage = .front ∧ s.ip < s.cinLen ∧ (s.cinAt s.ip).toNat < 2 ^ Config.W ∧
      s.caps.dig.fits (s.digLen + Config.W) = true ∧ (sized 7 s).caps.dig.fits (s.digLen + Config.W) = true) ∧
    (let s := inFront (withText 0b110#3 [0x80#8])
     s.st = .busy ∧ s.stage = .front ∧ s.ip < s.cinLen ∧ 2 ^ Config.W ≤ (s.cinAt s.ip).toNat) := by decide

/-- Six digits, no digits, seven digits with room for their character, and the end after a first group. -/
theorem witness_TotxtStep :
    (let s := inBack (withDigits 0b101#3 (List.replicate 6 true))
     s.st = .busy ∧ s.stage = .back ∧ s.ip = 0 ∧ s.digLen % Config.W ≠ 0) ∧
    (let s := inBack (withDigits 0b101#3 [])
     ¬(s.ip = 0 ∧ s.digLen % Config.W ≠ 0) ∧ s.ip * Config.W = s.digLen) ∧
    (let s := inBack (withDigits 0b101#3 digitsOfA)
     ¬(s.ip = 0 ∧ s.digLen % Config.W ≠ 0) ∧ s.ip * Config.W ≠ s.digLen ∧
      (sized 1 s).caps.cout.fits (s.coutLen + 1) = true) ∧
    (let s : State := { inBack (withDigits 0b111#3 digitsOfA) with ip := 1 }
     ¬(s.ip = 0 ∧ s.digLen % Config.W ≠ 0) ∧ s.ip * Config.W = s.digLen) := by decide

/-- A first digit of each value, once with exactly the room for its characters; a changed digit of each value; a
repeated digit. -/
theorem witness_RlencDigitStep :
    (let s := inBack (withDigits 0b100#3 [true])
     s.st = .busy ∧ s.stage = .back ∧ s.ip < s.digLen ∧ s.ip = 0 ∧ s.digAt s.ip = true ∧
      (sized 3 s).caps.cout.fits (s.coutLen + 3) = true) ∧
    (let s := inBack (withDigits 0b100#3 [false])
     s.ip < s.digLen ∧ s.ip = 0 ∧ s.digAt s.ip = false) ∧
    (let s : State := { inBack (withDigits 0b110#3 [false, true]) with ip := 1, prev := false }
     s.ip < s.digLen ∧ s.ip ≠ 0 ∧ s.digAt s.ip ≠ s.prev ∧ s.digAt s.ip = true) ∧
    (let s : State := { inBack (withDigits 0b110#3 [true, false]) with ip := 1, prev := true }
     s.ip < s.digLen ∧ s.ip ≠ 0 ∧ s.digAt s.ip ≠ s.prev ∧ s.digAt s.ip = false) ∧
    (let s : State := { inBack (withDigits 0b110#3 [true, true]) with ip := 1, prev := true }
     s.ip < s.digLen ∧ s.ip ≠ 0 ∧ s.digAt s.ip = s.prev) := by decide

/-- A `'0'`, a space and a third character to read, in a call whose scanner can be in any state, with room for exactly
one digit. -/
theorem witness_RldecCharacterStep :
    (∀ d ∈ [ScanState.s0, .p1, .p2, .g, .r, .e],
      let s : State := { inFront (withText 0b011#3 [0x30#8]) with ds := d }
      s.st = .busy ∧ s.stage = .front ∧ s.ip < s.cinLen ∧ s.cinAt s.ip = 0x30#8 ∧ s.ds = d ∧
      (sized 1 s).caps.dig.fits (s.digLen + 1) = true) ∧
    (∀ d ∈ [ScanState.s0, .p1, .p2, .g, .r, .e],
      let s : State := { inFront (withText 0b111#3 [0x20#8]) with ds := d }
      s.ip < s.cinLen ∧ s.cinAt s.ip = 0x20#8 ∧ s.ds = d) ∧
    (let s := inFront (withText 0b011#3 [0x31#8])
     s.ip < s.cinLen ∧ s.cinAt s.ip ≠ 0x30#8 ∧ s.cinAt s.ip ≠ 0x20#8) := by decide

/-- A character's seven digits in seven elements and in six, a first filler's three characters in three and in two, and
a step that appends nothing. -/
theorem witness_FiniteInstanceAgreesOrRefuses :
    (∃ t, exec .tobin (inFront (withText 0b010#3 [0x41#8])) = .next t ∧ 0 < t.digLen ∧ t.coutLen ≤ 0 ∧
      (sized 7 State.reset).caps.dig.fits t.digLen = true ∧ (sized 6 State.reset).caps.dig.fits t.digLen = false) ∧
    (∃ t, exec .rlenc (inBack (withDigits 0b100#3 [true])) = .next t ∧ t.digLen ≤ 1 ∧ 0 < t.coutLen ∧
      (sized 3 State.reset).caps.cout.fits t.coutLen = true ∧ (sized 2 State.reset).caps.cout.fits t.coutLen = false) ∧
    (∃ t, exec .rldec (inFront (withText 0b011#3 [0x30#8])) = .next t ∧ t.digLen ≤ 0 ∧ t.coutLen ≤ 0) :=
  ⟨⟨_, rfl, by decide⟩, ⟨_, rfl, by decide⟩, ⟨_, rfl, by decide⟩⟩

theorem witness_RldecEndOfInput :
    ∀ d ∈ [ScanState.s0, .p1, .p2, .g, .r, .e],
      let s : State := { inFront (withText 0b011#3 [0x30#8]) with ip := 1, ds := d }
      s.st = .busy ∧ s.stage = .front ∧ s.ip = s.cinLen ∧ s.ds = d := by decide

theorem witness_FrontDoneGoesOnOrFinishes :
    (let s : State := { inFront (withText 0b110#3 [0x41#8]) with ip := 1 }
     s.st = .busy ∧ s.stage = .front ∧ s.ip = s.cinLen) ∧
    (Instr.enc.control.fe = true ∧ Instr.enc.control.be = true) ∧
    (Instr.rldec.control.fe = true ∧ Instr.rldec.control.be = false ∧ Instr.rldec.control.dir = true) ∧
    (let s : State := { inFront (withText 0b011#3 [0x30#8]) with ip := 1, ds := .e }
     s.ip = s.cinLen ∧ s.ds = .e) := by decide

theorem witness_FinishEndsTheCall :
    (let s : State := { inFront (withText 0b011#3 [0x20#8]) with ip := 1, ds := .r }
     s.st = .busy ∧ s.stage = .front ∧ s.ip = s.cinLen ∧ s.ds = .r) ∧
    (let s : State := { inBack (withDigits 0b100#3 [true]) with ip := 1 }
     s.st = .busy ∧ s.stage = .back ∧ s.ip = s.digLen) ∧
    (let s : State := { inBack (withDigits 0b101#3 digitsOfA) with ip := 1 }
     s.st = .busy ∧ s.stage = .back ∧ s.ip * Config.W = s.digLen) := by decide

theorem witness_FailReplacesTheStep :
    ∃ t, (inFront (withText 0b010#3 [0x80#8])).st = .busy ∧ (inFront (withText 0b010#3 [0x80#8])).err = .none ∧
      exec .tobin (inFront (withText 0b010#3 [0x80#8])) = .next t ∧ t.err ≠ .none :=
  ⟨_, rfl, rfl, rfl, by decide⟩

/-- A call running in FRONT meets the invariant when it is at its beginning. -/
theorem front_start_callInv (s : State) (hc : s.coutLen = 0) (hd : s.digLen = 0) (hi : s.ip = 0)
    (he : s.err = .none) (hs : s.stage = .front) (hf : s.control.fe = true) : s.CallInv := by
  constructor <;> simp [hc, hd, hi, he, hs, hf, Memory.Written]

/-- A call running in BACK on the host's digits meets the invariant when it is at its beginning. -/
theorem back_start_callInv (s : State) (hc : s.coutLen = 0) (hi : s.ip = 0) (he : s.err = .none)
    (hs : s.stage = .back) (hf : s.control.fe = false) (hb : s.control.be = true) : s.CallInv := by
  constructor <;> simp [hc, hi, he, hs, hf, hb, Memory.Written]

/-- One whole group left to read, in a call that meets the invariant. -/
theorem witness_TotxtStep_group :
    ∃ s : State, s.CallInv ∧ s.control = Instr.totxt.control ∧ s.st = .busy ∧ s.stage = .back ∧
      ¬(s.ip = 0 ∧ s.digLen % Config.W ≠ 0) ∧ s.ip * Config.W ≠ s.digLen :=
  ⟨inBack (withDigits 0b101#3 digitsOfA), back_start_callInv _ rfl rfl rfl rfl rfl rfl, by decide⟩

/-- An empty cipher text at its end, the registers as GO left them. -/
theorem witness_RldecEndOfInput_empty :
    ∃ s : State, s.st = .busy ∧ s.stage = .front ∧ s.ip = s.cinLen ∧ s.CallContent ∧ s.control.dir = true ∧
      s.ds = .s0 := by
  refine ⟨inFront (withText 0b011#3 []), rfl, rfl, rfl, ?_, by decide, rfl⟩
  constructor
  · intro _ _ h; exact absurd h (by decide)
  · intro _ _ _; exact ⟨[], rfl, rfl, fun i h => absurd h (Nat.not_lt_zero i)⟩
  · intro _ h; exact absurd h (by decide)
  · intro _ h; exact absurd h (by decide)
  · intro _ h; exact absurd h (by decide)
  · intro _ h; exact absurd h (by decide)

theorem witness_ErrorKindsOfEachCommand :
    ∃ s t : State, s.CallInv ∧ s.st = .busy ∧ exec (decodeCommand s.cmd) s = .next t ∧ t.err ≠ .none :=
  ⟨inFront (withText 0b110#3 [0x80#8]), _, front_start_callInv _ rfl rfl rfl rfl rfl rfl, rfl, rfl, by decide⟩

/-- A failed call with a front end, and one without. -/
theorem witness_FailedCallLeavesOnlyItsKind :
    (∃ (s t : State) (n : Nat), s.st ≠ .busy ∧ CallEnds s n t ∧ t.err ≠ .none ∧ s.control.fe = true) ∧
    (∃ (s t : State) (n : Nat), s.st ≠ .busy ∧ CallEnds s n t ∧ t.err ≠ .none ∧ s.control.fe = false) :=
  ⟨⟨withText 0b010#3 [0x80#8], after 2 (withText 0b010#3 [0x80#8]).calling, 2, by decide,
    ⟨by decide, rfl, by decide⟩, by decide, by decide⟩,
   ⟨withDigits 0b101#3 [true], after 2 (withDigits 0b101#3 [true]).calling, 2, by decide,
    ⟨by decide, rfl, by decide⟩, by decide, by decide⟩⟩

theorem witness_CmdHoldsAnyValueAndIsConstantInACall :
    (∃ s : State, s.st ≠ .busy ∧ s.pending = [.writeCmd 0b111#3, .readReg .cmd]) ∧
    (∃ s : State, s.st = .busy ∧ s.pending = [.writeCmd 0b000#3]) ∧
    (∃ s t : State, s.st = .busy ∧ s.pending.head? ≠ some .platformReset ∧ step s = .next t) :=
  ⟨⟨{ State.reset with pending := [.writeCmd 0b111#3, .readReg .cmd] }, by decide⟩,
   ⟨hostDoes (.writeCmd 0b000#3) (inFront State.reset), by decide⟩,
   ⟨inFront (withText 0b010#3 [0x41#8]), _, rfl, by decide, rfl⟩⟩

theorem witness_CtrlTriggersAndReadsZero :
    (∃ s : State, s.st ≠ .busy ∧ s.pending = [.writeCtrl 1#1] ∧ (1#1 : BitVec 1).getLsbD 0 = true) ∧
    (∃ s : State, s.st ≠ .busy ∧ s.pending = [.writeCtrl 0#1] ∧ (0#1 : BitVec 1).getLsbD 0 = false) ∧
    (∃ s : State, s.pending = [.readReg .ctrl] ∧ s.st ≠ .busy) ∧
    (∃ s : State, s.pending = [.readReg .ctrl] ∧ s.st = .busy) :=
  ⟨⟨hostDoes (.writeCtrl 1#1) State.reset, by decide⟩, ⟨hostDoes (.writeCtrl 0#1) State.reset, by decide⟩,
   ⟨hostDoes (.readReg .ctrl) State.reset, by decide⟩,
   ⟨hostDoes (.readReg .ctrl) (inFront State.reset), by decide⟩⟩

/-- The last step of a running call, a write of CIN_LEN, a GO, and a running call that meets the invariant. -/
theorem witness_StatusLayoutAndTransitions :
    (∃ s t : State, step s = .next t ∧ s.pending.head? ≠ some .platformReset ∧ s.st = .busy ∧ t.st = .done) ∧
    (∃ s t : State, step s = .next t ∧ s.pending.head? ≠ some .platformReset ∧ s.st ≠ .busy ∧
      ∀ v : BitVec 1, v.getLsbD 0 = true → s.pending.head? ≠ some (.writeCtrl v)) ∧
    (∃ s t : State, step s = .next t ∧ s.pending.head? ≠ some .platformReset ∧ s.st ≠ .busy ∧
      ∃ v : BitVec 1, v.getLsbD 0 = true ∧ s.pending.head? = some (.writeCtrl v)) ∧
    (∃ s : State, s.CallInv ∧ s.st ≠ .done) :=
  ⟨⟨inFront (withText 0b010#3 [0x80#8]), _, rfl, by decide, rfl, rfl⟩,
   ⟨hostDoes (.writeCinLen 1) State.reset, _, rfl, by decide, by decide, by decide⟩,
   ⟨hostDoes (.writeCtrl 1#1) State.reset, _, rfl, by decide, by decide, 1#1, by decide⟩,
   ⟨inFront (withText 0b010#3 [0x41#8]), front_start_callInv _ rfl rfl rfl rfl rfl rfl, by decide⟩⟩

/-- Each access between calls and during one, and elements just below their lengths. -/
theorem witness_HostAccessByCallState :
    (∀ m ∈ [HostMove.writeCmd 0b111#3, .writeCtrl 1#1, .writeCtrl 0#1, .writeCinLen 0, .writeDigLen 0,
        .writeCin 0 0xFF#8, .writeDig 0 true, .readReg .ctrl, .readReg .digLen, .readReg .coutLen, .readDig 0,
        .readCout 0, .readReg .status, .readReg .cmd, .readReg .cinLen, .readCin 0],
      (hostDoes m State.reset).st ≠ .busy ∧ (hostDoes m State.reset).pending = [m]) ∧
    (∀ m ∈ [HostMove.writeCmd 0b000#3, .writeCtrl 0#1, .writeCinLen 0, .writeDigLen 0, .writeCin 0 0x00#8,
        .writeDig 0 false, .readReg .ctrl, .readReg .digLen, .readReg .coutLen, .readDig 0, .readCout 0,
        .readReg .status, .readReg .cmd, .readReg .cinLen, .readCin 0],
      (hostDoes m (inFront State.reset)).st = .busy ∧ (hostDoes m (inFront State.reset)).pending = [m]) ∧
    (let s := hostDoes (.readDig 6) (withDigits 0b100#3 digitsOfA)
     6 < s.digLen ∧ Memory.get? s.dig 6 = some true) ∧
    (let s := hostDoes (.readCin 0) (withText 0b010#3 [0x41#8])
     0 < s.cinLen ∧ Memory.get? s.cin 0 = some 0x41#8) ∧
    (let s : State := { hostDoes (.readCout 0) State.reset with cout := [(0, 0x41#8)], coutLen := 1 }
     0 < s.coutLen ∧ Memory.get? s.cout 0 = some 0x41#8) ∧
    (let s := sized 4 State.reset
     s.caps.cin.fits 4 = true ∧ s.caps.dig.fits 4 = true ∧ s.caps.cin.fits (3 + 1) = true ∧
       s.caps.dig.fits (3 + 1) = true) := by decide

/-- A running call that meets the invariant: a host that reads its STATUS sees BUSY. -/
theorem witness_StatusWhileBusy : (inFront (withText 0b010#3 [0x41#8])).CallInv ∧
    (inFront (withText 0b010#3 [0x41#8])).st = .busy :=
  ⟨front_start_callInv _ rfl rfl rfl rfl rfl rfl, rfl⟩

theorem witness_OnlyAccessesWhileBusyAreRefused :
    step (hostDoes (.writeCinLen 1) (inFront State.reset)) = .refused .hostWriteWhileBusy ∧
    step (hostDoes (.readReg .digLen) (inFront State.reset)) = .refused .hostReadWhileBusy ∧
    step (sized 4 (hostDoes (.writeDig 4 true) State.reset)) = .refused .capacityExceeded ∧
    step (sized 0 (hostDoes .awaitNotBusy (inFront (withText 0b010#3 [0x41#8])))) =
      .refused .capacityExceeded := ⟨rfl, rfl, rfl, rfl⟩

/-- One element, and one length, beyond four. -/
theorem witness_WritesThatDoNotFitAreRefused :
    (∀ m ∈ [HostMove.writeCinLen 5, .writeDigLen 5, .writeCin 4 0x41#8, .writeDig 4 true],
      (sized 4 (hostDoes m State.reset)).st ≠ .busy ∧ (sized 4 (hostDoes m State.reset)).pending = [m]) ∧
    (sized 4 State.reset).caps.cin.fits 5 = false ∧ (sized 4 State.reset).caps.dig.fits 5 = false := by decide

/-- The first element above each length, of CIN during a call too. -/
theorem witness_ReadAtOrAboveTheLengthIsFree :
    (let s := hostDoes (.readCin 1) (withText 0b010#3 [0x41#8])
     s.pending = [.readCin 1] ∧ s.cinLen ≤ 1 ∧ s.st ≠ .busy ∧
      (inFront s).pending = [.readCin 1] ∧ (inFront s).cinLen ≤ 1 ∧ (inFront s).st = .busy) ∧
    (let s := hostDoes (.readDig 7) (withDigits 0b100#3 digitsOfA)
     s.st ≠ .busy ∧ s.pending = [.readDig 7] ∧ s.digLen ≤ 7) ∧
    (let s := hostDoes (.readCout 0) State.reset
     s.st ≠ .busy ∧ s.pending = [.readCout 0] ∧ s.coutLen ≤ 0) := by decide

theorem witness_FrameOfEveryCommand :
    (∃ s t : State, exec .rldec s = .next t ∧ s.st = .busy ∧ s.stage = .front) ∧
    (∃ s t : State, exec .rlenc s = .next t ∧ s.st = .busy ∧ s.stage = .back) ∧
    (∃ s t : State, exec .enc s = .next t ∧ s.st ≠ .busy) :=
  ⟨⟨inFront (withText 0b011#3 [0x30#8]), _, rfl, rfl, rfl⟩, ⟨inBack (withDigits 0b100#3 [true]), _, rfl, rfl, rfl⟩,
   ⟨State.reset, _, rfl, by decide⟩⟩

theorem witness_CursorMovesByOne :
    ∃ s t : State, s.st = .busy ∧ exec .dec s = .next t :=
  ⟨inFront (withText 0b111#3 [0x30#8]), _, rfl, rfl⟩

/-- A running call that meets the invariant and takes a step. -/
theorem witness_StepKeepsTheInvariant :
    ∃ s t : State, s.Inv ∧ s.st = .busy ∧ step s = .next t :=
  ⟨inFront (withText 0b010#3 [0x41#8]), _,
    ⟨⟨by decide, by decide, by decide⟩, front_start_callInv _ rfl rfl rfl rfl rfl rfl,
      ⟨rfl, rfl, rfl⟩⟩, rfl, rfl⟩

theorem witness_StepKeepsTheCallContent :
    ∃ s t : State, s.CallInv ∧ s.CallContent ∧ s.st = .busy ∧ step s = .next t := by
  refine ⟨inFront (withText 0b010#3 [0x41#8]), _, front_start_callInv _ rfl rfl rfl rfl rfl rfl, ?_, rfl, rfl⟩
  constructor
  · intro _ _ _; exact ⟨rfl, rfl, fun i h => absurd h (Nat.not_lt_zero i)⟩
  · intro _ _ h; exact absurd h (by decide)
  · intro _ h; exact absurd h (by decide)
  · intro _ h; exact absurd h (by decide)
  · intro _ h; exact absurd h (by decide)
  · intro _ h; exact absurd h (by decide)

theorem witness_EveryCallEnds :
    ∃ s : State, s.CallInv ∧ s.st = .busy ∧ s.pending = [] :=
  ⟨inBack (withDigits 0b100#3 [true]), back_start_callInv _ rfl rfl rfl rfl rfl rfl, rfl, rfl⟩

/-- A call that ends with the digits of the largest character, in buffers that just hold them, and one that fails. -/
theorem witness_TobinCallResult :
    (let s := sized 7 (withText 0b010#3 [0x7F#8])
     s.st ≠ .busy ∧ decodeCommand s.cmd = .tobin ∧ (∃ t, CallEnds s 3 t) ∧ (∃ d, toBinary s.callText = .ok d) ∧
      s.caps.dig.fits (Config.W * s.cinLen) = true) ∧
    (let s := withText 0b010#3 [0x80#8]
     s.st ≠ .busy ∧ decodeCommand s.cmd = .tobin ∧ (∃ t, CallEnds s 2 t) ∧
      (∃ e, toBinary s.callText = .error e) ∧ s.caps.dig.fits (Config.W * s.cinLen) = true) :=
  ⟨⟨by decide, by decide, ⟨_, by decide, rfl, rfl⟩, ⟨_, rfl⟩, by decide⟩,
   ⟨by decide, by decide, ⟨_, by decide, rfl, rfl⟩, ⟨_, rfl⟩, by decide⟩⟩

theorem witness_RldecCallResult :
    (let s := sized 3 (withText 0b011#3 [0x30#8, 0x20#8, 0x30#8])
     s.st ≠ .busy ∧ decodeCommand s.cmd = .rldec ∧ (∃ t, CallEnds s 5 t) ∧
      rlDecode s.callText = .ok [true] ∧ s.caps.dig.fits 1 = true) ∧
    (let s := sized 2 (withText 0b011#3 [0x30#8, 0x20#8])
     s.st ≠ .busy ∧ decodeCommand s.cmd = .rldec ∧ (∃ t, CallEnds s 4 t) ∧
      (∃ e, rlDecode s.callText = .error e) ∧ s.caps.dig.fits (s.cinLen - 2) = true) :=
  ⟨⟨by decide, by decide, ⟨_, by decide, rfl, rfl⟩, rfl, by decide⟩,
   ⟨by decide, by decide, ⟨_, by decide, rfl, rfl⟩, ⟨_, rfl⟩, by decide⟩⟩

/-- Buffers that just hold `"0 0 00 0"`. -/
theorem witness_RlencCallResult :
    (let s := sized 8 (withDigits 0b100#3 [true, false])
     s.st ≠ .busy ∧ decodeCommand s.cmd = .rlenc ∧ (∃ t, CallEnds s 4 t) ∧
      s.caps.cout.fits (rlEncode s.callDigits).length = true) :=
  ⟨by decide, by decide, ⟨_, by decide, rfl, rfl⟩, by decide⟩

theorem witness_TotxtCallResult :
    (let s := withDigits 0b101#3 digitsOfA
     s.st ≠ .busy ∧ decodeCommand s.cmd = .totxt ∧ (∃ t, CallEnds s 3 t) ∧ toText s.callDigits = .ok [0x41#8] ∧
      s.caps.cout.fits 1 = true) ∧
    (let s := withDigits 0b101#3 (List.replicate 6 true)
     s.st ≠ .busy ∧ decodeCommand s.cmd = .totxt ∧ (∃ t, CallEnds s 2 t) ∧
      ∃ e, toText s.callDigits = .error e) :=
  ⟨⟨by decide, by decide, ⟨_, by decide, rfl, rfl⟩, rfl, by decide⟩,
   ⟨by decide, by decide, ⟨_, by decide, rfl, rfl⟩, ⟨_, rfl⟩⟩⟩

theorem witness_EncCallResult :
    (let s := withText 0b110#3 [0x41#8]
     s.st ≠ .busy ∧ decodeCommand s.cmd = .enc ∧ (∃ t, CallEnds s 11 t) ∧ (∃ c, encodeText s.callText = .ok c) ∧
      s.caps.dig.fits (Config.W * s.cinLen) = true ∧ ∀ c : List Code, s.caps.cout.fits c.length = true) ∧
    (let s := withText 0b110#3 [0x41#8, 0xC8#8]
     s.st ≠ .busy ∧ decodeCommand s.cmd = .enc ∧ (∃ t, CallEnds s 3 t) ∧
      (∃ e, encodeText s.callText = .error e)) :=
  ⟨⟨by decide, by decide, ⟨_, by decide, rfl, rfl⟩, ⟨_, rfl⟩, by decide, fun _ => rfl⟩,
   ⟨by decide, by decide, ⟨_, by decide, rfl, rfl⟩, ⟨_, rfl⟩⟩⟩

/-- The golden vector's first token alone is one digit; a run of seven decodes; a lone space is malformed. -/
theorem witness_DecCallResult :
    (let s := withText 0b111#3 ([0x30#8, 0x20#8] ++ List.replicate 7 0x30#8)
     s.st ≠ .busy ∧ decodeCommand s.cmd = .dec ∧ (∃ t, CallEnds s 13 t) ∧ (∃ c, decodeText s.callText = .ok c) ∧
      s.caps.dig.fits 7 = true ∧ s.caps.cout.fits 1 = true) ∧
    (let s := withText 0b111#3 [0x30#8, 0x20#8, 0x30#8]
     (∃ t, CallEnds s 6 t) ∧ decodeText s.callText = .error .invalidLength) ∧
    (let s := withText 0b111#3 [0x20#8]
     (∃ t, CallEnds s 2 t) ∧ decodeText s.callText = .error .malformedCipher ∧
      s.caps.dig.fits (s.cinLen - 2) = true) :=
  ⟨⟨by decide, by decide, ⟨_, by decide, rfl, rfl⟩, ⟨_, rfl⟩, by decide, by decide⟩,
   ⟨⟨_, by decide, rfl, rfl⟩, rfl⟩, ⟨⟨_, by decide, rfl, rfl⟩, rfl, by decide⟩⟩

/-- Buffers of exactly the sizes of R192, for a command of each kind. -/
theorem witness_CallWithRoomEnds :
    (sized 7 (withText 0b010#3 [0x41#8])).Room ∧ (sized 1 (withText 0b011#3 [0x30#8, 0x20#8, 0x30#8])).Room ∧
    (sized 34 (withText 0b110#3 [0x41#8])).Room ∧
    (sized 7 (withText 0b111#3 ([0x30#8, 0x20#8] ++ List.replicate 7 0x30#8))).Room ∧
    (sized 4 (withDigits 0b100#3 [true])).Room ∧ (sized 1 (withDigits 0b101#3 digitsOfA)).Room ∧
    (sized 7 (withText 0b010#3 [0x41#8])).st ≠ .busy := by
  refine ⟨?_, ?_, ?_, ?_, ?_, ?_, by decide⟩ <;> constructor <;> decide

/-- One element too few, for each of the six cases. -/
theorem witness_CallThatDoesNotFitIsRefused :
    (let s := sized 6 (withText 0b010#3 [0x41#8])
     s.st ≠ .busy ∧ decodeCommand s.cmd = .tobin ∧
      ∃ d, toBinary s.callText = .ok d ∧ s.caps.dig.fits d.length = false) ∧
    (let s := sized 0 (withText 0b011#3 [0x30#8, 0x20#8, 0x30#8])
     decodeCommand s.cmd = .rldec ∧ ∃ d, rlDecode s.callText = .ok d ∧ s.caps.dig.fits d.length = false) ∧
    (let s := sized 2 (withDigits 0b100#3 [true])
     decodeCommand s.cmd = .rlenc ∧ s.caps.cout.fits (rlEncode s.callDigits).length = false) ∧
    (let s := sized 0 (withDigits 0b101#3 digitsOfA)
     decodeCommand s.cmd = .totxt ∧ ∃ c, toText s.callDigits = .ok c ∧ s.caps.cout.fits c.length = false) ∧
    (let s := sized 15 (withText 0b110#3 [0x41#8])
     decodeCommand s.cmd = .enc ∧ ∃ c, encodeText s.callText = .ok c ∧ s.caps.cout.fits c.length = false) ∧
    (let s : State := { withText 0b111#3 ([0x30#8, 0x20#8] ++ List.replicate 7 0x30#8) with
       caps := { Capacities.unbounded with cout := some 0 } }
     decodeCommand s.cmd = .dec ∧ ∃ c, decodeText s.callText = .ok c ∧ s.caps.cout.fits c.length = false) :=
  ⟨⟨by decide, by decide, _, rfl, by decide⟩, ⟨by decide, _, rfl, by decide⟩, ⟨by decide, by decide⟩,
   ⟨by decide, _, rfl, by decide⟩, ⟨by decide, _, rfl, by decide⟩, ⟨by decide, _, rfl, by decide⟩⟩

/-- `"00 0"`: one filler. -/
theorem witness_LengthValidation :
    (withText 0b111#3 [0x30#8, 0x30#8, 0x20#8, 0x30#8]).st ≠ .busy ∧
    ParsesAs (withText 0b111#3 [0x30#8, 0x30#8, 0x20#8, 0x30#8]).callText [(false, 1)] ∧
    ([(false, 1)].map Prod.snd : List Nat).sum % Config.W ≠ 0 ∧
    decodeCommand (withText 0b111#3 [0x30#8, 0x30#8, 0x20#8, 0x30#8]).cmd = .dec ∧
    decodeCommand (withText 0b011#3 [0x30#8, 0x30#8, 0x20#8, 0x30#8]).cmd = .rldec ∧
    (∃ t, CallEnds (withText 0b111#3 [0x30#8, 0x30#8, 0x20#8, 0x30#8]) 7 t) ∧
    (∃ t, CallEnds (withText 0b011#3 [0x30#8, 0x30#8, 0x20#8, 0x30#8]) 6 t) ∧
    (sized 1 State.reset).caps.dig.fits ([(false, 1)].map Prod.snd : List Nat).sum = true :=
  ⟨by decide, ⟨by decide, by decide, .inl rfl⟩, by decide, by decide, by decide,
   ⟨_, by decide, rfl, rfl⟩, ⟨_, by decide, rfl, rfl⟩, by decide⟩

/-- `"0 0a"`. -/
theorem witness_OtherCharactersAreRejected :
    (withText 0b111#3 [0x30#8, 0x20#8, 0x30#8, 0x61#8]).st ≠ .busy ∧
    decodeCommand (withText 0b111#3 [0x30#8, 0x20#8, 0x30#8, 0x61#8]).cmd = .dec ∧
    0x61#8 ∈ (withText 0b111#3 [0x30#8, 0x20#8, 0x30#8, 0x61#8]).callText ∧
    0x61#8 ≠ 0x30#8 ∧ 0x61#8 ≠ 0x20#8 ∧
    (∃ t, CallEnds (withText 0b111#3 [0x30#8, 0x20#8, 0x30#8, 0x61#8]) 5 t) ∧
    (sized 2 (withText 0b111#3 [0x30#8, 0x20#8, 0x30#8, 0x61#8])).caps.dig.fits (4 - 2) = true :=
  ⟨by decide, by decide, by decide, by decide, by decide, ⟨_, by decide, rfl, rfl⟩, by decide⟩

theorem witness_EmptyInputGivesEmptyOutput :
    (let s := withText 0b110#3 []
     s.st ≠ .busy ∧ s.control.fe = true ∧ s.cinLen = 0) ∧
    (let s := withDigits 0b101#3 []
     s.st ≠ .busy ∧ s.control.fe = false ∧ s.control.be = true ∧ s.digLen = 0) := by decide

/-- The same text after reset and after a failed call that left other registers behind; the same digits beside
different texts. -/
theorem witness_ResultDependsOnTheInputAlone :
    (let s := withText 0b110#3 [0x41#8]
     let t : State := { withText 0b110#3 [0x41#8] with st := .done, err := .malformedCipher, ip := 3, ds := .g }
     s.st ≠ .busy ∧ t.st ≠ .busy ∧ SameInput s t) ∧
    (let s := withDigits 0b100#3 [true]
     let t : State := { withDigits 0b100#3 [true] with cinLen := 5, prev := true }
     s.st ≠ .busy ∧ t.st ≠ .busy ∧ SameInput s t) :=
  ⟨⟨by decide, by decide, rfl, fun _ => ⟨rfl, fun i hi => by
      have : i = 0 := Nat.lt_one_iff.1 hi
      subst this; exact ⟨rfl, rfl⟩⟩, fun h => absurd h (by decide)⟩,
   ⟨by decide, by decide, rfl, fun h => absurd h (by decide), fun _ => ⟨rfl, fun i hi => by
      have : i = 0 := Nat.lt_one_iff.1 hi
      subst this; exact ⟨rfl, rfl⟩⟩⟩⟩

/-- Two calls on the same input that end, in buffers of the sizes of R192. -/
theorem witness_ResultDependsOnTheInputAlone_ends :
    (∃ t, CallEnds (withText 0b110#3 [0x41#8]) 11 t) ∧ (withText 0b110#3 [0x41#8]).Room :=
  ⟨⟨_, by decide, rfl, rfl⟩, by constructor <;> decide⟩

/-- A text that was written, in buffers of the sizes of R192, and the three calls. -/
theorem witness_EncIsTobinThenRlenc :
    (∃ t, CallEnds (withText 0b010#3 [0x41#8]) 3 t ∧ t.err = .none ∧
      ∃ u, CallEnds { t with cmd := 0b100#3 } 9 u) ∧
    (∃ v, CallEnds (withText 0b110#3 [0x41#8]) 11 v) ∧ (withText 0b110#3 [0x41#8]).Room ∧
    (withText 0b000#3 [0x41#8]).st ≠ .busy ∧
    Memory.Written (withText 0b000#3 [0x41#8]).cin (withText 0b000#3 [0x41#8]).cinLen :=
  ⟨⟨_, ⟨by decide, rfl, rfl⟩, rfl, _, by decide, rfl, rfl⟩, ⟨_, by decide, rfl, rfl⟩,
   by constructor <;> decide, by decide, fun i hi => by
    have : i = 0 := Nat.lt_one_iff.1 hi
    subst this; rfl⟩

/-- A cipher text that was written, in buffers of the sizes of R192, and the three calls on `"0 0"`, whose one digit
stops TOTXT; a call of RLDEC that fails. -/
theorem witness_DecIsRldecThenTotxt :
    (∃ t, CallEnds (withText 0b011#3 [0x30#8, 0x20#8, 0x30#8]) 5 t ∧ t.err = .none ∧
      ∃ u, CallEnds { t with cmd := 0b101#3 } 2 u) ∧
    (∃ v, CallEnds (withText 0b111#3 [0x30#8, 0x20#8, 0x30#8]) 6 v) ∧
    (withText 0b111#3 [0x30#8, 0x20#8, 0x30#8]).Room ∧
    (∃ t, CallEnds (withText 0b011#3 [0x30#8]) 3 t ∧ t.err ≠ .none) ∧
    (withText 0b000#3 [0x30#8]).st ≠ .busy ∧
    Memory.Written (withText 0b000#3 [0x30#8]).cin (withText 0b000#3 [0x30#8]).cinLen :=
  ⟨⟨_, ⟨by decide, rfl, rfl⟩, rfl, _, by decide, rfl, rfl⟩, ⟨_, by decide, rfl, rfl⟩,
   by constructor <;> decide, ⟨_, ⟨by decide, rfl, rfl⟩, by decide⟩, by decide, fun i hi => by
    have : i = 0 := Nat.lt_one_iff.1 hi
    subst this; rfl⟩

/-- The largest character in range. -/
theorem witness_EncThenDecGivesTheTextBack :
    (withText 0b110#3 [0x7F#8]).st ≠ .busy ∧ (withText 0b110#3 [0x7F#8]).cinLen = [0x7F#8].length ∧
    Memory.Holds (withText 0b110#3 [0x7F#8]).cin [0x7F#8] ∧ (∀ c ∈ [0x7F#8], c.toNat < 2 ^ Config.W) ∧
    (sized 9 (withText 0b110#3 [0x7F#8])).caps.dig.fits (Config.W * 1) = true ∧
    (∃ c, encodeText [0x7F#8] = .ok c ∧ (sized 9 (withText 0b110#3 [0x7F#8])).caps.cout.fits c.length = true) :=
  ⟨by decide, rfl, fun i hi => by
    have : i = 0 := Nat.lt_one_iff.1 hi
    subst this; rfl, by decide, by decide, _, rfl, by decide⟩

theorem witness_HostProtocolDeliversTheResult :
    (∃ c, encodeText [0x41#8] = .ok c ∧
      (let s : State := { State.reset with pending := hostScript 0b110#3 [0x41#8] c.length }
       s.st ≠ .busy ∧ s.caps.cin.fits 1 = true ∧
        ({ s with cmd := encodeCommand .enc, cinLen := 1 } : State).Room)) ∧
    (∃ e, decodeText [0x30#8] = .error e ∧
      (let s : State := { State.reset with pending := hostScript 0b111#3 [0x30#8] 0 }
       s.st ≠ .busy ∧ s.caps.cin.fits 1 = true ∧
        ({ s with cmd := encodeCommand .dec, cinLen := 1 } : State).Room)) := by
  refine ⟨⟨_, rfl, by decide, by decide, ?_⟩, ⟨_, rfl, by decide, by decide, ?_⟩⟩ <;> constructor <;> decide

/-- The first and the last index of a field. -/
theorem witness_FieldIsMostSignificantFirst : 0 < Config.W ∧ 6 < Config.W := by decide

theorem witness_ToBinaryFollowsItsDefinition :
    (0x7F#8).toNat < 2 ^ Config.W ∧ (∃ d, toBinary [0x00#8] = .ok d) ∧
    (∃ c ∈ [0x41#8, 0x80#8], 2 ^ Config.W ≤ c.toNat) :=
  ⟨by decide, ⟨_, rfl⟩, by decide⟩

theorem witness_ToTextFollowsItsDefinition :
    [true].length % Config.W ≠ 0 ∧ digitsOfA.length = Config.W ∧ (∃ c, toText digitsOfA = .ok c) :=
  ⟨by decide, by decide, ⟨_, rfl⟩⟩

theorem witness_BitPackerRoundTrip :
    (∀ c ∈ [0x00#8, 0x7F#8], c.toNat < 2 ^ Config.W) ∧ (digitsOfA ++ digitsOfA).length % Config.W = 0 := by decide

/-- Two runs, in a list of tokens that alternates. -/
theorem witness_EncoderEmitsOneTokenPerRun :
    (∀ r ∈ [(true, 1), (false, 5)], 1 ≤ r.2) ∧
    List.IsChain (fun a b : Digit × Nat => a.1 ≠ b.1) [(true, 1), (false, 5)] ∧
    digitsOfTokens [(true, 1), (false, 5)] = [true, false, false, false, false, false] := by decide

theorem witness_EncoderOutputShape : digitsOfA ≠ [] := by decide

/-- A parse with the optional space at its end, and an input with none. -/
theorem witness_RlDecodeFollowsTheGrammar :
    ParsesAs [0x30#8, 0x20#8, 0x30#8, 0x20#8] [(true, 1)] ∧
    [0x20#8] ≠ ([] : List Code) ∧ ¬∃ ts, ParsesAs [0x20#8] ts := by
  refine ⟨⟨by decide, by decide, .inr rfl⟩, by decide, ?_⟩
  rintro ⟨_ | ⟨⟨b, n⟩, _ | ⟨u, us⟩⟩, hne, _, h⟩
  · exact hne rfl
  · cases b <;> simp [joinTokens, token, tokenMark] at h
  · cases b <;> simp [joinTokens, token, tokenMark] at h

theorem witness_ScannerDecidesTheGrammar :
    (∃ d, rlDecode [0x30#8, 0x20#8, 0x30#8] = .ok d) ∧ rlDecode [0x30#8] = .error .malformedCipher :=
  ⟨⟨_, rfl⟩, rfl⟩

theorem witness_RunLengthRoundTrip : ∃ d, rlDecode (rlEncode digitsOfA) = .ok d := ⟨_, rfl⟩

/-- The shortest cipher text with a digit. -/
theorem witness_DecodedDigitBound :
    (∃ d, rlDecode [0x30#8, 0x20#8, 0x30#8] = .ok d) ∧ (∃ d, rlDecode [] = .ok d) :=
  ⟨⟨_, rfl⟩, ⟨_, rfl⟩⟩

end Sys2Proof.Tests
end

section
/-! PROOFS. What does not fit is refused: a host write, and a transition without room. -/

namespace Sys2Proof.Machine

open Sys2Proof

/-- A host write between calls of a value that does not fit is refused. -/
theorem hostWrite_of_not_fits {s t : State} {f : Bool} (hs : s.st ≠ .busy) (hf : f = false) :
    hostWrite s f t = .refused .capacityExceeded := by
  simp [hostWrite, hs, hf]

/-- Whether a transition has room depends on the lengths it leads to and on the capacities it starts from. -/
theorem State.roomFor_false_iff (s t : State) : s.roomFor t = false ↔
    (s.digLen < t.digLen ∧ s.caps.dig.fits t.digLen = false) ∨
    (s.coutLen < t.coutLen ∧ s.caps.cout.fits t.coutLen = false) := by
  rw [← Bool.not_eq_true, State.roomFor_iff, not_and_or, not_or, not_or]
  simp only [Nat.not_le, Bool.not_eq_true]

end Sys2Proof.Machine
end

section
/-! PROOFS. The scanner of R155 and the grammar of R91 accept the same texts, with the same digits (R158): both are read
off the fields of the text. -/

namespace Sys2Proof.Machine

open Sys2Proof

/-- The digits of a list of fields, two fields a token, where one empty field may stand after the last token: the
field that a trailing space opens (R91). -/
def digitsOfFields : List (List Code) → Option (List Digit)
  | [] => some []
  | [f] => if f = [] then some [] else none
  | p :: r :: rest =>
    match bitOfMark p with
    | some b =>
      if r ≠ [] ∧ r.all (· == Config.codeZero) then
        (digitsOfFields rest).map (List.replicate r.length b ++ ·)
      else none
    | none => none

/-- The fields of a text are never none at all. -/
theorem splitAtSpaces_ne_nil (c : List Code) : splitAtSpaces c ≠ [] := by
  cases c with
  | nil => simp [splitAtSpaces]
  | cons x c =>
    unfold splitAtSpaces
    split
    · simp
    · split <;> simp

@[simp] theorem splitAtSpaces_space (c : List Code) :
    splitAtSpaces (Config.codeSpace :: c) = [] :: splitAtSpaces c := by
  simp [splitAtSpaces]

/-- A character that is no space extends the first field. -/
theorem splitAtSpaces_cons {x : Code} {c f : List Code} {fs : List (List Code)} (hx : x ≠ Config.codeSpace)
    (h : splitAtSpaces c = f :: fs) : splitAtSpaces (x :: c) = (x :: f) :: fs := by
  rw [splitAtSpaces, if_neg hx, h]

/-- A trailing space opens one more field, an empty one. -/
theorem splitAtSpaces_append_space (c : List Code) :
    splitAtSpaces (c ++ [Config.codeSpace]) = splitAtSpaces c ++ [[]] := by
  induction c with
  | nil => simp [splitAtSpaces]
  | cons x c ih =>
    by_cases hx : x = Config.codeSpace
    · subst hx; simp [ih]
    · obtain ⟨f, fs, hc⟩ := List.exists_cons_of_ne_nil (splitAtSpaces_ne_nil c)
      rw [splitAtSpaces_cons hx hc, List.cons_append, List.cons_append]
      exact splitAtSpaces_cons hx (by rw [ih, hc]; rfl)

/-- The last field of a text that ends in no space is not empty. -/
theorem splitAtSpaces_getLast?_ne (c : List Code) (hc : c ≠ []) (h : c.getLast? ≠ some Config.codeSpace) :
    (splitAtSpaces c).getLast? ≠ some [] := by
  induction c with
  | nil => exact absurd rfl hc
  | cons x c ih =>
    obtain ⟨f, fs, hs⟩ := List.exists_cons_of_ne_nil (splitAtSpaces_ne_nil c)
    rcases c.eq_nil_or_concat with rfl | ⟨c', y, hy⟩
    · have hx : x ≠ Config.codeSpace := by simpa using h
      simp [splitAtSpaces, hx]
    · have hne : c ≠ [] := by simp [hy]
      have hlast : c.getLast? ≠ some Config.codeSpace := by
        rw [List.getLast?_cons_of_ne_nil hne] at h
        exact h
      have hrest := ih hne hlast
      by_cases hx : x = Config.codeSpace
      · subst hx
        rw [splitAtSpaces_space, List.getLast?_cons_of_ne_nil (splitAtSpaces_ne_nil c)]
        exact hrest
      · rw [splitAtSpaces_cons hx hs]
        rw [hs] at hrest
        cases fs with
        | nil => simp
        | cons g gs => simpa using hrest

/-- The digits of the tokens of a list of fields, by its first two fields. -/
theorem tokensOfFields_digits_cons (p r : List Code) (rest : List (List Code)) :
    (tokensOfFields (p :: r :: rest)).map digitsOfTokens =
      (match bitOfMark p with
       | some b =>
         if r ≠ [] ∧ r.all (· == Config.codeZero) then
           ((tokensOfFields rest).map digitsOfTokens).map (List.replicate r.length b ++ ·)
         else none
       | none => none) := by
  rw [tokensOfFields]
  cases bitOfMark p with
  | none => rfl
  | some b =>
    cases tokensOfFields rest with
    | none => simp
    | some ts =>
      simp only [Option.map_some]
      split <;> rfl

/-- With the empty field of a trailing space after it, a list of fields has the digits of its tokens. -/
theorem digitsOfFields_append_nil : ∀ fs : List (List Code),
    digitsOfFields (fs ++ [[]]) = (tokensOfFields fs).map digitsOfTokens
  | [] => rfl
  | [f] => by
    simp only [List.singleton_append, digitsOfFields, tokensOfFields]
    cases bitOfMark f <;> simp
  | p :: r :: rest => by
    rw [tokensOfFields_digits_cons, ← digitsOfFields_append_nil rest]
    rfl

/-- So has a list of fields whose last is not empty. -/
theorem digitsOfFields_of_getLast?_ne : ∀ fs : List (List Code), fs.getLast? ≠ some [] →
    digitsOfFields fs = (tokensOfFields fs).map digitsOfTokens
  | [], _ => rfl
  | [f], h => by
    have hf : f ≠ [] := by simpa using h
    simp [digitsOfFields, tokensOfFields, hf]
  | p :: r :: rest, h => by
    have hrest : rest.getLast? ≠ some [] := by
      cases rest with
      | nil => simp
      | cons g gs => simpa using h
    rw [tokensOfFields_digits_cons, ← digitsOfFields_of_getLast?_ne rest hrest]
    rfl

/-- `rlDecode` of a text that is not empty, by its fields. -/
theorem parseCipher_digits (c : List Code) (hc : c ≠ []) :
    (parseCipher c).map digitsOfTokens = digitsOfFields (splitAtSpaces c) := by
  unfold parseCipher dropTrailingSpace
  by_cases h : c.getLast? = some Config.codeSpace
  · obtain ⟨c', rfl⟩ := List.getLast?_eq_some_iff.1 h
    rw [if_pos h, List.dropLast_concat, splitAtSpaces_append_space, digitsOfFields_append_nil]
  · rw [if_neg h, digitsOfFields_of_getLast?_ne _ (splitAtSpaces_getLast?_ne c hc h)]

/-- What a scanner state still accepts, by the fields of the characters to come, and the digits it then appends:
P1 and P2 have read part of a mark; G and R are in a filler of bit `tb`, which may end at once in R only. -/
def ScanState.digitsOfRest (tb : Digit) : ScanState → List (List Code) → Option (List Digit)
  | .s0, fs => digitsOfFields fs
  | .e, fs => digitsOfFields fs
  | .p1, f :: fs => digitsOfFields ((Config.codeZero :: f) :: fs)
  | .p2, f :: fs => digitsOfFields ((Config.codeZero :: Config.codeZero :: f) :: fs)
  | .g, f :: fs =>
    if f ≠ [] ∧ f.all (· == Config.codeZero) then (digitsOfFields fs).map (List.replicate f.length tb ++ ·) else none
  | .r, f :: fs =>
    if f.all (· == Config.codeZero) then (digitsOfFields fs).map (List.replicate f.length tb ++ ·) else none
  | _, [] => none

/-- The digits staged by an accepted scan (R157). -/
def acceptedDigits : Option (ScanState × Digit × List Digit) → Option (List Digit)
  | some (ds, _, out) => if scanAccepts ds then some out else none
  | none => none

/-- A field that is no mark starts no token, whatever follows it; alone and empty it is that of a trailing space. -/
theorem digitsOfFields_of_not_mark {p : List Code} {fs : List (List Code)} (hp : bitOfMark p = none)
    (h : p ≠ [] ∨ fs ≠ []) : digitsOfFields (p :: fs) = none := by
  cases fs with
  | nil =>
    have hne : p ≠ [] := by simpa using h
    simp [digitsOfFields, hne]
  | cons r rest => simp [digitsOfFields, hp]

/-- The first character of the rest goes through the table of R155 like any other. -/
theorem ScanState.digitsOfRest_cons (ds : ScanState) (tb : Digit) (x : Code) (c : List Code) :
    ds.digitsOfRest tb (splitAtSpaces (x :: c)) =
      (match scanCell ds (classify x) with
       | some (ds', .none) => ds'.digitsOfRest tb (splitAtSpaces c)
       | some (ds', .setTb b) => ds'.digitsOfRest b (splitAtSpaces c)
       | some (ds', .appendTb) => (ds'.digitsOfRest tb (splitAtSpaces c)).map (tb :: ·)
       | none => none) := by
  obtain ⟨f, fs, hs⟩ := List.exists_cons_of_ne_nil (splitAtSpaces_ne_nil c)
  by_cases hz : x = Config.codeZero
  · subst hz
    rw [splitAtSpaces_cons (by decide) hs, hs, classify_zero]
    cases ds with
    | s0 | e | p1 => rfl
    | p2 => exact digitsOfFields_of_not_mark (by simp [bitOfMark, tokenMark]) (by simp)
    | g | r =>
      by_cases hf : f.all (· == Config.codeZero) = true
      · simp [digitsOfRest, scanCell, hf, List.replicate_succ, Function.comp_def]
      · simp [digitsOfRest, scanCell, hf]
  · by_cases hsp : x = Config.codeSpace
    · subst hsp
      rw [splitAtSpaces_space, hs, classify_space]
      cases ds with
      | s0 | e => exact digitsOfFields_of_not_mark (by decide) (by simp)
      | p1 | p2 => rfl
      | g => simp [digitsOfRest, scanCell]
      | r => simp [digitsOfRest, scanCell]
    · rw [splitAtSpaces_cons hsp hs, classify_other x hz hsp]
      have hmark : bitOfMark (x :: f) = none ∧ bitOfMark (Config.codeZero :: x :: f) = none ∧
          bitOfMark (Config.codeZero :: Config.codeZero :: x :: f) = none := by
        simp [bitOfMark, tokenMark, hz]
      obtain ⟨h0, h1, h2⟩ := hmark
      cases ds with
      | s0 | e => exact digitsOfFields_of_not_mark h0 (by simp)
      | p1 => exact digitsOfFields_of_not_mark h1 (by simp)
      | p2 => exact digitsOfFields_of_not_mark h2 (by simp)
      | g | r => simp [digitsOfRest, scanCell, hz]

/-- Scanning a text to its end accepts what the fields of the text give (R158). -/
theorem acceptedDigits_scanText (c : List Code) (ds : ScanState) (tb : Digit) (out : List Digit) :
    acceptedDigits (scanText ds tb out c) = (ds.digitsOfRest tb (splitAtSpaces c)).map (out ++ ·) := by
  induction c generalizing ds tb out with
  | nil =>
    cases ds <;> simp [scanText, acceptedDigits, scanAccepts, splitAtSpaces, ScanState.digitsOfRest, digitsOfFields]
  | cons x c ih =>
    rw [ScanState.digitsOfRest_cons, scanText]
    cases scanCell ds (classify x) with
    | none => rfl
    | some p =>
      obtain ⟨ds', a⟩ := p
      cases a with
      | none | setTb b => exact ih ..
      | appendTb => simp [ih, Function.comp_def]

/-- The scanner of R155 decides the grammar: `rlDecode` answers the digits of an accepted scan, and MalformedCipher
where the scan is not accepted. -/
theorem rlDecode_eq_acceptedDigits (c : List Code) :
    rlDecode c = (match acceptedDigits (scanText .s0 false [] c) with
      | some d => .ok d
      | none => .error .malformedCipher) := by
  by_cases hc : c = []
  · subst hc; rfl
  · have hscan : acceptedDigits (scanText .s0 false [] c) = (parseCipher c).map digitsOfTokens := by
      rw [acceptedDigits_scanText, parseCipher_digits c hc]
      simp [ScanState.digitsOfRest]
    rw [hscan, rlDecode, if_neg hc]
    cases parseCipher c <;> rfl

theorem rlDecode_ok_iff (c : List Code) (d : List Digit) :
    rlDecode c = .ok d ↔ ∃ ds tb, scanText .s0 false [] c = some (ds, tb, d) ∧ scanAccepts ds = true := by
  rw [rlDecode_eq_acceptedDigits]
  cases scanText .s0 false [] c with
  | none => simp [acceptedDigits]
  | some p =>
    obtain ⟨ds, tb, out⟩ := p
    cases h : scanAccepts ds <;> simp [acceptedDigits, h]

end Sys2Proof.Machine
end

section
/-! PROOFS. What a block step does, as one inversion with the guards of R184, and what no block step changes. -/

namespace Sys2Proof.Machine

open Sys2Proof

/-- Why a block step raises an error kind (R111, R115, R156, R157). -/
inductive Raises (c : Control) (s : State) : ErrKind → Prop where
  | outOfRange (stage : s.stage = .front) (dir : c.dir = false) (ip : s.ip < s.cinLen)
      (char : inRange (s.cinAt s.ip) = false) : Raises c s .characterOutOfRange
  | errorCell (stage : s.stage = .front) (dir : c.dir = true) (ip : s.ip < s.cinLen)
      (cell : scanCell s.ds (classify (s.cinAt s.ip)) = none) : Raises c s .malformedCipher
  | unfinished (stage : s.stage = .front) (dir : c.dir = true) (ip : s.cinLen ≤ s.ip)
      (accepts : scanAccepts s.ds = false) : Raises c s .malformedCipher
  | partialGroup (stage : s.stage = .back) (dir : c.dir = true) (ip : s.ip = 0)
      (len : s.digLen % Config.W ≠ 0) : Raises c s .invalidLength

/-- What a block step does: the four ways to consume an element, FrontDone, Finish and Fail, each with the guard
under which the stage and the direction choose it (R184). -/
inductive BlockCase (c : Control) (s : State) : State → Prop where
  | tobinChar (stage : s.stage = .front) (dir : c.dir = false) (ip : s.ip < s.cinLen)
      (char : inRange (s.cinAt s.ip) = true) : BlockCase c s (s.appendDig (field (s.cinAt s.ip))).advance
  | rldecChar (stage : s.stage = .front) (dir : c.dir = true) (ip : s.ip < s.cinLen) (ds : ScanState) (a : ScanAction)
      (cell : scanCell s.ds (classify (s.cinAt s.ip)) = some (ds, a)) :
      BlockCase c s { (s.scanAct a).advance with ds := ds }
  | rlencDigit (stage : s.stage = .back) (dir : c.dir = false) (ip : s.ip < s.digLen) :
      BlockCase c s { (s.appendCout s.emitted).advance with prev := s.digAt s.ip }
  | totxtGroup (stage : s.stage = .back) (dir : c.dir = true) (len : ¬(s.ip = 0 ∧ s.digLen % Config.W ≠ 0))
      (ip : s.ip * Config.W ≠ s.digLen) : BlockCase c s
        (s.appendCout [codeOfValue (groupValue fun i => s.digAt (s.ip * Config.W + i))]).advance
  | frontDone (stage : s.stage = .front) (ip : s.cinLen ≤ s.ip) (accepts : c.dir = true → scanAccepts s.ds = true) :
      BlockCase c s (s.frontDone c)
  | rlencFinish (stage : s.stage = .back) (dir : c.dir = false) (ip : s.digLen ≤ s.ip) : BlockCase c s (s.finish c)
  | totxtFinish (stage : s.stage = .back) (dir : c.dir = true) (len : ¬(s.ip = 0 ∧ s.digLen % Config.W ≠ 0))
      (ip : s.ip * Config.W = s.digLen) : BlockCase c s (s.finish c)
  | raise (e : ErrKind) (why : Raises c s e) : BlockCase c s (s.fail c e)

/-- Every block step is one of these cases. -/
theorem blockStep_case (c : Control) (s : State) : BlockCase c s (blockStep c s) := by
  cases hs : s.stage with
  | front =>
    cases hd : c.dir with
    | false =>
      rw [blockStep_front_encode c s hs hd]
      obtain ⟨hip, hr, e⟩ | ⟨hip, hr, e⟩ | ⟨hip, e⟩ := tobinStep_cases c s <;> rw [e]
      · exact .tobinChar hs hd hip hr
      · exact .raise _ (.outOfRange hs hd hip hr)
      · exact .frontDone hs hip (by simp [hd])
    | true =>
      rw [blockStep_front_decode c s hs hd]
      obtain ⟨hip, ds, a, hcell, e⟩ | ⟨hip, hcell, e⟩ | ⟨hip, hacc, e⟩ | ⟨hip, hacc, e⟩ := rldecStep_cases c s <;>
        rw [e]
      · exact .rldecChar hs hd hip ds a hcell
      · exact .raise _ (.errorCell hs hd hip hcell)
      · exact .frontDone hs hip (fun _ => hacc)
      · exact .raise _ (.unfinished hs hd hip hacc)
  | back =>
    cases hd : c.dir with
    | false =>
      rw [blockStep_back_encode c s hs hd]
      obtain ⟨hip, e⟩ | ⟨hip, e⟩ := rlencStep_cases c s <;> rw [e]
      · exact .rlencDigit hs hd hip
      · exact .rlencFinish hs hd hip
    | true =>
      rw [blockStep_back_decode c s hs hd]
      obtain ⟨⟨hip, hlen⟩, e⟩ | ⟨hlen, hip, e⟩ | ⟨hlen, hip, e⟩ := totxtStep_cases c s <;> rw [e]
      · exact .raise _ (.partialGroup hs hd hip hlen)
      · exact .totxtFinish hs hd hlen hip
      · exact .totxtGroup hs hd hlen hip

/-- No block step changes what the host wrote, the number of the call, or the capacities. -/
theorem blockStep_frame (c : Control) (s : State) : blockStep c s =
    { blockStep c s with cmd := s.cmd, cin := s.cin, cinLen := s.cinLen, calls := s.calls, caps := s.caps } := by
  have h := blockStep_case c s
  generalize blockStep c s = t at h ⊢
  cases h with
  | rldecChar _ _ _ ds a => cases a <;> rfl
  | frontDone =>
    unfold State.frontDone
    split <;> rfl
  | tobinChar | rlencDigit | totxtGroup | rlencFinish | totxtFinish | raise => rfl

@[simp] theorem blockStep_cmd (c : Control) (s : State) : (blockStep c s).cmd = s.cmd := by
  rw [blockStep_frame]
@[simp] theorem blockStep_cin (c : Control) (s : State) : (blockStep c s).cin = s.cin := by
  rw [blockStep_frame]
@[simp] theorem blockStep_cinLen (c : Control) (s : State) : (blockStep c s).cinLen = s.cinLen := by
  rw [blockStep_frame]
@[simp] theorem blockStep_calls (c : Control) (s : State) : (blockStep c s).calls = s.calls := by
  rw [blockStep_frame]
@[simp] theorem blockStep_caps (c : Control) (s : State) : (blockStep c s).caps = s.caps := by
  rw [blockStep_frame]
@[simp] theorem blockStep_control (c : Control) (s : State) : (blockStep c s).control = s.control := by
  simp [State.control]

/-- CIN holds the same text before and after a block step. -/
@[simp] theorem blockStep_cinText (c : Control) (s : State) : (blockStep c s).cinText = s.cinText :=
  State.cinText_congr (by simp) (by simp) (by simp)

/-- A step of the back stage of a command without a front end leaves the host's digits alone. -/
theorem blockStep_digits_of_no_front {c : Control} {s : State} (hs : s.stage = .back) (hfe : c.fe = false) :
    (blockStep c s).dig = s.dig ∧ (blockStep c s).digLen = s.digLen := by
  have h := blockStep_case c s
  generalize blockStep c s = t at h ⊢
  cases h with
  | tobinChar stage | rldecChar stage | frontDone stage => simp [hs] at stage
  | rlencDigit | totxtGroup | rlencFinish | totxtFinish | raise => simp [hfe]

@[simp] theorem State.scanAct_st (s : State) (a : ScanAction) : (s.scanAct a).st = s.st := by cases a <;> rfl
@[simp] theorem State.scanAct_err (s : State) (a : ScanAction) : (s.scanAct a).err = s.err := by cases a <;> rfl
@[simp] theorem State.scanAct_cinLen (s : State) (a : ScanAction) : (s.scanAct a).cinLen = s.cinLen := by
  cases a <;> rfl
@[simp] theorem State.scanAct_coutLen (s : State) (a : ScanAction) : (s.scanAct a).coutLen = s.coutLen := by
  cases a <;> rfl
@[simp] theorem State.scanAct_ip (s : State) (a : ScanAction) : (s.scanAct a).ip = s.ip := by cases a <;> rfl
@[simp] theorem State.scanAct_stage (s : State) (a : ScanAction) : (s.scanAct a).stage = s.stage := by
  cases a <;> rfl

theorem State.scanAct_written {s : State} (a : ScanAction) (h : Memory.Written s.dig s.digLen) :
    Memory.Written (s.scanAct a).dig (s.scanAct a).digLen := by
  cases a with
  | appendTb => exact h.append [s.tb]
  | none | setTb b => exact h

end Sys2Proof.Machine
end

section
/-! PROOFS. The invariant of a call (`State.CallInv`): a GO makes it true and every block step keeps it. -/

namespace Sys2Proof.Machine

open Sys2Proof

/-! What the invariant of a call asks of a state whose call has ended, of one in FRONT and of one in BACK. -/

theorem State.CallInv.of_done {s : State} (hs : s.st = .done) (hw : Memory.Written s.cout s.coutLen)
    (he : s.err ≠ .none → s.coutLen = 0) : s.CallInv := by
  constructor
  case cout_written => exact hw
  case no_output_with_error => exact he
  all_goals simp [hs]

theorem State.CallInv.of_front {s : State} (hs : s.stage = .front) (he : s.err = .none) (hc : s.control.fe = true)
    (hip : s.ip ≤ s.cinLen) (h0 : s.coutLen = 0) (hw : Memory.Written s.dig s.digLen)
    (hd : s.control.dir = false → s.digLen = s.ip * Config.W) : s.CallInv := by
  constructor
  case cout_written => rw [h0]; exact Memory.written_zero _
  case front => exact fun _ _ => ⟨hip, h0, hw⟩
  case front_encode => exact fun _ _ => hd
  all_goals simp [hs, he, hc]

theorem State.CallInv.of_back {s : State} (hs : s.stage = .back) (he : s.err = .none) (hc : s.control.be = true)
    (hw : Memory.Written s.cout s.coutLen) (hd : s.control.fe = true → Memory.Written s.dig s.digLen)
    (henc : s.control.dir = false → s.ip ≤ s.digLen)
    (hdec : s.control.dir = true →
      s.ip * Config.W ≤ s.digLen ∧ s.coutLen = s.ip ∧ (s.ip ≠ 0 → s.digLen % Config.W = 0)) : s.CallInv := by
  constructor
  case cout_written => exact hw
  case back_written => exact fun _ _ => hd
  case back_encode => exact fun _ _ => henc
  case back_decode => exact fun _ _ => hdec
  all_goals simp [hs, he, hc]

/-- A GO makes the invariant of a call true. -/
theorem go_callInv (s : State) : (s.go s.control).CallInv := by
  have hctl : (s.go s.control).control = s.control := rfl
  by_cases hf : s.control.fe = true
  · exact .of_front (by simp [hf]) (by simp [hf]) (hctl ▸ hf) (by simp) rfl
      (by simp [hf, Memory.written_zero]) (by simp [hf])
  · by_cases hb : s.control.be = true
    · exact .of_back (by simp [hf, hb]) (by simp [hb]) (hctl ▸ hb) (Memory.written_zero _)
        (fun h => absurd (hctl ▸ h) hf) (by simp) (by simp)
    · exact .of_done (by simp [hf, hb]) (Memory.written_zero _) (fun _ => rfl)

/-- A block step keeps the invariant of a call. -/
theorem blockStep_callInv {s : State} (hb : s.st = .busy) (h : s.CallInv) :
    (blockStep s.control s).CallInv := by
  have hctl := blockStep_control s.control s
  have herr : s.err = .none := h.err_of_not_done (by simp [hb])
  have hcase := blockStep_case s.control s
  generalize blockStep s.control s = t at hctl hcase ⊢
  cases hcase with
  | tobinChar stage dir ip char =>
    obtain ⟨-, h0, hw⟩ := h.front hb stage
    have hfe := (h.stage_of_command hb).1 stage
    have hlen := h.front_encode hb stage dir
    exact .of_front stage herr (hctl ▸ hfe) ip h0 (hw.append _) fun _ => by simp [hlen, Nat.add_mul]
  | rldecChar stage dir ip ds a cell =>
    obtain ⟨-, h0, hw⟩ := h.front hb stage
    have hfe := (h.stage_of_command hb).1 stage
    exact .of_front (by simpa) (by simpa) (hctl ▸ hfe) (by simpa) (by simpa) (State.scanAct_written a hw)
      fun hd => absurd dir (by rw [← hctl, hd]; decide)
  | rlencDigit stage dir ip =>
    have hbe := (h.stage_of_command hb).2 stage
    exact .of_back stage herr (hctl ▸ hbe) (h.cout_written.append _)
      (fun hfe => h.back_written hb stage (hctl ▸ hfe)) (fun _ => ip)
      fun hd => absurd dir (by rw [← hctl, hd]; decide)
  | totxtGroup stage dir len ip =>
    have hbe := (h.stage_of_command hb).2 stage
    obtain ⟨hle, hcl, hmod⟩ := h.back_decode hb stage dir
    refine .of_back stage herr (hctl ▸ hbe) (h.cout_written.append _)
      (fun hfe => h.back_written hb stage (hctl ▸ hfe)) (fun hd => absurd dir (by rw [← hctl, hd]; decide)) fun _ => ?_
    simp [Config.W] at hle hcl hmod len ip ⊢
    omega
  | frontDone stage ip accepts =>
    obtain ⟨hip, h0, hw⟩ := h.front hb stage
    cases hbe : s.control.be with
    | false =>
      rw [State.frontDone_not_be _ _ hbe]
      exact .of_done rfl h.cout_written (fun he => absurd herr he)
    | true =>
      rw [State.frontDone_be _ _ hbe] at hctl ⊢
      exact .of_back rfl herr (hctl ▸ hbe) h.cout_written (fun _ => hw) (fun _ => Nat.zero_le _)
        fun _ => ⟨by simp, h0, by simp⟩
  | rlencFinish | totxtFinish => exact .of_done rfl h.cout_written (fun he => absurd herr he)
  | raise e why => exact .of_done rfl (Memory.written_zero _) (fun _ => rfl)

end Sys2Proof.Machine
end

section
/-! PROOFS. The contents of a running call (`State.CallContent`): a GO makes them true and every block step keeps
them. -/

namespace Sys2Proof.Machine

open Sys2Proof

/-- Appending at the length register of a buffer that holds a sequence of that length. -/
theorem Memory.Holds.append_at {α : Type} {m : Memory α} {xs : List α} {len : Nat} (h : Memory.Holds m xs)
    (hl : len = xs.length) (ys : List α) : Memory.Holds (Memory.setSeq m len ys) (xs ++ ys) :=
  hl ▸ h.append ys

/-- The digits that a running call's back stage reads, or that it ends with: those of the whole text where it has a
front end (R187, R188), the host's otherwise. -/
def State.frontResult (s : State) : Except ErrKind (List Digit) :=
  if s.control.fe then
    if s.control.dir then rlDecode s.cinText else toBinary s.cinText
  else .ok s.digText

theorem State.frontResult_encode {s : State} (hfe : s.control.fe = true) (hd : s.control.dir = false) :
    s.frontResult = toBinary s.cinText := by
  simp [State.frontResult, hfe, hd]

theorem State.frontResult_decode {s : State} (hfe : s.control.fe = true) (hd : s.control.dir = true) :
    s.frontResult = rlDecode s.cinText := by
  simp [State.frontResult, hfe, hd]

theorem State.frontResult_host {s : State} (hfe : s.control.fe = false) : s.frontResult = .ok s.digText := by
  simp [State.frontResult, hfe]

/-- A block step does not change the digits the call is about. -/
theorem blockStep_frontResult {s : State} (hb : s.st = .busy) (h : s.CallInv) :
    (blockStep s.control s).frontResult = s.frontResult := by
  cases hfe : s.control.fe with
  | true => simp [State.frontResult, hfe]
  | false =>
    have hs : s.stage = .back := by
      cases hs : s.stage with
      | front => simpa [hfe] using (h.stage_of_command hb).1 hs
      | back => rfl
    obtain ⟨hdig, hlen⟩ := blockStep_digits_of_no_front hs hfe
    rw [State.frontResult_host hfe, State.frontResult_host (by simpa using hfe),
      State.digText_congr hdig hlen (by simp)]

/-! What the contents of a call ask of a state between calls, of one in FRONT and of one in BACK. -/

theorem State.CallContent.of_not_busy {s : State} (hs : s.st ≠ .busy) : s.CallContent := by
  constructor <;> exact fun h => absurd h hs

theorem State.CallContent.of_front {s : State} (hs : s.stage = .front)
    (henc : s.control.dir = false →
      (s.cinText.take s.ip).all inRange = true ∧ s.digLen = ((s.cinText.take s.ip).flatMap field).length ∧
      Memory.Holds s.dig ((s.cinText.take s.ip).flatMap field))
    (hdec : s.control.dir = true → ∃ out, scanText .s0 false [] (s.cinText.take s.ip) = some (s.ds, s.tb, out) ∧
      s.digLen = out.length ∧ Memory.Holds s.dig out) : s.CallContent := by
  constructor
  case front_encode => exact fun _ _ => henc
  case front_decode => exact fun _ _ => hdec
  all_goals simp [hs]

theorem State.CallContent.of_back {s : State} (hs : s.stage = .back) (hd : s.frontResult = .ok s.digText)
    (henc : s.control.dir = false → s.coutLen = (rlEncode (s.digText.take s.ip)).length ∧
      Memory.Holds s.cout (rlEncode (s.digText.take s.ip)) ∧ (s.ip ≠ 0 → s.digText[s.ip - 1]? = some s.prev))
    (hdec : s.control.dir = true → s.coutLen = s.ip ∧ Memory.Holds s.cout (textOfGroups s.ip s.digText)) :
    s.CallContent := by
  constructor
  case back_enc => exact fun _ _ hfe hdir => by rw [← State.frontResult_encode hfe hdir, hd]
  case back_dec => exact fun _ _ hfe hdir => by rw [← State.frontResult_decode hfe hdir, hd]
  case back_encode => exact fun _ _ => henc
  case back_decode => exact fun _ _ => hdec
  all_goals simp [hs]

/-- In BACK the digits in DIG are the result of the front stage. -/
theorem State.CallContent.frontResult_back {s : State} (h : s.CallContent) (hb : s.st = .busy)
    (hs : s.stage = .back) : s.frontResult = .ok s.digText := by
  cases hfe : s.control.fe with
  | false => exact State.frontResult_host hfe
  | true =>
    cases hd : s.control.dir with
    | false => rw [State.frontResult_encode hfe hd]; exact h.back_enc hb hs hfe hd
    | true => rw [State.frontResult_decode hfe hd]; exact h.back_dec hb hs hfe hd

/-- At the end of FRONT the digits in DIG are its result. -/
theorem State.CallContent.frontResult_frontDone {s : State} (h : s.CallContent) (hinv : s.CallInv) (hb : s.st = .busy)
    (hs : s.stage = .front) (hip : s.cinLen ≤ s.ip) (hacc : s.control.dir = true → scanAccepts s.ds = true) :
    s.frontResult = .ok s.digText := by
  have hfe := (hinv.stage_of_command hb).1 hs
  have htake : s.cinText.take s.ip = s.cinText := List.take_of_length_le (by simpa using hip)
  cases hd : s.control.dir with
  | false =>
    obtain ⟨hall, hlen, hholds⟩ := h.front_encode hb hs hd
    rw [htake] at hall hlen hholds
    rw [State.frontResult_encode hfe hd, State.digText_of_holds hholds hlen, toBinary, if_pos hall]
  | true =>
    obtain ⟨out, hscan, hlen, hholds⟩ := h.front_decode hb hs hd
    rw [htake] at hscan
    rw [State.frontResult_decode hfe hd, State.digText_of_holds hholds hlen, rlDecode_ok_iff]
    exact ⟨s.ds, s.tb, hscan, hacc hd⟩

/-- The RLENC step emits what one more digit adds to the encoding (R130). -/
theorem State.rlEncode_take_succ {s : State} (hip : s.ip < s.digLen)
    (hprev : s.ip ≠ 0 → s.digText[s.ip - 1]? = some s.prev) :
    rlEncode (s.digText.take (s.ip + 1)) = rlEncode (s.digText.take s.ip) ++ s.emitted := by
  rw [State.digText_take_succ s hip, rlEncode_append_one, State.emitted]
  congr 1
  by_cases h0 : s.ip = 0
  · simp [h0]
  · have hlast : (s.digText.take s.ip).getLast? = some s.prev := by
      rw [List.getLast?_take, if_neg h0, hprev h0]; rfl
    rw [hlast, if_neg h0]

/-- The TOTXT step emits what one more group adds to the text (R114). -/
theorem State.textOfGroups_ip_succ {s : State} (hip : s.ip * Config.W + Config.W ≤ s.digLen) :
    textOfGroups (s.ip + 1) s.digText = textOfGroups s.ip s.digText ++
      [codeOfValue (groupValue fun i => s.digAt (s.ip * Config.W + i))] := by
  rw [textOfGroups_succ]
  have hgroup : groupValue (fun i => s.digText.getD (s.ip * 7 + i) false) =
      groupValue fun i => s.digAt (s.ip * Config.W + i) := by
    refine groupValue_congr fun i hi => ?_
    have hlt : s.ip * 7 + i < s.digLen := by simp only [Config.W] at hip; omega
    simp [State.digText, List.getD_eq_getElem?_getD, hlt]
  rw [hgroup]

/-- A scanner cell takes the scan of the text before the cursor to that of the text with the character under it. -/
theorem State.scanText_take_succ {s : State} {out : List Digit} {ds : ScanState} {a : ScanAction}
    (hip : s.ip < s.cinLen) (hscan : scanText .s0 false [] (s.cinText.take s.ip) = some (s.ds, s.tb, out))
    (hcell : scanCell s.ds (classify (s.cinAt s.ip)) = some (ds, a)) (hlen : s.digLen = out.length)
    (hholds : Memory.Holds s.dig out) :
    ∃ out', scanText .s0 false [] (s.cinText.take (s.ip + 1)) = some (ds, (s.scanAct a).tb, out') ∧
      (s.scanAct a).digLen = out'.length ∧ Memory.Holds (s.scanAct a).dig out' := by
  rw [State.cinText_take_succ s hip, scanText_append, hscan]
  simp only [scanText, hcell]
  cases a with
  | none | setTb b => exact ⟨out, rfl, hlen, hholds⟩
  | appendTb =>
    exact ⟨out ++ [s.tb], rfl, by simp [State.scanAct, hlen], hholds.append_at hlen [s.tb]⟩

/-- A block step keeps the contents of a running call. -/
theorem blockStep_callContent {s : State} (hb : s.st = .busy) (hinv : s.CallInv) (h : s.CallContent) :
    (blockStep s.control s).CallContent := by
  have hctl := blockStep_control s.control s
  have htext := blockStep_cinText s.control s
  have hres := blockStep_frontResult hb hinv
  have hcase := blockStep_case s.control s
  generalize blockStep s.control s = t at hctl htext hres hcase ⊢
  cases hcase with
  | tobinChar stage dir ip char =>
    obtain ⟨hall, hlen, hholds⟩ := h.front_encode hb stage dir
    refine .of_front stage (fun _ => ?_) fun hd => absurd dir (by rw [← hctl, hd]; decide)
    have htake : (s.appendDig (field (s.cinAt s.ip))).advance.cinText.take (s.ip + 1) =
        s.cinText.take s.ip ++ [s.cinAt s.ip] := by
      rw [htext, State.cinText_take_succ s ip]
    rw [State.advance_ip, State.appendDig_ip, htake, List.flatMap_append, List.flatMap_singleton]
    exact ⟨by simp [hall, char], by simp [hlen], hholds.append_at hlen _⟩
  | rldecChar stage dir ip ds a cell =>
    obtain ⟨out, hscan, hlen, hholds⟩ := h.front_decode hb stage dir
    refine .of_front (by simpa) (fun hd => absurd dir (by rw [← hctl, hd]; decide)) fun _ => ?_
    rw [htext]
    simpa using State.scanText_take_succ ip hscan cell hlen hholds
  | rlencDigit stage dir ip =>
    obtain ⟨hlen, hholds, hprev⟩ := h.back_encode hb stage dir
    refine .of_back stage (hres.trans (h.frontResult_back hb stage)) (fun _ => ?_)
      fun hd => absurd dir (by rw [← hctl, hd]; decide)
    have hnext := State.rlEncode_take_succ ip hprev
    refine ⟨?_, ?_, fun _ => ?_⟩
    · show s.coutLen + s.emitted.length = (rlEncode (s.digText.take (s.ip + 1))).length
      rw [hnext, List.length_append, hlen]
    · show Memory.Holds (Memory.setSeq s.cout s.coutLen s.emitted) (rlEncode (s.digText.take (s.ip + 1)))
      rw [hnext]
      exact hholds.append_at hlen _
    · show s.digText[s.ip]? = some (s.digAt s.ip)
      simp [State.digText, ip]
  | totxtGroup stage dir len ip =>
    obtain ⟨hlen, hholds⟩ := h.back_decode hb stage dir
    obtain ⟨hle, -, hmod⟩ := hinv.back_decode hb stage dir
    refine .of_back stage (hres.trans (h.frontResult_back hb stage))
      (fun hd => absurd dir (by rw [← hctl, hd]; decide)) fun _ => ?_
    have hgroup : s.ip * Config.W + Config.W ≤ s.digLen := by
      simp only [Config.W] at hle hmod len ip ⊢
      omega
    refine ⟨congrArg (· + 1) hlen, ?_⟩
    show Memory.Holds (Memory.setSeq s.cout s.coutLen _) (textOfGroups (s.ip + 1) s.digText)
    rw [State.textOfGroups_ip_succ hgroup]
    exact hholds.append_at (by rw [textOfGroups_length, hlen]) _
  | frontDone stage ip accepts =>
    obtain ⟨-, h0, -⟩ := hinv.front hb stage
    have hdone := h.frontResult_frontDone hinv hb stage ip accepts
    cases hbe : s.control.be with
    | false => exact .of_not_busy (by simp [State.frontDone_not_be _ _ hbe])
    | true =>
      rw [State.frontDone_be _ _ hbe] at hres ⊢
      exact .of_back rfl (hres.trans hdone) (fun _ => ⟨h0, Memory.holds_nil _, fun hip => absurd rfl hip⟩)
        fun _ => ⟨h0, Memory.holds_nil _⟩
  | rlencFinish | totxtFinish => exact .of_not_busy (by simp)
  | raise e why => exact .of_not_busy (by simp)

/-- A GO starts a call with the contents of one that has consumed nothing. -/
theorem go_callContent (s : State) : (s.go s.control).CallContent := by
  have hctl : (s.go s.control).control = s.control := rfl
  by_cases hf : s.control.fe = true
  · exact .of_front (by simp [hf]) (fun _ => ⟨rfl, by simp [hf], Memory.holds_nil _⟩)
      fun _ => ⟨[], rfl, by simp [hf], Memory.holds_nil _⟩
  · by_cases hb : s.control.be = true
    · exact .of_back (by simp [hf, hb]) (State.frontResult_host (by simpa [hctl] using hf))
        (fun _ => ⟨rfl, Memory.holds_nil _, fun h => absurd rfl h⟩) fun _ => ⟨rfl, Memory.holds_nil _⟩
    · exact .of_not_busy (by simp [hf, hb])

end Sys2Proof.Machine
end

section
/-! PROOFS. The run of a call: it ends, or is refused for want of room, within a number of steps that is linear in the
lengths (R191). -/

namespace Sys2Proof.Machine

open Sys2Proof

/-- A run whose first step is refused is refused. -/
theorem stepN_refused {s : State} {r : Refusal} (n : Nat) (h : step s = .refused r) :
    stepN (n + 1) s = .refused r := by
  have h' : Host.Core.step Sys2Proof.core s = .refused r := h
  show Host.Core.run Sys2Proof.core (n + 1) s = .refused r
  simp only [Host.Core.run, h']

/-- A bound on the block steps a running call still takes (R191): in FRONT, a step for each character left and one
for each digit it may stage, the digits staged so far, FrontDone and Finish. -/
def State.stepsLeft (s : State) : Nat :=
  match s.stage with
  | .front => 8 * (s.cinLen - s.ip) + s.digLen + 2
  | .back => s.digLen - s.ip + 1

theorem State.stepsLeft_front {s : State} (h : s.stage = .front) :
    s.stepsLeft = 8 * (s.cinLen - s.ip) + s.digLen + 2 := by
  simp [State.stepsLeft, h]

theorem State.stepsLeft_back {s : State} (h : s.stage = .back) : s.stepsLeft = s.digLen - s.ip + 1 := by
  simp [State.stepsLeft, h]

/-- A scanner cell stages at most one digit. -/
theorem State.scanAct_digLen_le (s : State) (a : ScanAction) : (s.scanAct a).digLen ≤ s.digLen + 1 := by
  cases a <;> simp [State.scanAct]

/-- A block step leaves the call running with fewer steps to take, or ends it. -/
theorem blockStep_progress {s : State} (hb : s.st = .busy) (h : s.CallInv) :
    (blockStep s.control s).st = .busy ∧ (blockStep s.control s).stepsLeft < s.stepsLeft ∨
      (blockStep s.control s).st = .done := by
  have hcase := blockStep_case s.control s
  generalize blockStep s.control s = t at hcase ⊢
  cases hcase with
  | tobinChar stage dir ip char =>
    refine .inl ⟨hb, ?_⟩
    rw [State.stepsLeft_front stage, State.stepsLeft_front (by simpa)]
    simp
    omega
  | rldecChar stage dir ip ds a cell =>
    have hdig := s.scanAct_digLen_le a
    refine .inl ⟨by simpa, ?_⟩
    rw [State.stepsLeft_front stage, State.stepsLeft_front (by simpa)]
    simp
    omega
  | rlencDigit stage dir ip =>
    refine .inl ⟨hb, ?_⟩
    rw [State.stepsLeft_back stage, State.stepsLeft_back (by simpa)]
    simp
    omega
  | totxtGroup stage dir len ip =>
    obtain ⟨hle, -, -⟩ := h.back_decode hb stage dir
    refine .inl ⟨hb, ?_⟩
    rw [State.stepsLeft_back stage, State.stepsLeft_back (by simpa)]
    simp [Config.W] at hle ip ⊢
    omega
  | frontDone stage ip accepts =>
    cases hbe : s.control.be with
    | false => exact .inr (by simp [State.frontDone_not_be _ _ hbe])
    | true =>
      rw [State.frontDone_be _ _ hbe, State.stepsLeft_front stage, State.stepsLeft_back rfl]
      refine .inl ⟨hb, ?_⟩
      show s.digLen - 0 + 1 < _
      omega
  | rlencFinish | totxtFinish | raise => exact .inr rfl

/-- The run of a call, said once: what every block step with room keeps holds when the call ends, or else at the step
that is refused for want of room. -/
theorem run_ends_or_refused {P : State → Prop}
    (keep : ∀ u : State, u.st = .busy → u.CallInv → P u → u.roomFor (blockStep u.control u) = true →
      P (blockStep u.control u))
    {s : State} (hb : s.st = .busy) (hp : s.pending = []) (hinv : s.CallInv) (h : P s) :
    ∃ n, n ≤ s.stepsLeft ∧ ((∃ t, stepN n s = .next t ∧ t.st = .done ∧ P t) ∨
      stepN n s = .refused .capacityExceeded ∧
        ∃ u : State, u.st = .busy ∧ u.CallInv ∧ P u ∧ u.roomFor (blockStep u.control u) = false) := by
  induction hk : s.stepsLeft using Nat.strong_induction_on generalizing s with
  | _ k ih =>
    have hpos : 1 ≤ k := by
      rw [← hk]
      cases hs : s.stage <;> simp [State.stepsLeft, hs]
    have hstep := step_of_busy hb hp
    cases hroom : s.roomFor (blockStep s.control s) with
    | false =>
      rw [State.commit_of_no_room hroom] at hstep
      exact ⟨1, hpos, .inr ⟨stepN_refused 0 hstep, s, hb, hinv, h, hroom⟩⟩
    | true =>
      rw [State.commit_of_room hroom] at hstep
      have hP := keep s hb hinv h hroom
      obtain ⟨hbusy, hless⟩ | hdone := blockStep_progress hb hinv
      · obtain ⟨n, hn, hrun⟩ := ih _ (hk ▸ hless) hbusy (by simpa using hp) (blockStep_callInv hb hinv) hP rfl
        refine ⟨n + 1, by omega, ?_⟩
        rwa [stepN_next n hstep]
      · exact ⟨1, hpos, .inl ⟨_, stepN_next 0 hstep, hdone, hP⟩⟩

end Sys2Proof.Machine
end

section
/-! PROOFS. The results of the two stages: what a step raises and what Finish leaves in COUT. -/

namespace Sys2Proof.Machine

open Sys2Proof

/-- The output of the back stage on the digits it reads (R130, R114). -/
def State.backResult (s : State) (d : List Digit) : Except ErrKind (List Code) :=
  if s.control.dir then toText d else .ok (rlEncode d)

theorem State.backResult_encode {s : State} (hd : s.control.dir = false) (d : List Digit) :
    s.backResult d = .ok (rlEncode d) := by
  simp [State.backResult, hd]

theorem State.backResult_decode {s : State} (hd : s.control.dir = true) (d : List Digit) :
    s.backResult d = toText d := by
  simp [State.backResult, hd]

/-- A step raises in FRONT only what the front stage's function answers on the whole text. -/
theorem State.CallContent.frontResult_raise {s : State} {e : ErrKind} (h : s.CallContent) (hinv : s.CallInv)
    (hb : s.st = .busy) (hs : s.stage = .front) (hr : Raises s.control s e) : s.frontResult = .error e := by
  have hfe := (hinv.stage_of_command hb).1 hs
  cases hr with
  | outOfRange stage dir ip char =>
    have hmem : s.cinAt s.ip ∈ s.cinText := List.mem_map.2 ⟨s.ip, by simpa using ip, rfl⟩
    have hall : ¬ s.cinText.all inRange = true := fun hall => by simp [List.all_eq_true.1 hall _ hmem] at char
    rw [State.frontResult_encode hfe dir, toBinary, if_neg hall]
  | errorCell stage dir ip cell =>
    obtain ⟨out, hscan, -, -⟩ := h.front_decode hb stage dir
    have hnone : scanText .s0 false [] s.cinText = none := by
      rw [← List.take_append_drop (s.ip + 1) s.cinText, scanText_append, State.cinText_take_succ s ip,
        scanText_append, hscan]
      simp [scanText, cell]
    rw [State.frontResult_decode hfe dir, rlDecode_eq_acceptedDigits, hnone]
    rfl
  | unfinished stage dir ip accepts =>
    obtain ⟨out, hscan, -, -⟩ := h.front_decode hb stage dir
    rw [List.take_of_length_le (by simpa using ip)] at hscan
    rw [State.frontResult_decode hfe dir, rlDecode_eq_acceptedDigits, hscan]
    simp [acceptedDigits, accepts]
  | partialGroup stage => simp [hs] at stage

/-- A step raises in BACK only what the back stage's function answers on the digits. -/
theorem backResult_raise {s : State} {e : ErrKind} (hs : s.stage = .back) (hr : Raises s.control s e) :
    s.backResult s.digText = .error e := by
  cases hr with
  | outOfRange stage | errorCell stage | unfinished stage => simp [hs] at stage
  | partialGroup stage dir ip len => rw [State.backResult_decode dir, toText, if_pos (by simpa using len)]

/-- At Finish of RLENC COUT holds the output of the back stage. -/
theorem State.CallContent.backResult_rlencFinish {s : State} (h : s.CallContent) (hb : s.st = .busy)
    (hs : s.stage = .back) (hd : s.control.dir = false) (hip : s.digLen ≤ s.ip) :
    ∃ c, s.backResult s.digText = .ok c ∧ s.coutLen = c.length ∧ Memory.Holds s.cout c := by
  obtain ⟨hlen, hholds, -⟩ := h.back_encode hb hs hd
  rw [List.take_of_length_le (by simpa using hip)] at hlen hholds
  exact ⟨_, State.backResult_encode hd _, hlen, hholds⟩

/-- At Finish of TOTXT COUT holds the output of the back stage. -/
theorem State.CallContent.backResult_totxtFinish {s : State} (h : s.CallContent) (hb : s.st = .busy)
    (hs : s.stage = .back) (hd : s.control.dir = true) (hip : s.ip * Config.W = s.digLen) :
    ∃ c, s.backResult s.digText = .ok c ∧ s.coutLen = c.length ∧ Memory.Holds s.cout c := by
  obtain ⟨hlen, hholds⟩ := h.back_decode hb hs hd
  have hmod : ¬ s.digText.length % Config.W ≠ 0 := by simp [← hip]
  have hdiv : s.digText.length / Config.W = s.ip := by simp [← hip, Config.W]
  refine ⟨textOfGroups s.ip s.digText, ?_, by simpa using hlen, hholds⟩
  rw [State.backResult_decode hd, toText, if_neg hmod, hdiv]

end Sys2Proof.Machine
end

section
/-! PROOFS. A call that does not fit the capacities (R7): no step can end it. -/

namespace Sys2Proof.Machine

open Sys2Proof

/-- The digits a call stages and the characters it has output fit the capacities. -/
structure State.CallFits (s : State) : Prop where
  dig : s.control.fe = true → s.caps.dig.fits s.digLen = true
  cout : s.caps.cout.fits s.coutLen = true

/-- The digits or the output of the running call, as the function level gives them, do not fit the capacities. -/
def State.Misfits (s : State) : Prop :=
  ∃ d, s.frontResult = .ok d ∧
    (s.control.fe = true ∧ s.caps.dig.fits d.length = false ∨
      s.control.be = true ∧ ∃ c, s.backResult d = .ok c ∧ s.caps.cout.fits c.length = false)

/-- A block step with room keeps what a call holds within the capacities. -/
theorem blockStep_callFits {s : State} (h : s.CallFits) (hroom : s.roomFor (blockStep s.control s) = true) :
    (blockStep s.control s).CallFits := by
  obtain ⟨hdig, hcout⟩ := (State.roomFor_iff _ _).1 hroom
  constructor
  · intro hfe
    rw [blockStep_control] at hfe
    rw [blockStep_caps]
    exact hdig.elim (Capacity.fits_mono (h.dig hfe)) id
  · rw [blockStep_caps]
    exact hcout.elim (Capacity.fits_mono h.cout) id

/-- A block step does not change whether the call fits. -/
theorem blockStep_misfits {s : State} (hb : s.st = .busy) (hinv : s.CallInv) (h : s.Misfits) :
    (blockStep s.control s).Misfits := by
  unfold State.Misfits State.backResult at h ⊢
  rwa [blockStep_frontResult hb hinv, blockStep_control, blockStep_caps]

/-- Where the staged digits are complete and fit, a call that does not fit has output that does not. -/
theorem State.Misfits.output {s : State} (h : s.Misfits) (hfits : s.CallFits) (hres : s.frontResult = .ok s.digText) :
    s.control.be = true ∧ ∃ c, s.backResult s.digText = .ok c ∧ s.caps.cout.fits c.length = false := by
  obtain ⟨d, hd, hmis⟩ := h
  obtain rfl : s.digText = d := Except.ok.inj (hres.symm.trans hd)
  obtain ⟨hfe, hno⟩ | hout := hmis
  · rw [State.digText_length, hfits.dig hfe] at hno
    cases hno
  · exact hout

/-- A call that does not fit cannot end: its last step would find the digits and the output complete, and within the
capacities. -/
theorem blockStep_busy_of_misfits {s : State} (hb : s.st = .busy) (hinv : s.CallInv) (h : s.CallContent)
    (hfits : s.CallFits) (hmis : s.Misfits) : (blockStep s.control s).st = .busy := by
  have hno {c : List Code} (hout : s.backResult s.digText = .ok c) (hlen : s.coutLen = c.length)
      (hres : s.frontResult = .ok s.digText) : False := by
    obtain ⟨-, c', hc', hbad⟩ := hmis.output hfits hres
    obtain rfl : c = c' := Except.ok.inj (hout.symm.trans hc')
    rw [← hlen, hfits.cout] at hbad
    cases hbad
  have hcase := blockStep_case s.control s
  generalize blockStep s.control s = t at hcase ⊢
  cases hcase with
  | tobinChar | rldecChar | rlencDigit | totxtGroup => simpa using hb
  | frontDone stage ip accepts =>
    have hbe := (hmis.output hfits (h.frontResult_frontDone hinv hb stage ip accepts)).1
    simpa [State.frontDone_be _ _ hbe] using hb
  | rlencFinish stage dir ip =>
    obtain ⟨c, hout, hlen, -⟩ := h.backResult_rlencFinish hb stage dir ip
    exact (hno hout hlen (h.frontResult_back hb stage)).elim
  | totxtFinish stage dir len ip =>
    obtain ⟨c, hout, hlen, -⟩ := h.backResult_totxtFinish hb stage dir ip
    exact (hno hout hlen (h.frontResult_back hb stage)).elim
  | raise e why =>
    cases hs : s.stage with
    | front =>
      obtain ⟨d, hd, -⟩ := hmis
      rw [h.frontResult_raise hinv hb hs why] at hd
      cases hd
    | back =>
      obtain ⟨-, c, hc, -⟩ := hmis.output hfits (h.frontResult_back hb hs)
      rw [backResult_raise hs why] at hc
      cases hc

/-- A running call that does not fit is refused. -/
theorem run_refused_of_misfits {s : State} (hb : s.st = .busy) (hp : s.pending = []) (hinv : s.CallInv)
    (h : s.CallContent) (hfits : s.CallFits) (hmis : s.Misfits) :
    ∃ n, stepN n s = .refused .capacityExceeded := by
  obtain ⟨n, -, ⟨t, -, hdone, hbusy, -⟩ | ⟨hrun, -⟩⟩ := run_ends_or_refused
    (P := fun u => u.st = .busy ∧ u.CallContent ∧ u.CallFits ∧ u.Misfits)
    (fun u hb hinv ⟨_, h, hfits, hmis⟩ hroom => ⟨blockStep_busy_of_misfits hb hinv h hfits hmis,
      blockStep_callContent hb hinv h, blockStep_callFits hfits hroom, blockStep_misfits hb hinv hmis⟩)
    hb hp hinv ⟨hb, h, hfits, hmis⟩
  · rw [hdone] at hbusy
    cases hbusy
  · exact ⟨n, hrun⟩

/-! The state a GO leads to. -/

theorem State.callStart_callInv (s : State) : s.callStart.CallInv := go_callInv { s with pending := [] }

theorem State.callStart_callContent (s : State) : s.callStart.CallContent := go_callContent { s with pending := [] }

/-- Only a command with no stage at all ends at its GO (R181). -/
theorem State.callStart_busy {s : State} (h : s.control.fe = true ∨ s.control.be = true) :
    s.callStart.st = .busy := by
  obtain h | h := h <;> simp [State.callStart, h]

/-- A call that does not fit has a stage. -/
theorem State.Misfits.stage {s : State} (h : s.Misfits) : s.control.fe = true ∨ s.control.be = true := by
  obtain ⟨d, -, ⟨hfe, -⟩ | ⟨hbe, -⟩⟩ := h
  · exact .inl hfe
  · exact .inr hbe

theorem State.callStart_callFits (s : State) : s.callStart.CallFits where
  dig hfe := by
    have hlen : s.callStart.digLen = 0 := if_pos hfe
    rw [hlen, Capacity.fits_zero]
  cout := Capacity.fits_zero _

theorem State.callStart_digText {s : State} (hfe : s.control.fe = false) : s.callStart.digText = s.callDigits :=
  State.digText_congr rfl (by simp [State.callStart, hfe]) rfl

theorem State.callStart_frontResult (s : State) : s.callStart.frontResult =
    if s.control.fe then
      if s.control.dir then rlDecode s.callText else toBinary s.callText
    else .ok s.callDigits := by
  unfold State.frontResult
  rw [State.callStart_control, State.callStart_cinText]
  split
  · rfl
  · rename_i hfe
    rw [State.callStart_digText (by simpa using hfe)]

theorem encodeText_ok {text : List Code} {c : List Code} (h : encodeText text = .ok c) :
    ∃ d, toBinary text = .ok d ∧ rlEncode d = c := by
  unfold encodeText at h
  cases hd : toBinary text with
  | error e => rw [hd] at h; cases h
  | ok d => rw [hd] at h; exact ⟨d, rfl, Except.ok.inj h⟩

theorem decodeText_ok {cipher : List Code} {c : List Code} (h : decodeText cipher = .ok c) :
    ∃ d, rlDecode cipher = .ok d ∧ toText d = .ok c := by
  unfold decodeText at h
  cases hd : rlDecode cipher with
  | error e => rw [hd] at h; cases h
  | ok d => rw [hd] at h; exact ⟨d, rfl, h⟩

/-- A call that does not fit is refused. -/
theorem call_refused_of_misfits {s : State} (hs : s.st ≠ .busy) (hmis : s.callStart.Misfits) :
    ∃ n, stepN n s.calling = .refused .capacityExceeded := by
  obtain ⟨n, hn⟩ := run_refused_of_misfits (State.callStart_busy (s := s) hmis.stage) s.callStart_pending
    s.callStart_callInv s.callStart_callContent s.callStart_callFits hmis
  exact ⟨n + 1, (stepN_next n (step_calling hs)).trans hn⟩

end Sys2Proof.Machine
end

section
/-! PROOFS. The obligations of 00_scope. -/

open Sys2Proof Sys2Proof.Machine

/-- Settles O27: each of the four writes is a `hostWrite` of what does not fit. -/
theorem writesThatDoNotFitAreRefused : Obligations.WritesThatDoNotFitAreRefused := by
  intro s rest hs
  refine ⟨fun n hp hf => ?_, fun n hp hf => ?_, fun a c hp hf => ?_, fun a d hp hf => ?_⟩
  all_goals
    rw [step_cons s _ rest hp]
    exact hostWrite_of_not_fits hs hf

/-- Settles O15: the transition itself does not depend on the capacities, so a bounded machine computes the state
that the unbounded one computes, and only `commit` tells them apart. -/
theorem finiteInstanceAgreesOrRefuses : Obligations.FiniteInstanceAgreesOrRefuses := by
  intro i s t h
  rw [exec_eq, runCommand_withCaps] at h
  obtain ⟨rfl, -⟩ := State.commit_next.1 h
  rw [exec_eq]
  constructor
  · intro hdig hcout
    have hroom : s.roomFor (runCommand i.control s) = true := (State.roomFor_iff _ _).2 ⟨hdig, hcout⟩
    rw [State.commit_of_room hroom]
    congr 1
    exact runCommand_withCaps i.control s s.caps
  · intro hmisfit
    exact State.commit_of_no_room ((State.roomFor_false_iff _ _).2 hmisfit)

/-- Settles O42. The six cases are one: the digits of the call, or the output of its back stage on them, do not fit
(`State.Misfits`); and while they do not, no block step can end the call (`blockStep_busy_of_misfits`). -/
theorem callThatDoesNotFitIsRefused : Obligations.CallThatDoesNotFitIsRefused := by
  intro s hs h
  obtain ⟨hcmd, d, hd, hno⟩ | ⟨hcmd, d, hd, hno⟩ | ⟨hcmd, hno⟩ | ⟨hcmd, c, hc, hno⟩ | ⟨hcmd, c, hc, hno⟩ |
    ⟨hcmd, c, hc, hno⟩ := h
  · obtain ⟨hfe, hdir⟩ : s.control.fe = true ∧ s.control.dir = false := by
      obtain hcmd | hcmd := hcmd <;> simp [State.control, hcmd, Instr.control]
    exact call_refused_of_misfits hs
      ⟨d, by simpa [State.callStart_frontResult, hfe, hdir] using hd, .inl ⟨hfe, hno⟩⟩
  · obtain ⟨hfe, hdir⟩ : s.control.fe = true ∧ s.control.dir = true := by
      obtain hcmd | hcmd := hcmd <;> simp [State.control, hcmd, Instr.control]
    exact call_refused_of_misfits hs
      ⟨d, by simpa [State.callStart_frontResult, hfe, hdir] using hd, .inl ⟨hfe, hno⟩⟩
  · have hctl : s.control = Instr.rlenc.control := congrArg Instr.control hcmd
    refine call_refused_of_misfits hs ⟨s.callDigits, ?_, .inr ⟨?_, _, ?_, hno⟩⟩
    all_goals simp [State.callStart_frontResult, State.backResult, hctl, Instr.control]
  · have hctl : s.control = Instr.totxt.control := congrArg Instr.control hcmd
    refine call_refused_of_misfits hs ⟨s.callDigits, ?_, .inr ⟨?_, c, ?_, hno⟩⟩
    all_goals simp [State.callStart_frontResult, State.backResult, hctl, Instr.control, hc]
  · obtain ⟨d, hd, rfl⟩ := encodeText_ok hc
    have hctl : s.control = Instr.enc.control := congrArg Instr.control hcmd
    refine call_refused_of_misfits hs ⟨d, ?_, .inr ⟨?_, _, ?_, hno⟩⟩
    all_goals simp [State.callStart_frontResult, State.backResult, hctl, Instr.control, hd]
  · obtain ⟨d, hd, hc⟩ := decodeText_ok hc
    have hctl : s.control = Instr.dec.control := congrArg Instr.control hcmd
    refine call_refused_of_misfits hs ⟨d, ?_, .inr ⟨?_, c, ?_, hno⟩⟩
    all_goals simp [State.callStart_frontResult, State.backResult, hctl, Instr.control, hd, hc]

end

section
/-! PROOFS. The result of a call (R183) as a function of what it reads: `State.callResult` says it at the function
level, and the state in which a call ends shows it. -/

namespace Sys2Proof.Machine

open Sys2Proof

/-- What every block step of a call keeps holds at the end of its run. -/
theorem stepN_keeps {P : State → Prop}
    (keep : ∀ u : State, u.st = .busy → u.CallInv → u.CallContent → P u → P (blockStep u.control u))
    {s t : State} (n : Nat) (hp : s.pending = []) (hinv : s.CallInv) (hc : s.CallContent) (h : P s)
    (hrun : stepN n s = .next t) : P t := by
  induction n generalizing s with
  | zero => cases hrun; exact h
  | succ n ih =>
    obtain ⟨u, hu, hr⟩ := stepN_succ_next hrun
    by_cases hb : s.st = .busy
    · rw [step_of_busy hb hp] at hu
      obtain ⟨rfl, -⟩ := State.commit_next.1 hu
      exact ih (by simpa using hp) (blockStep_callInv hb hinv) (blockStep_callContent hb hinv hc)
        (keep s hb hinv hc h) hr
    · rw [step_nil _ hp, blockTurn_of_not_busy _ hb] at hu
      cases hu
      exact ih hp hinv hc h hr

/-- The same for a call, from the state its GO leads to. -/
theorem CallEnds.keeps {P : State → Prop}
    (keep : ∀ u : State, u.st = .busy → u.CallInv → u.CallContent → P u → P (blockStep u.control u))
    {s t : State} {n : Nat} (hs : s.st ≠ .busy) (hc : CallEnds s n t) (h : P s.callStart) : P t := by
  obtain ⟨m, rfl⟩ := Nat.exists_eq_succ_of_ne_zero hc.started
  have hrun := hc.run
  rw [stepN_next m (step_calling hs)] at hrun
  exact stepN_keeps keep m s.callStart_pending s.callStart_callInv s.callStart_callContent h hrun

/-- A call changes neither CMD nor its input in CIN. -/
theorem CallEnds.input_frame {s t : State} {n : Nat} (hs : s.st ≠ .busy) (h : CallEnds s n t) :
    t.cmd = s.cmd ∧ t.cin = s.cin ∧ t.cinLen = s.cinLen :=
  h.keeps (P := fun u => u.cmd = s.cmd ∧ u.cin = s.cin ∧ u.cinLen = s.cinLen) (fun u _ _ _ hu => by simpa using hu) hs
    ⟨rfl, rfl, rfl⟩

theorem CallEnds.control {s t : State} {n : Nat} (hs : s.st ≠ .busy) (h : CallEnds s n t) :
    t.control = s.control := by
  rw [State.control, (h.input_frame hs).1, State.control]

/-- A call of a command without a front end runs in BACK. -/
theorem State.CallInv.stage_of_no_front {s : State} (h : s.CallInv) (hb : s.st = .busy)
    (hfe : s.control.fe = false) : s.stage = .back := by
  cases hs : s.stage with
  | front => simpa [hfe] using (h.stage_of_command hb).1 hs
  | back => rfl

/-- A call of a command without a front end leaves the host's digits alone. -/
theorem CallEnds.host_digits {s t : State} {n : Nat} (hs : s.st ≠ .busy) (h : CallEnds s n t)
    (hfe : s.control.fe = false) : t.dig = s.dig ∧ t.digLen = s.digLen := by
  have hend : t.control.fe = false ∧ t.dig = s.dig ∧ t.digLen = s.digLen := by
    refine h.keeps (P := fun u => u.control.fe = false ∧ u.dig = s.dig ∧ u.digLen = s.digLen) ?_ hs ?_
    · intro u hb hinv _ ⟨hu, hdig, hlen⟩
      obtain ⟨hdig', hlen'⟩ := blockStep_digits_of_no_front (hinv.stage_of_no_front hb hu) hu
      exact ⟨by simpa using hu, hdig'.trans hdig, hlen'.trans hlen⟩
    · exact ⟨hfe, rfl, by simp [State.callStart, hfe]⟩
  exact hend.2

/-- What the end of a call shows the host: the kind in ERR, the digits left in DIG and the output in COUT. -/
structure CallResult where
  err : ErrKind
  digits : List Digit
  output : List Code

/-- The result of the call that runs, or starts, in `s`, at the function level (R183). A command with both stages
leaves no digits (R186), a failed stage leaves no output and the digits of the host only (R216), and a command with
no stage is illegal (R83). -/
def State.callResult (s : State) : CallResult :=
  match s.frontResult with
  | .error e => { err := e, digits := [], output := [] }
  | .ok d =>
    if s.control.be then
      match s.backResult d with
      | .error e => { err := e, digits := if s.control.fe then [] else d, output := [] }
      | .ok c => { err := .none, digits := if s.control.fe then [] else d, output := c }
    else { err := if s.control.fe then .none else .illegalCommand, digits := d, output := [] }

/-- The result depends on the command and on the digits the front stage gives. -/
theorem State.callResult_congr {s t : State} (hctl : s.control = t.control) (h : s.frontResult = t.frontResult) :
    s.callResult = t.callResult := by
  simp only [State.callResult, State.backResult, hctl, h]

theorem State.callResult_of_front_error {s : State} {e : ErrKind} (h : s.frontResult = .error e) :
    s.callResult = { err := e, digits := [], output := [] } := by
  simp [State.callResult, h]

theorem State.callResult_of_no_back {s : State} {d : List Digit} (h : s.frontResult = .ok d)
    (hbe : s.control.be = false) : s.callResult =
      { err := if s.control.fe then .none else .illegalCommand, digits := d, output := [] } := by
  simp [State.callResult, h, hbe]

theorem State.callResult_of_back_error {s : State} {d : List Digit} {e : ErrKind} (h : s.frontResult = .ok d)
    (hbe : s.control.be = true) (ho : s.backResult d = .error e) : s.callResult =
      { err := e, digits := if s.control.fe then [] else d, output := [] } := by
  simp [State.callResult, h, hbe, ho]

theorem State.callResult_of_back_ok {s : State} {d : List Digit} {c : List Code} (h : s.frontResult = .ok d)
    (hbe : s.control.be = true) (ho : s.backResult d = .ok c) : s.callResult =
      { err := .none, digits := if s.control.fe then [] else d, output := c } := by
  simp [State.callResult, h, hbe, ho]

/-- The registers and buffers of a call that has ended show its result. The digits of a call without a front end are
the host's own, which need not have been written (`CallEnds.host_digits`). -/
structure State.Shows (t : State) (r : CallResult) : Prop where
  err : t.err = r.err
  digLen : t.digLen = r.digits.length
  digits : t.control.fe = true → Memory.Holds t.dig r.digits
  coutLen : t.coutLen = r.output.length
  output : Memory.Holds t.cout r.output

/-- A written buffer holds the digits read from it. -/
theorem State.holds_digText {s : State} (h : Memory.Written s.dig s.digLen) : Memory.Holds s.dig s.digText := by
  intro i hi
  rw [State.digText_length] at hi
  obtain ⟨d, hd⟩ := Option.isSome_iff_exists.1 (h i hi)
  simp [State.digText, State.digAt, hi, hd]

/-- FrontDone of a command without a back end shows the result: the staged digits are complete. -/
theorem State.frontDone_shows {s : State} (hb : s.st = .busy) (hinv : s.CallInv) (h : s.CallContent)
    (hs : s.stage = .front) (hip : s.cinLen ≤ s.ip) (hacc : s.control.dir = true → scanAccepts s.ds = true)
    (hbe : s.control.be = false) : (s.frontDone s.control).Shows s.callResult := by
  obtain ⟨-, h0, hw⟩ := hinv.front hb hs
  have hfe := (hinv.stage_of_command hb).1 hs
  rw [State.frontDone_not_be _ _ hbe, State.callResult_of_no_back (h.frontResult_frontDone hinv hb hs hip hacc) hbe]
  exact ⟨by simpa [hfe] using hinv.err_of_not_done (by simp [hb]), s.digText_length.symm,
    fun _ => State.holds_digText hw, h0, Memory.holds_nil _⟩

/-- Finish in BACK shows the result: the output of the back stage is complete. -/
theorem State.finish_shows {s : State} {c : List Code} (hb : s.st = .busy) (hinv : s.CallInv) (h : s.CallContent)
    (hs : s.stage = .back) (hout : s.backResult s.digText = .ok c) (hlen : s.coutLen = c.length)
    (hholds : Memory.Holds s.cout c) : (s.finish s.control).Shows s.callResult := by
  have hbe := (hinv.stage_of_command hb).2 hs
  rw [State.callResult_of_back_ok (h.frontResult_back hb hs) hbe hout]
  refine ⟨hinv.err_of_not_done (by simp [hb]), ?_, fun hfe => ?_, hlen, hholds⟩
  · cases hfe : s.control.fe <;> simp [hfe, hbe]
  · have hfe' : s.control.fe = true := hfe
    simp [hfe', Memory.holds_nil]

/-- Fail shows the result: the stage's function answers the kind that was raised. -/
theorem State.fail_shows {s : State} {e : ErrKind} (hb : s.st = .busy) (hinv : s.CallInv) (h : s.CallContent)
    (hr : Raises s.control s e) : (s.fail s.control e).Shows s.callResult := by
  cases hs : s.stage with
  | front =>
    have hfe := (hinv.stage_of_command hb).1 hs
    rw [State.callResult_of_front_error (h.frontResult_raise hinv hb hs hr)]
    exact ⟨rfl, by simp [hfe], fun _ => Memory.holds_nil _, rfl, Memory.holds_nil _⟩
  | back =>
    have hbe := (hinv.stage_of_command hb).2 hs
    rw [State.callResult_of_back_error (h.frontResult_back hb hs) hbe (backResult_raise hs hr)]
    refine ⟨rfl, ?_, fun hfe => ?_, rfl, Memory.holds_nil _⟩
    · cases hfe : s.control.fe <;> simp [hfe]
    · have hfe' : s.control.fe = true := hfe
      simp [hfe', Memory.holds_nil]

/-- A block step that ends the call shows the result. -/
theorem blockStep_shows {s : State} (hb : s.st = .busy) (hinv : s.CallInv) (h : s.CallContent)
    (hdone : (blockStep s.control s).st = .done) : (blockStep s.control s).Shows s.callResult := by
  have hcase := blockStep_case s.control s
  generalize blockStep s.control s = t at hcase hdone ⊢
  cases hcase with
  | tobinChar | rldecChar | rlencDigit | totxtGroup => simp [hb] at hdone
  | frontDone stage ip accepts =>
    cases hbe : s.control.be with
    | true => simp [State.frontDone_be _ _ hbe, hb] at hdone
    | false => exact State.frontDone_shows hb hinv h stage ip accepts hbe
  | rlencFinish stage dir ip =>
    obtain ⟨c, hout, hlen, hholds⟩ := h.backResult_rlencFinish hb stage dir ip
    exact State.finish_shows hb hinv h stage hout hlen hholds
  | totxtFinish stage dir len ip =>
    obtain ⟨c, hout, hlen, hholds⟩ := h.backResult_totxtFinish hb stage dir ip
    exact State.finish_shows hb hinv h stage hout hlen hholds
  | raise e why => exact State.fail_shows hb hinv h why

/-- A GO ends its call at once for a reserved command only (R181). -/
theorem State.callStart_done_iff (s : State) :
    s.callStart.st = .done ↔ s.control.fe = false ∧ s.control.be = false := by
  simp [State.callStart]

/-- A GO that ends its call at once shows the result. -/
theorem State.callStart_shows {s : State} (hdone : s.callStart.st = .done) :
    s.callStart.Shows s.callStart.callResult := by
  obtain ⟨hfe, hbe⟩ := s.callStart_done_iff.1 hdone
  have herr : s.callStart.err = .illegalCommand := by simp [State.callStart, hfe, hbe]
  rw [State.callResult_of_no_back (s := s.callStart) (State.frontResult_host hfe) hbe]
  exact ⟨by simp [herr, hfe], (State.digText_length _).symm, fun h => by simp [hfe] at h, rfl, Memory.holds_nil _⟩

/-- The state in which a call ends shows the result that the function level gives (R183). -/
theorem CallEnds.shows {s t : State} {n : Nat} (hs : s.st ≠ .busy) (h : CallEnds s n t) :
    t.Shows s.callStart.callResult := by
  have hend := h.keeps
    (P := fun u => u.callResult = s.callStart.callResult ∧ (u.st = .done → u.Shows s.callStart.callResult)) ?_ hs
    ⟨rfl, State.callStart_shows⟩
  · exact hend.2 h.done
  · intro u hb hinv hc ⟨hu, _⟩
    rw [← hu]
    exact ⟨State.callResult_congr (blockStep_control _ _) (blockStep_frontResult hb hinv), blockStep_shows hb hinv hc⟩

/-! Two machines that agree on the input of a call. -/

theorem SameInput.control {s t : State} (h : SameInput s t) : s.control = t.control := by
  rw [State.control, h.cmd, State.control]

theorem SameInput.callText {s t : State} (h : SameInput s t) (hfe : s.control.fe = true) :
    s.callText = t.callText := by
  obtain ⟨hlen, hcin⟩ := h.cin hfe
  unfold State.callText State.cinText
  rw [← hlen]
  refine List.map_congr_left fun i hi => ?_
  obtain ⟨hw, heq⟩ := hcin i (List.mem_range.1 hi)
  obtain ⟨c, hc⟩ := Option.isSome_iff_exists.1 hw
  simp [State.cinAt, ← heq, hc]

theorem SameInput.callDigits {s t : State} (h : SameInput s t) (hfe : s.control.fe = false) :
    s.callDigits = t.callDigits := by
  obtain ⟨hlen, hdig⟩ := h.dig hfe
  unfold State.callDigits State.digText
  rw [← hlen]
  refine List.map_congr_left fun i hi => ?_
  obtain ⟨hw, heq⟩ := hdig i (List.mem_range.1 hi)
  obtain ⟨d, hd⟩ := Option.isSome_iff_exists.1 hw
  simp [State.digAt, ← heq, hd]

/-- The result of a call is a function of its input. -/
theorem SameInput.callResult {s t : State} (h : SameInput s t) :
    s.callStart.callResult = t.callStart.callResult := by
  refine State.callResult_congr h.control ?_
  rw [State.callStart_frontResult, State.callStart_frontResult, ← h.control]
  cases hfe : s.control.fe with
  | true => simp [h.callText hfe]
  | false => simp [h.callDigits hfe]

/-- Below its length, a buffer's elements are those of the sequence it holds. -/
theorem Memory.Holds.get?_eq {α : Type} {m m' : Memory α} {xs : List α} {len i : Nat} (h : Memory.Holds m xs)
    (h' : Memory.Holds m' xs) (hlen : len = xs.length) (hi : i < len) : Memory.get? m i = Memory.get? m' i := by
  rw [h i (hlen ▸ hi), h' i (hlen ▸ hi)]

/-- Calls on the same input end with the same result. -/
theorem SameInput.sameResult {s t u v : State} {n m : Nat} (h : SameInput s t) (hs : s.st ≠ .busy) (ht : t.st ≠ .busy)
    (hu : CallEnds s n u) (hv : CallEnds t m v) : SameResult u v := by
  have hsu := hu.shows hs
  have hsv := hv.shows ht
  rw [← h.callResult] at hsv
  constructor
  case status => rw [State.status, State.status, hsu.err, hsv.err, hu.done, hv.done]
  case digLen => rw [hsu.digLen, hsv.digLen]
  case coutLen => rw [hsu.coutLen, hsv.coutLen]
  case cout => exact fun i hi => hsu.output.get?_eq hsv.output hsu.coutLen hi
  case dig =>
    intro i hi
    cases hfe : s.control.fe with
    | true =>
      have hfe' : t.control.fe = true := by rw [← h.control, hfe]
      exact (hsu.digits (by rw [hu.control hs, hfe])).get?_eq (hsv.digits (by rw [hv.control ht, hfe']))
        hsu.digLen hi
    | false =>
      obtain ⟨hdig, hlen⟩ := hu.host_digits hs hfe
      obtain ⟨hdig', -⟩ := hv.host_digits ht (by rw [← h.control, hfe])
      rw [hdig, hdig']
      exact ((h.dig hfe).2 i (hlen ▸ hi)).2

end Sys2Proof.Machine
end

section
/-! PROOFS. The sizes of R192 are enough: a call in buffers that have them is never refused, so it ends. -/

namespace Sys2Proof.Machine

open Sys2Proof

/-- How many characters a scanner state has read at least. -/
def ScanState.minRead : ScanState → Nat
  | .s0 => 0
  | .p1 => 1
  | .p2 | .g | .r | .e => 2

/-- A cell of the scanner's table reads one character, and stages a digit only after two (R155). -/
theorem scanCell_minRead {ds ds' : ScanState} {k : CharClass} {a : ScanAction} (h : scanCell ds k = some (ds', a)) :
    ds'.minRead ≤ ds.minRead + 1 ∧ (a = .appendTb → 2 ≤ ds.minRead) := by
  cases ds <;> cases k <;> cases h <;> simp [ScanState.minRead]

/-- Two characters of the text stage no digit, and every other at most one (R192). -/
theorem scanText_digits_length {ds ds' : ScanState} {tb tb' : Digit} {out out' : List Digit} {xs : List Code} {n : Nat}
    (hmin : ds.minRead ≤ n) (hout : out.length ≤ n - 2) (h : scanText ds tb out xs = some (ds', tb', out')) :
    out'.length ≤ n + xs.length - 2 := by
  induction xs generalizing ds tb out n with
  | nil => cases h; exact hout
  | cons x xs ih =>
    rw [scanText] at h
    cases hcell : scanCell ds (classify x) with
    | none => simp [hcell] at h
    | some p =>
      obtain ⟨ds1, a⟩ := p
      obtain ⟨hnext, htwo⟩ := scanCell_minRead hcell
      rw [hcell] at h
      rw [List.length_cons, ← Nat.add_assoc, Nat.add_right_comm]
      cases a with
      | none | setTb b => exact ih (n := n + 1) (by omega) (by omega) h
      | appendTb =>
        have := htwo rfl
        exact ih (n := n + 1) (by omega) (by simp; omega) h

/-- A text decodes to at least two digits fewer than it has characters (R192). -/
theorem rlDecode_digits_length {c : List Code} {d : List Digit} (h : rlDecode c = .ok d) : d.length ≤ c.length - 2 := by
  obtain ⟨ds, tb, hscan, -⟩ := (rlDecode_ok_iff c d).1 h
  simpa using scanText_digits_length (n := 0) (by decide) (by simp) hscan

theorem nextEmit_length_le (p d : Digit) : (nextEmit p d).length ≤ 5 := by
  cases p <;> cases d <;> decide

theorem encodeRest_length_le (p : Digit) (d : List Digit) : (encodeRest p d).length ≤ 5 * d.length := by
  induction d generalizing p with
  | nil => simp [encodeRest]
  | cons x d ih =>
    have := nextEmit_length_le p x
    have := ih x
    simp [encodeRest]
    omega

/-- The encoder emits at most four characters for the first digit and five for each later one (R192). -/
theorem rlEncode_length_le (d : List Digit) : (rlEncode d).length ≤ 5 * d.length - 1 := by
  cases d with
  | nil => simp [rlEncode]
  | cons x d =>
    have hfirst : (firstEmit x).length ≤ 4 := by cases x <;> decide
    have := encodeRest_length_le x d
    simp [rlEncode]
    omega

theorem toBinary_digits_length {t : List Code} {d : List Digit} (h : toBinary t = .ok d) :
    d.length = Config.W * t.length := by
  unfold toBinary at h
  split at h
  · cases h
    rw [field_flatMap_length, Nat.mul_comm]
  · cases h

/-- In the sizes of R192 every block step has room: DIG for the digits of the text, COUT for the output on them. -/
theorem State.Room.roomFor_blockStep {s : State} (hroom : s.Room) (hb : s.st = .busy) (hinv : s.CallInv)
    (h : s.CallContent) : s.roomFor (blockStep s.control s) = true := by
  have hcase := blockStep_case s.control s
  generalize blockStep s.control s = t at hcase ⊢
  cases hcase with
  | tobinChar stage dir ip char =>
    have hfits := hroom.front_encode ((hinv.stage_of_command hb).1 stage) dir
    have hlen := hinv.front_encode hb stage dir
    refine (State.roomFor_iff _ _).2 ⟨.inr (Capacity.fits_mono hfits ?_), .inl (by simp)⟩
    simp [hlen, Config.W]
    omega
  | rldecChar stage dir ip ds a cell =>
    have hfits := hroom.front_decode ((hinv.stage_of_command hb).1 stage) dir
    obtain ⟨out, hscan, hlen, hholds⟩ := h.front_decode hb stage dir
    obtain ⟨out', hscan', hlen', -⟩ := State.scanText_take_succ ip hscan cell hlen hholds
    have hbound := scanText_digits_length (n := 0) (by decide) (by simp) hscan'
    refine (State.roomFor_iff _ _).2 ⟨.inr (Capacity.fits_mono hfits ?_), .inl (by simp)⟩
    simp [hlen'] at hbound ⊢
    omega
  | rlencDigit stage dir ip =>
    obtain ⟨hlen, -, hprev⟩ := h.back_encode hb stage dir
    have hbe := (hinv.stage_of_command hb).2 stage
    have hemit := rlEncode_length_le (s.digText.take (s.ip + 1))
    rw [State.rlEncode_take_succ ip hprev, List.length_append, ← hlen] at hemit
    have htake : (s.digText.take (s.ip + 1)).length = s.ip + 1 := by simp; omega
    refine (State.roomFor_iff _ _).2 ⟨.inl (by simp), .inr ?_⟩
    cases hfe : s.control.fe with
    | false => exact Capacity.fits_mono (hroom.back_encode hfe hbe dir) (by simp; omega)
    | true =>
      have hdigits := toBinary_digits_length (h.back_enc hb stage hfe dir)
      rw [State.digText_length, State.cinText_length] at hdigits
      exact Capacity.fits_mono (hroom.back_enc hfe hbe dir) (by simp; omega)
  | totxtGroup stage dir len ip =>
    obtain ⟨hle, hcl, hmod⟩ := hinv.back_decode hb stage dir
    have hbe := (hinv.stage_of_command hb).2 stage
    have hgroup : s.ip + 1 ≤ s.digLen / Config.W := by
      simp [Config.W] at hle hmod len ip ⊢
      omega
    refine (State.roomFor_iff _ _).2 ⟨.inl (by simp), .inr ?_⟩
    cases hfe : s.control.fe with
    | false => exact Capacity.fits_mono (hroom.back_decode hfe hbe dir) (by simp; omega)
    | true =>
      have hdigits := rlDecode_digits_length (h.back_dec hb stage hfe dir)
      rw [State.digText_length, State.cinText_length] at hdigits
      have hdiv := Nat.div_le_div_right (c := Config.W) hdigits
      exact Capacity.fits_mono (hroom.back_dec hfe hbe dir) (by simp; omega)
  | frontDone => exact State.roomFor_of_le (s.frontDone_lengths_le _).1 (s.frontDone_lengths_le _).2
  | rlencFinish | totxtFinish => exact State.roomFor_of_le (by simp; split <;> omega) (by simp)
  | raise e why => exact State.roomFor_of_le (by simp; split <;> omega) (by simp)

/-- The sizes of R192 depend on the command, on CIN_LEN, and without a front end on DIG_LEN. -/
theorem State.Room.congr {s t : State} (h : s.Room) (hctl : t.control = s.control) (hcaps : t.caps = s.caps)
    (hcin : t.cinLen = s.cinLen) (hdig : s.control.fe = false → t.digLen = s.digLen) : t.Room := by
  constructor <;> rw [hctl, hcaps]
  case front_encode => rw [hcin]; exact h.front_encode
  case front_decode => rw [hcin]; exact h.front_decode
  case back_enc => rw [hcin]; exact h.back_enc
  case back_dec => rw [hcin]; exact h.back_dec
  case back_encode => intro hfe; rw [hdig hfe]; exact h.back_encode hfe
  case back_decode => intro hfe; rw [hdig hfe]; exact h.back_decode hfe

/-- A block step leaves the sizes of R192 as they are. -/
theorem blockStep_room {s : State} (h : s.Room) (hb : s.st = .busy) (hinv : s.CallInv) :
    (blockStep s.control s).Room :=
  h.congr (by simp) (by simp) (by simp)
    fun hfe => (blockStep_digits_of_no_front (hinv.stage_of_no_front hb hfe) hfe).2

/-- A call in buffers of the sizes of R192 ends. -/
theorem State.Room.call_ends {s : State} (h : s.Room) (hs : s.st ≠ .busy) : ∃ n t, CallEnds s n t := by
  by_cases hdone : s.callStart.st = .done
  · exact ⟨1, s.callStart, Nat.one_ne_zero, stepN_next 0 (step_calling hs), hdone⟩
  · have hb : s.callStart.st = .busy := s.callStart_busy <| by
      rw [State.callStart_done_iff] at hdone
      simpa [or_iff_not_imp_left] using hdone
    have hstart : s.callStart.Room := h.congr rfl rfl rfl fun hfe => by simp [State.callStart, hfe]
    obtain ⟨n, -, ⟨t, hrun, hdone, -⟩ | ⟨-, u, hub, huinv, ⟨huroom, huc⟩, hno⟩⟩ := run_ends_or_refused
      (P := fun u => u.Room ∧ u.CallContent)
      (fun u hb hinv ⟨hroom, hc⟩ _ => ⟨blockStep_room hroom hb hinv, blockStep_callContent hb hinv hc⟩)
      hb s.callStart_pending s.callStart_callInv ⟨hstart, s.callStart_callContent⟩
    · exact ⟨n + 1, t, Nat.succ_ne_zero n, (stepN_next n (step_calling hs)).trans hrun, hdone⟩
    · rw [huroom.roomFor_blockStep hub huinv huc] at hno
      cases hno

end Sys2Proof.Machine
end

section
/-! PROOFS. What a block step leaves alone: the host's fields, the buffers and registers of the other stage, and the
elements of a buffer outside what it appends. -/

namespace Sys2Proof.Machine

open Sys2Proof

/-- What a command that answers a next state did: a block step, or a GO. -/
theorem exec_next {i : Instr} {s t : State} (h : exec i s = .next t) :
    (s.st = .busy ∧ t = blockStep i.control s) ∨ (s.st ≠ .busy ∧ t = s.go i.control) := by
  by_cases hb : s.st = .busy
  · rw [exec_of_busy i s hb] at h
    exact .inl ⟨hb, (State.commit_next.1 h).1⟩
  · rw [exec_of_not_busy i s hb] at h
    cases h
    exact .inr ⟨hb, rfl⟩

@[simp] theorem State.scanAct_cout (s : State) (a : ScanAction) : (s.scanAct a).cout = s.cout := by cases a <;> rfl
@[simp] theorem State.scanAct_prev (s : State) (a : ScanAction) : (s.scanAct a).prev = s.prev := by cases a <;> rfl
@[simp] theorem State.scanAct_answers (s : State) (a : ScanAction) : (s.scanAct a).answers = s.answers := by
  cases a <;> rfl

@[simp] theorem blockStep_answers (c : Control) (s : State) : (blockStep c s).answers = s.answers := by
  have h := blockStep_case c s
  generalize blockStep c s = t at h ⊢
  cases h <;> simp

/-- A step in FRONT does not touch what RLENC and TOTXT work on. -/
theorem blockStep_of_front {c : Control} {s : State} (hs : s.stage = .front) :
    (blockStep c s).prev = s.prev ∧ (blockStep c s).cout = s.cout := by
  have h := blockStep_case c s
  generalize blockStep c s = t at h ⊢
  cases h with
  | rlencDigit stage | totxtGroup stage | rlencFinish stage | totxtFinish stage => simp [hs] at stage
  | tobinChar | rldecChar | frontDone | raise => simp

/-- A step in BACK does not touch the digits, nor the scanner, and stays in BACK. -/
theorem blockStep_of_back {c : Control} {s : State} (hs : s.stage = .back) :
    (blockStep c s).ds = s.ds ∧ (blockStep c s).tb = s.tb ∧ (blockStep c s).stage = .back ∧
      (blockStep c s).dig = s.dig := by
  have h := blockStep_case c s
  generalize blockStep c s = t at h ⊢
  cases h with
  | tobinChar stage | rldecChar stage | frontDone stage => simp [hs] at stage
  | rlencDigit | totxtGroup | rlencFinish | totxtFinish | raise => simp [hs]

/-- A block step writes DIG from DIG_LEN on, at most one group. -/
theorem blockStep_dig (c : Control) (s : State) :
    ∃ ds : List Digit, ds.length ≤ Config.W ∧ (blockStep c s).dig = Memory.setSeq s.dig s.digLen ds := by
  have h := blockStep_case c s
  generalize blockStep c s = t at h ⊢
  cases h with
  | tobinChar => exact ⟨field (s.cinAt s.ip), by simp, rfl⟩
  | rldecChar _ _ _ _ a =>
    cases a with
    | none | setTb b => exact ⟨[], by simp, rfl⟩
    | appendTb => exact ⟨[s.tb], by simp, rfl⟩
  | frontDone => exact ⟨[], by simp, s.frontDone_dig c⟩
  | rlencDigit | totxtGroup | rlencFinish | totxtFinish | raise => exact ⟨[], by simp, rfl⟩

/-- A block step writes COUT from COUT_LEN on, at most five characters. -/
theorem blockStep_cout (c : Control) (s : State) :
    ∃ cs : List Code, cs.length ≤ 5 ∧ (blockStep c s).cout = Memory.setSeq s.cout s.coutLen cs := by
  have h := blockStep_case c s
  generalize blockStep c s = t at h ⊢
  cases h with
  | rlencDigit => exact ⟨s.emitted, s.emitted_length_le, rfl⟩
  | totxtGroup => exact ⟨[_], by simp, rfl⟩
  | rldecChar _ _ _ _ a => exact ⟨[], by simp, s.scanAct_cout a⟩
  | frontDone => exact ⟨[], by simp, s.frontDone_cout c⟩
  | tobinChar | rlencFinish | totxtFinish | raise => exact ⟨[], by simp, rfl⟩

/-- Consecutive writes leave the elements outside a window that holds them. -/
theorem Memory.get?_setSeq_outside {α : Type} (m : Memory α) {i j k : Nat} {vs : List α} (hk : vs.length ≤ k)
    (h : j < i ∨ i + k ≤ j) : Memory.get? (Memory.setSeq m i vs) j = Memory.get? m j := by
  obtain h | h := h
  · exact Memory.get?_setSeq_lt m i j vs h
  · exact Memory.get?_setSeq_ge m i j vs (by omega)

/-- A call that runs goes on or ends (R35). -/
theorem blockStep_busy_or_done {c : Control} {s : State} (hb : s.st = .busy) :
    (blockStep c s).st = .busy ∨ (blockStep c s).st = .done := by
  have h := blockStep_case c s
  generalize blockStep c s = t at h ⊢
  cases h with
  | tobinChar | rldecChar | rlencDigit | totxtGroup => exact .inl (by simpa using hb)
  | frontDone =>
    cases hbe : c.be with
    | true => exact .inl (by simpa [State.frontDone_be _ _ hbe] using hb)
    | false => exact .inr (by simp [State.frontDone_not_be _ _ hbe])
  | rlencFinish | totxtFinish | raise => exact .inr rfl

/-- A block step that ends the call is Finish or Fail. -/
theorem blockStep_done {c : Control} {s : State} (hb : s.st = .busy) (hdone : (blockStep c s).st = .done) :
    blockStep c s = s.finish c ∨ ∃ e, e ≠ .none ∧ blockStep c s = s.fail c e := by
  have h := blockStep_case c s
  generalize blockStep c s = t at h hdone ⊢
  cases h with
  | tobinChar | rldecChar | rlencDigit | totxtGroup => simp [hb] at hdone
  | frontDone =>
    cases hbe : c.be with
    | true => simp [State.frontDone_be _ _ hbe, hb] at hdone
    | false => exact .inl (by simp [State.frontDone, hbe])
  | rlencFinish | totxtFinish => exact .inl rfl
  | raise e why => exact .inr ⟨e, by cases why <;> simp, rfl⟩

end Sys2Proof.Machine
end

section
/-! PROOFS. A step for each access of the host, by call state (R40). -/

namespace Sys2Proof.Machine

open Sys2Proof

/-- A host write between calls of a value that fits is performed. -/
theorem hostWrite_of_fits {s t : State} {f : Bool} (hs : s.st ≠ .busy) (hf : f = true) :
    hostWrite s f t = .next t := hostWrite_next.2 ⟨hs, hf, rfl⟩

/-- A CTRL write with GO = 1 between calls performs GO (R181). -/
theorem step_writeCtrl_go {s : State} {v : BitVec 1} {rest : List HostMove} (hs : s.st ≠ .busy)
    (hp : s.pending = .writeCtrl v :: rest) (hv : v.getLsbD 0 = true) :
    step s = .next (({ s with pending := rest } : State).go s.control) := by
  rw [step_cons s _ rest hp, hostMove, if_neg hs, if_pos hv, runCmd]
  exact exec_of_not_busy _ { s with pending := rest } hs

/-- One with GO = 0 does nothing. -/
theorem step_writeCtrl_no_go {s : State} {v : BitVec 1} {rest : List HostMove} (hs : s.st ≠ .busy)
    (hp : s.pending = .writeCtrl v :: rest) (hv : v.getLsbD 0 = false) :
    step s = .next { s with pending := rest } := by
  rw [step_cons s _ rest hp, hostMove, if_neg hs, if_neg (ne_true_of_eq_false hv)]

/-- Every host write while BUSY is refused (93 U4). -/
theorem step_write_of_busy {s : State} {m : HostMove} {rest : List HostMove} (hb : s.st = .busy)
    (hp : s.pending = m :: rest)
    (hm : (∃ v, m = .writeCmd v) ∨ (∃ v, m = .writeCtrl v) ∨ (∃ n, m = .writeCinLen n) ∨ (∃ n, m = .writeDigLen n) ∨
      (∃ i c, m = .writeCin i c) ∨ (∃ i d, m = .writeDig i d)) :
    step s = .refused .hostWriteWhileBusy := by
  rw [step_cons s m rest hp]
  obtain ⟨v, rfl⟩ | ⟨v, rfl⟩ | ⟨n, rfl⟩ | ⟨n, rfl⟩ | ⟨i, c, rfl⟩ | ⟨i, d, rfl⟩ := hm <;> exact if_pos hb

/-- A register read that the call state allows. -/
theorem step_readReg {s : State} {r : HostReg} {rest : List HostMove} (hp : s.pending = .readReg r :: rest)
    (h : s.st ≠ .busy ∨ r.readableWhileBusy = true) :
    step s = .next { s with pending := rest, answers := s.answers ++ [s.readReg r] } := by
  have hallowed : ¬(s.st = .busy ∧ r.readableWhileBusy = false) := by
    obtain h | h := h <;> simp [h]
  rw [step_cons s _ rest hp, hostMove, if_neg hallowed]
  cases r <;> rfl

/-- The host may read CIN in any call state. -/
theorem step_readCin {s : State} {i : Nat} {rest : List HostMove} (hp : s.pending = .readCin i :: rest) :
    step s = .next { s with pending := rest, answers := s.answers ++ [.code (s.hostCode s.cin s.cinLen i)] } := by
  rw [step_cons s _ rest hp]
  rfl

theorem step_readDig {s : State} {i : Nat} {rest : List HostMove} (hs : s.st ≠ .busy)
    (hp : s.pending = .readDig i :: rest) :
    step s = .next { s with pending := rest, answers := s.answers ++ [.digit (s.hostDigit i)] } := by
  rw [step_cons s _ rest hp, hostMove, if_neg hs]
  rfl

theorem step_readCout {s : State} {i : Nat} {rest : List HostMove} (hs : s.st ≠ .busy)
    (hp : s.pending = .readCout i :: rest) :
    step s = .next { s with pending := rest, answers := s.answers ++ [.code (s.hostCode s.cout s.coutLen i)] } := by
  rw [step_cons s _ rest hp, hostMove, if_neg hs]
  rfl

/-- Every other host read while BUSY is refused (93 U5). -/
theorem step_read_of_busy {s : State} {m : HostMove} {rest : List HostMove} (hb : s.st = .busy)
    (hp : s.pending = m :: rest)
    (hm : m = .readReg .ctrl ∨ m = .readReg .digLen ∨ m = .readReg .coutLen ∨ (∃ i, m = .readDig i) ∨
      (∃ i, m = .readCout i)) :
    step s = .refused .hostReadWhileBusy := by
  rw [step_cons s m rest hp]
  obtain rfl | rfl | rfl | ⟨i, rfl⟩ | ⟨i, rfl⟩ := hm
  · exact if_pos ⟨hb, rfl⟩
  · exact if_pos ⟨hb, rfl⟩
  · exact if_pos ⟨hb, rfl⟩
  · exact if_pos hb
  · exact if_pos hb

/-! What a read of an element returns (R34). -/

theorem State.hostCode_of_written {s : State} {m : List Host.Cell} {len i : Nat} {c : Code} (hi : i < len)
    (h : Memory.get? m i = some c) : s.hostCode m len i = c := by
  simp [State.hostCode, hi, h]

theorem State.hostCode_of_le {s : State} {m : List Host.Cell} {len i : Nat} (hi : len ≤ i) :
    s.hostCode m len i = Config.freeHostCode s.answers.length i := if_neg (by omega)

theorem State.hostDigit_of_written {s : State} {i : Nat} {d : Digit} (hi : i < s.digLen)
    (h : Memory.get? s.dig i = some d) : s.hostDigit i = d := by
  simp [State.hostDigit, hi, h]

theorem State.hostDigit_of_le {s : State} {i : Nat} (hi : s.digLen ≤ i) :
    s.hostDigit i = Config.freeHostDigit s.answers.length i := if_neg (by omega)

end Sys2Proof.Machine
end

section
/-! PROOFS. The obligations of 10_state. -/

open Sys2Proof Sys2Proof.Machine

/-- Settles O46. A call that ends shows the result the function level gives on its input (`CallEnds.shows`), and in
the sizes of R192 it ends (`State.Room.call_ends`); two calls that end have both ended after the sum of their
steps. -/
theorem resultDependsOnTheInputAlone : Obligations.ResultDependsOnTheInputAlone := by
  intro s t hs ht h
  refine ⟨fun n m u v hu hv => h.sameResult hs ht hu hv, fun hrs hrt => ?_⟩
  obtain ⟨n, u, hu⟩ := hrs.call_ends hs
  obtain ⟨m, v, hv⟩ := hrt.call_ends ht
  exact ⟨n + m, u, v, hu.later hs m, Nat.add_comm m n ▸ hv.later ht n⟩

/-- Settles O24. Every transition of ST is one of the shapes of a step, a call ends by Finish or Fail
(`blockStep_done`), and the clause about ERR is a field of the invariant of a call. -/
theorem statusLayoutAndTransitions : Obligations.StatusLayoutAndTransitions := by
  refine ⟨fun s => ⟨?_, ?_⟩, fun s t h hreset => ⟨fun hb => ?_, fun hb hdone => ?_, fun hs hgo => ?_, ?_⟩,
    fun s hinv => hinv.err_of_not_done⟩
  · have hst : s.status.extractLsb' 0 2 = s.st.code := BitVec.extractLsb'_append_eq_right ..
    rw [hst]
    cases s.st <;> rfl
  · have herr : s.status.extractLsb' 2 3 = s.err.code := BitVec.extractLsb'_append_eq_left ..
    rw [herr]
    cases s.err <;> rfl
  · cases step_shape s t h with
    | block _ p eq =>
      obtain hst | hst := blockStep_busy_or_done (c := s.control) (s := { s with pending := p }) hb <;> simp [eq, hst]
    | host p a eq => simp [eq, hb]
    | reset head => exact absurd head hreset
    | go free | cmd free | cinLen free | digLen free | cin free | dig free => exact absurd hb free
  · cases step_shape s t h with
    | block _ p eq =>
      subst eq
      exact ⟨p, blockStep_done (s := { s with pending := p }) hb hdone⟩
    | host p a eq => simp [eq, hb] at hdone
    | reset head => exact absurd head hreset
    | go free | cmd free | cinLen free | digLen free | cin free | dig free => exact absurd hb free
  · cases step_shape s t h with
    | block hb => exact absurd hb hs
    | go _ v head hv => exact absurd head (hgo v hv)
    | reset head => exact absurd head hreset
    | host p a eq | cmd _ p a eq | cinLen _ p a eq | digLen _ p a eq | cin _ p _ _ eq | dig _ p _ _ eq => simp [eq]
  · rintro hs ⟨v, hv, hhead⟩
    obtain ⟨rest, hp⟩ := List.head?_eq_some_iff.1 hhead
    rw [step_writeCtrl_go hs hp hv] at h
    cases h
    rw [State.go_st]
    split <;> simp

/-- Settles O29, the frame of a block step by its stages and by what it appends; a GO changes no element. -/
theorem frameOfEveryCommand : Obligations.FrameOfEveryCommand := by
  intro i s t h
  obtain ⟨hb, rfl⟩ | ⟨hs, rfl⟩ := exec_next h
  · obtain ⟨ds, hds, hdig⟩ := blockStep_dig i.control s
    obtain ⟨cs, hcs, hcout⟩ := blockStep_cout i.control s
    refine ⟨by simp, by simp, by simp, by simp, by simp, by simp, fun _ hfront => ?_, fun _ hback => ?_,
      fun a ha => ?_, fun a ha => ?_⟩
    · obtain ⟨hprev, hsame⟩ := blockStep_of_front (c := i.control) hfront
      exact ⟨hprev, fun a => by rw [hsame]⟩
    · obtain ⟨hscan, htb, hstage, hsame⟩ := blockStep_of_back (c := i.control) hback
      exact ⟨hscan, htb, hstage, fun a => by rw [hsame]⟩
    · rw [hdig, Memory.get?_setSeq_outside s.dig hds ha]
    · rw [hcout, Memory.get?_setSeq_outside s.cout hcs ha]
  · exact ⟨rfl, rfl, rfl, rfl, rfl, fun _ => rfl, fun hb => absurd hb hs, fun hb => absurd hb hs, fun _ _ => rfl,
      fun _ _ => rfl⟩

/-- Settles O30, by the cases of a block step. -/
theorem cursorMovesByOne : Obligations.CursorMovesByOne := by
  intro i s t hb h
  rw [exec_of_busy i s hb] at h
  obtain ⟨rfl, -⟩ := State.commit_next.1 h
  have hcase := blockStep_case i.control s
  generalize blockStep i.control s = t at hcase ⊢
  cases hcase with
  | tobinChar | rldecChar | rlencDigit | totxtGroup => exact .inl (by simp [hb])
  | frontDone stage ip =>
    cases hbe : i.control.be with
    | true => exact .inr (.inl (by simp [State.frontDone_be _ _ hbe, hb, stage, ip]))
    | false => exact .inr (.inr (by simp [State.frontDone_not_be _ _ hbe]))
  | rlencFinish | totxtFinish | raise => exact .inr (.inr ⟨rfl, rfl, rfl⟩)

/-- Settles O1: the fields of the reset state. -/
theorem resetLeavesTheStatedValues : Obligations.ResetLeavesTheStatedValues :=
  ⟨rfl, rfl, rfl, rfl, rfl, rfl, rfl, rfl, rfl, rfl, rfl, rfl, fun _ => ⟨rfl, rfl, rfl⟩⟩

/-- Settles O22. While BUSY the only shapes of a step besides a reset are a block step and a change of the host's own
fields, and neither writes CMD. -/
theorem cmdHoldsAnyValueAndIsConstantInACall : Obligations.CmdHoldsAnyValueAndIsConstantInACall := by
  refine ⟨fun s v rest hs hp => ?_, by decide, fun s v rest hb hp => step_write_of_busy hb hp (.inl ⟨v, rfl⟩),
    fun s t hb hreset h => ?_⟩
  · have hwrite : step s = .next { s with pending := .readReg .cmd :: rest, cmd := v } := by
      rw [step_cons s _ _ hp]
      exact hostWrite_of_fits hs rfl
    have hread := step_readReg (s := { s with pending := .readReg .cmd :: rest, cmd := v }) rfl (.inl hs)
    rw [stepN_next 1 hwrite]
    exact stepN_next 0 hread
  · cases step_shape s t h with
    | block _ p eq => simp [eq]
    | host p a eq => simp [eq]
    | reset head => exact absurd head hreset
    | go free | cmd free | cinLen free | digLen free | cin free | dig free => exact absurd hb free

/-- Settles O23, by the steps of a CTRL write and of a register read. -/
theorem ctrlTriggersAndReadsZero : Obligations.CtrlTriggersAndReadsZero :=
  ⟨fun _ _ _ hs hp => ⟨step_writeCtrl_go hs hp, step_writeCtrl_no_go hs hp⟩,
    fun _ _ hp => ⟨rfl, fun hs => step_readReg hp (.inl hs), fun hb => step_read_of_busy hb hp (.inl rfl)⟩⟩

/-- Settles O25, access by access; that STATUS reads BUSY without an error is the invariant of a call. -/
theorem hostAccessByCallState : Obligations.HostAccessByCallState := by
  refine ⟨fun s rest hs => ⟨fun v hp => ?_, fun hp => step_writeCtrl_go hs hp rfl,
    fun hp => step_writeCtrl_no_go hs hp rfl, fun n hp hf => ?_, fun n hp hf => ?_, fun i c hp hf => ?_,
    fun i d hp hf => ?_, fun hp => step_readReg hp (.inl hs), fun hp => step_readReg hp (.inl hs),
    fun hp => step_readReg hp (.inl hs), fun i hp => ?_, fun i hp => ?_⟩,
    fun s rest => ⟨fun hp => step_readReg hp (.inr rfl), fun hp => step_readReg hp (.inr rfl),
      fun hp => step_readReg hp (.inr rfl), fun i hp => ?_⟩,
    fun s m rest hb hp => ⟨step_write_of_busy hb hp, step_read_of_busy hb hp⟩, fun s hinv hb => ?_⟩
  · rw [step_cons s _ rest hp]; exact hostWrite_of_fits hs rfl
  · rw [step_cons s _ rest hp]; exact hostWrite_of_fits hs hf
  · rw [step_cons s _ rest hp]; exact hostWrite_of_fits hs hf
  · rw [step_cons s _ rest hp]
    exact ⟨_, hostWrite_of_fits hs hf, Memory.get?_set_self .., fun a ha => Memory.get?_set_other _ _ _ _ ha⟩
  · rw [step_cons s _ rest hp]
    exact ⟨_, hostWrite_of_fits hs hf, Memory.get?_set_self .., fun a ha => Memory.get?_set_other _ _ _ _ ha⟩
  · exact ⟨_, step_readDig hs hp, fun hi e he => State.hostDigit_of_written hi he⟩
  · exact ⟨_, step_readCout hs hp, fun hi e he => State.hostCode_of_written hi he⟩
  · exact ⟨_, step_readCin hp, fun hi e he => State.hostCode_of_written hi he⟩
  · rw [State.status, hb, hinv.err_of_not_done (by simp [hb])]
    rfl

/-- Settles O28: the three element reads, none of which looks into the buffer at or above the length. -/
theorem readAtOrAboveTheLengthIsFree : Obligations.ReadAtOrAboveTheLengthIsFree := by
  refine fun s rest i => ⟨fun hp hi => ?_, fun hs hp hi => ?_, fun hs hp hi => ?_⟩
  · rw [step_readCin hp, State.hostCode_of_le hi]
  · rw [step_readDig hs hp, State.hostDigit_of_le hi]
  · rw [step_readCout hs hp, State.hostCode_of_le hi]

/-- Settles O31: between calls the invariant asks for little, and the lengths are 0. -/
theorem resetMeetsTheInvariant : Obligations.ResetMeetsTheInvariant := by
  refine ⟨⟨⟨rfl, rfl, rfl⟩, ?_, ⟨rfl, rfl, rfl⟩⟩, .of_not_busy (by decide)⟩
  constructor
  case cout_written => exact Memory.written_zero _
  case err_of_not_done | no_output_with_error => exact fun _ => rfl
  all_goals exact fun hb => nomatch hb

end

section
/-! PROOFS. A command with both stages is the command of its front stage followed by the command of its back stage
(R98): the two calls that read the text stage the same digits, and the two that output read the same digits. -/

namespace Sys2Proof.Machine

open Sys2Proof

/-- The front stage's function answers an error kind or digits. -/
theorem State.frontResult_ne_error_none (s : State) : s.frontResult ≠ .error .none := by
  cases hfe : s.control.fe with
  | false => simp [State.frontResult_host hfe]
  | true =>
    cases hd : s.control.dir with
    | false =>
      rw [State.frontResult_encode hfe hd, toBinary]
      split <;> simp
    | true =>
      rw [State.frontResult_decode hfe hd, rlDecode]
      split
      · simp
      · cases parseCipher s.cinText <;> simp

/-- Two calls whose back stages read the same digits in the same direction end with the same kind and output. -/
theorem State.callResult_of_same_back {s t : State} {d : List Digit} (hs : s.frontResult = .ok d)
    (ht : t.frontResult = .ok d) (hbs : s.control.be = true) (hbt : t.control.be = true)
    (hdir : s.control.dir = t.control.dir) :
    s.callResult.err = t.callResult.err ∧ s.callResult.output = t.callResult.output := by
  have hback : s.backResult d = t.backResult d := by rw [State.backResult, State.backResult, hdir]
  cases hres : t.backResult d with
  | error e =>
    rw [State.callResult_of_back_error hs hbs (hback.trans hres), State.callResult_of_back_error ht hbt hres]
    exact ⟨rfl, rfl⟩
  | ok c =>
    rw [State.callResult_of_back_ok hs hbs (hback.trans hres), State.callResult_of_back_ok ht hbt hres]
    exact ⟨rfl, rfl⟩

/-- A call changes no capacity. -/
theorem CallEnds.caps {s t : State} {n : Nat} (hs : s.st ≠ .busy) (h : CallEnds s n t) : t.caps = s.caps :=
  h.keeps (P := fun u => u.caps = s.caps) (fun u _ _ _ hu => by simpa using hu) hs rfl

/-- A call of a front stage alone that ends without error leaves in DIG the digits that the stage's function gives. -/
theorem CallEnds.front_digits {s t : State} {n : Nat} (hs : s.st ≠ .busy) (h : CallEnds s n t)
    (hfe : s.control.fe = true) (hbe : s.control.be = false) (herr : t.err = .none) :
    ∃ d, s.callStart.frontResult = .ok d ∧ t.digLen = d.length ∧ Memory.Holds t.dig d := by
  have hshow := h.shows hs
  cases hres : s.callStart.frontResult with
  | error e =>
    rw [State.callResult_of_front_error hres] at hshow
    obtain rfl : e = .none := hshow.err.symm.trans herr
    exact absurd hres (State.frontResult_ne_error_none _)
  | ok d =>
    rw [State.callResult_of_no_back hres hbe] at hshow
    exact ⟨d, rfl, hshow.digLen, hshow.digits (by rw [h.control hs, hfe])⟩

/-- A call of a front stage alone that ends with an error was given a text that the stage's function rejects. -/
theorem CallEnds.front_error {s t : State} {n : Nat} (hs : s.st ≠ .busy) (h : CallEnds s n t)
    (hfe : s.control.fe = true) (hbe : s.control.be = false) (herr : t.err ≠ .none) :
    s.callStart.frontResult = .error t.err := by
  have hshow := h.shows hs
  cases hres : s.callStart.frontResult with
  | error e =>
    rw [State.callResult_of_front_error hres] at hshow
    rw [hshow.err]
  | ok d =>
    rw [State.callResult_of_no_back hres hbe] at hshow
    exact absurd hshow.err (by simpa [hfe] using herr)

/-- The state with another word in CMD. -/
def State.withCmd (s : State) (w : CommandWord) : State := { s with cmd := w }

theorem State.withCmd_not_busy {s : State} {w : CommandWord} (hs : s.st ≠ .busy) : (s.withCmd w).st ≠ .busy := hs
@[simp] theorem State.withCmd_control (s : State) (w : CommandWord) :
    (s.withCmd w).control = (decodeCommand w).control := rfl
@[simp] theorem State.withCmd_callText (s : State) (w : CommandWord) : (s.withCmd w).callText = s.callText := rfl

/-- The words of three commands of one direction: with both stages, with the front stage, with the back stage. -/
structure StagesOf (dir : Bool) (both front back : CommandWord) : Prop where
  both : (decodeCommand both).control = { be := true, fe := true, dir := dir }
  front : (decodeCommand front).control = { be := false, fe := true, dir := dir }
  back : (decodeCommand back).control = { be := true, fe := false, dir := dir }

/-- The words of ENC, TOBIN and RLENC (R82). -/
theorem stagesOf_enc : StagesOf false 0b110#3 0b010#3 0b100#3 := ⟨rfl, rfl, rfl⟩

/-- The words of DEC, RLDEC and TOTXT (R82). -/
theorem stagesOf_dec : StagesOf true 0b111#3 0b011#3 0b101#3 := ⟨rfl, rfl, rfl⟩

section

variable {s t u v : State} {n m k : Nat} {dir : Bool} {both front back : CommandWord}

/-- The two commands with a front end stage the same digits. -/
theorem StagesOf.frontResult_eq (h : StagesOf dir both front back) (s : State) :
    (s.withCmd both).callStart.frontResult = (s.withCmd front).callStart.frontResult := by
  simp [State.callStart_frontResult, h.both, h.front]

/-- A call of the front stage that ends without error leaves the digits of its text in DIG. -/
theorem StagesOf.front_digits (h : StagesOf dir both front back) (hs : s.st ≠ .busy)
    (ht : CallEnds (s.withCmd front) n t) (herr : t.err = .none) :
    ∃ d, (s.withCmd front).callStart.frontResult = .ok d ∧ t.digLen = d.length ∧ Memory.Holds t.dig d :=
  ht.front_digits (State.withCmd_not_busy hs) (by simp [h.front]) (by simp [h.front]) herr

/-- Where the front stage fails, so does the command of both stages, with the same kind and no output. -/
theorem StagesOf.same_error (h : StagesOf dir both front back) (hs : s.st ≠ .busy)
    (ht : CallEnds (s.withCmd front) n t) (hv : CallEnds (s.withCmd both) m v) (herr : t.err ≠ .none) :
    v.err = t.err ∧ v.coutLen = 0 := by
  have hshow := hv.shows (State.withCmd_not_busy hs)
  have hres := ht.front_error (State.withCmd_not_busy hs) (by simp [h.front]) (by simp [h.front]) herr
  rw [State.callResult_of_front_error ((h.frontResult_eq s).trans hres)] at hshow
  exact ⟨hshow.err, hshow.coutLen⟩

/-- The command of the back stage on the digits that the front stage left ends as the command of both stages does, and
keeps the digits. -/
theorem StagesOf.same_output (h : StagesOf dir both front back) (hs : s.st ≠ .busy)
    (ht : CallEnds (s.withCmd front) n t) (hv : CallEnds (s.withCmd both) m v) (herr : t.err = .none)
    (hu : CallEnds (t.withCmd back) k u) :
    u.err = v.err ∧ u.coutLen = v.coutLen ∧ u.digLen = t.digLen ∧
      ∀ a, a < u.coutLen → Memory.get? u.cout a = Memory.get? v.cout a := by
  obtain ⟨d, hd, hlen, hholds⟩ := h.front_digits hs ht herr
  have hst : (t.withCmd back).st ≠ .busy := State.withCmd_not_busy (by simp [ht.done])
  have hdigits : (t.withCmd back).callStart.frontResult = .ok d := by
    simp only [State.callStart_frontResult, State.withCmd_control, h.back, Bool.false_eq_true, if_false]
    exact congrArg _ (State.digText_of_holds (s := { t.withCmd back with calls := t.calls + 1 }) hholds hlen)
  obtain ⟨herr', hout⟩ := State.callResult_of_same_back hdigits ((h.frontResult_eq s).trans hd)
    (by simp [h.back]) (by simp [h.both]) (by simp [h.back, h.both])
  have hshow_u := hu.shows hst
  have hshow_v := hv.shows (State.withCmd_not_busy hs)
  have hcout : Memory.Holds v.cout (t.withCmd back).callStart.callResult.output := hout ▸ hshow_v.output
  refine ⟨?_, ?_, (hu.host_digits hst (by simp [h.back])).2,
    fun a ha => hshow_u.output.get?_eq hcout hshow_u.coutLen ha⟩
  · rw [hshow_u.err, hshow_v.err, herr']
  · rw [hshow_u.coutLen, hshow_v.coutLen, hout]

/-- A command of both stages leaves no digits. -/
theorem StagesOf.no_digits (h : StagesOf dir both front back) (hs : s.st ≠ .busy)
    (hv : CallEnds (s.withCmd both) m v) : v.digLen = 0 := by
  have hctl : (s.withCmd both).callStart.control = { be := true, fe := true, dir := dir } := h.both
  rw [(hv.shows (State.withCmd_not_busy hs)).digLen, State.callResult]
  split
  · rfl
  · simp only [hctl, if_true]
    split <;> rfl

/-- The sizes of R192 for both stages are enough for the front stage alone. -/
theorem StagesOf.room_front (h : StagesOf dir both front back) (hr : (s.withCmd both).Room) :
    (s.withCmd front).Room := by
  constructor
  case front_encode => exact fun _ hd => hr.front_encode (by simp [h.both]) (by simpa [h.both, h.front] using hd)
  case front_decode => exact fun _ hd => hr.front_decode (by simp [h.both]) (by simpa [h.both, h.front] using hd)
  all_goals simp [h.front]

/-- They are enough for the back stage on the digits that the front stage left. -/
theorem StagesOf.room_back (h : StagesOf dir both front back) (hs : s.st ≠ .busy) (hr : (s.withCmd both).Room)
    (ht : CallEnds (s.withCmd front) n t) (herr : t.err = .none) : (t.withCmd back).Room := by
  obtain ⟨d, hd, hlen, -⟩ := h.front_digits hs ht herr
  have hcaps : t.caps = s.caps := ht.caps (s := s.withCmd front) hs
  rw [State.callStart_frontResult] at hd
  constructor
  case back_encode =>
    intro _ _ hdir
    obtain rfl : dir = false := by simpa [h.back] using hdir
    have hbound := toBinary_digits_length (t := s.callText) (by simpa [h.front] using hd)
    rw [State.callText_length, ← hlen] at hbound
    have hfits := hr.back_enc (by simp [h.both]) (by simp [h.both]) (by simp [h.both])
    show t.caps.cout.fits (5 * t.digLen - 1) = true
    rw [hcaps, hbound]
    exact hfits
  case back_decode =>
    intro _ _ hdir
    obtain rfl : dir = true := by simpa [h.back] using hdir
    have hbound := rlDecode_digits_length (c := s.callText) (by simpa [h.front] using hd)
    rw [State.callText_length, ← hlen] at hbound
    have hfits := hr.back_dec (by simp [h.both]) (by simp [h.both]) (by simp [h.both])
    show t.caps.cout.fits (t.digLen / Config.W) = true
    rw [hcaps]
    exact Capacity.fits_mono hfits (Nat.div_le_div_right hbound)
  all_goals simp [h.back]

/-- In the sizes of R192 for both stages all three calls end. -/
theorem StagesOf.calls_end (h : StagesOf dir both front back) (hs : s.st ≠ .busy) (hr : (s.withCmd both).Room) :
    ∃ n m t v, CallEnds (s.withCmd front) n t ∧ CallEnds (s.withCmd both) m v ∧
      (t.err = .none → ∃ k u, CallEnds (t.withCmd back) k u) := by
  obtain ⟨n, t, ht⟩ := (h.room_front hr).call_ends (State.withCmd_not_busy hs)
  obtain ⟨m, v, hv⟩ := hr.call_ends (State.withCmd_not_busy hs)
  exact ⟨n, m, t, v, ht, hv, fun herr =>
    (h.room_back hs hr ht herr).call_ends (State.withCmd_not_busy (by simp [ht.done]))⟩

end

end Sys2Proof.Machine
end

section
/-! PROOFS. The command word: what its bits and its bytes stand for (R80, R82, R83), and which steps run it. -/

namespace Sys2Proof

/-- Every command meets the law of its encoding. -/
theorem Laws.RoundTrip.all : ∀ i : Instr, Laws.RoundTrip.Statement i
  | .tobin => tobin
  | .rldec => rldec
  | .rlenc => rlenc
  | .totxt => totxt
  | .enc => enc
  | .dec => dec
  | .reserved d => reserved d

/-- A byte that is a command word stands for the command of its low three bits. -/
theorem decode_cons_of_lt {b : Byte} (h : b.toNat < 8) (rest : List Byte) :
    decode (b :: rest) = .ok (decodeCommand (b.setWidth 3), rest) := by
  simp [decode, commandWordWf, h]

theorem decode_cons_of_le {b : Byte} (h : 8 ≤ b.toNat) (rest : List Byte) :
    decode (b :: rest) = .error .bitAboveCommandWord := by
  simp [decode, commandWordWf, h]

/-- A word of the opcode table that stands for a command is the value of CMD that stands for it. -/
theorem decodeTableWord_eq_some {nbits w : Nat} {i : Instr} (h : decodeTableWord nbits w = some i) :
    decodeCommand (BitVec.ofNat 3 (w % 2 ^ nbits)) = i := by
  unfold decodeTableWord at h
  split at h
  case isFalse => cases h
  case isTrue hbyte =>
    have hnat : (BitVec.ofNat 8 (w % 2 ^ nbits)).toNat = w % 2 ^ nbits := by simpa using hbyte
    by_cases hword : (BitVec.ofNat 8 (w % 2 ^ nbits)).toNat < 8
    · rw [decode_cons_of_lt hword] at h
      obtain rfl := Option.some.inj h
      congr 1
      exact BitVec.eq_of_toNat_eq (by simp)
    · rw [decode_cons_of_le (by omega)] at h
      cases h

namespace Machine

/-! The steps in which the block acts run the command in CMD (R184, R181). -/

theorem blockTurn_runs {s : State} (hb : s.st = .busy) : blockTurn s = exec (decodeCommand s.cmd) s := by
  rw [blockTurn, if_pos hb, runCmd]

theorem step_await_runs {s : State} {rest : List HostMove} (hb : s.st = .busy)
    (hp : s.pending = .awaitNotBusy :: rest) : step s = exec (decodeCommand s.cmd) s := by
  rw [step_cons s _ rest hp, hostMove, if_pos hb, runCmd, ← hp]

theorem step_blockTurn_runs {s : State} {rest : List HostMove} (hb : s.st = .busy)
    (hp : s.pending = .blockTurn :: rest) : step s = exec (decodeCommand s.cmd) { s with pending := rest } := by
  rw [step_cons s _ rest hp, hostMove]
  exact blockTurn_runs hb

theorem step_go_runs {s : State} {v : BitVec 1} {rest : List HostMove} (hs : s.st ≠ .busy) (hv : v.getLsbD 0 = true)
    (hp : s.pending = .writeCtrl v :: rest) : step s = exec (decodeCommand s.cmd) { s with pending := rest } := by
  rw [step_writeCtrl_go hs hp hv]
  exact (exec_of_not_busy _ { s with pending := rest } hs).symm

end Machine

end Sys2Proof
end

section
/-! PROOFS. The W-bit field (R86) as the binary digits of its value. -/

namespace Sys2Proof.Machine

open Sys2Proof

/-- The value of W digits is the number whose bit W-1-i is the digit at index i. -/
theorem groupValue_eq_ofBits (bit : Nat → Digit) :
    groupValue bit = Nat.ofBits fun i : Fin Config.W => bit (Config.W - 1 - i) := by
  simp [groupValue, List.range_succ, Nat.ofBits_succ, Function.comp_def]
  omega

theorem groupValue_lt (bit : Nat → Digit) : groupValue bit < 2 ^ Config.W :=
  groupValue_eq_ofBits bit ▸ Nat.ofBits_lt_two_pow _

/-- A value of W bits is zero-extended, never truncated. -/
theorem codeOfValue_toNat (bit : Nat → Digit) : (codeOfValue (groupValue bit)).toNat = groupValue bit :=
  BitVec.toNat_ofNat .. |>.trans (Nat.mod_eq_of_lt ((groupValue_lt bit).trans (by decide)))

/-- The field of the value of W digits is these digits. -/
theorem field_codeOfValue (bit : Nat → Digit) :
    field (codeOfValue (groupValue bit)) = (List.range Config.W).map bit := by
  refine List.map_congr_left fun i hi => ?_
  have hlt : i < Config.W := List.mem_range.1 hi
  have hbit : Config.W - 1 - i < Config.W := by omega
  rw [BitVec.getLsbD, codeOfValue_toNat, groupValue_eq_ofBits, Nat.testBit_ofBits_lt _ _ hbit]
  congr 1
  show Config.W - 1 - (Config.W - 1 - i) = i
  omega

end Sys2Proof.Machine
end

section
/-! PROOFS. The obligations of 30_encoding. -/

open Sys2Proof Sys2Proof.Machine

/-- Settles O47: the three calls are those of the two stages of the encode direction. -/
theorem encIsTobinThenRlenc : Obligations.EncIsTobinThenRlenc :=
  fun _ hs _ => ⟨fun _ _ _ _ ht hv => ⟨stagesOf_enc.no_digits hs hv, stagesOf_enc.same_error hs ht hv,
    fun herr _ _ hu => stagesOf_enc.same_output hs ht hv herr hu⟩, stagesOf_enc.calls_end hs⟩

/-- Settles O48: the three calls are those of the two stages of the decode direction. -/
theorem decIsRldecThenTotxt : Obligations.DecIsRldecThenTotxt :=
  fun _ hs _ => ⟨fun _ _ _ _ ht hv => ⟨stagesOf_dec.no_digits hs hv, stagesOf_dec.same_error hs ht hv,
    fun herr _ _ hu => stagesOf_dec.same_output hs ht hv herr hu⟩, stagesOf_dec.calls_end hs⟩

/-- Settles O51: the value of W digits is the number with these binary digits. -/
theorem fieldIsMostSignificantFirst : Obligations.FieldIsMostSignificantFirst :=
  ⟨fun c => ⟨field_length c, fun i hi => field_getElem? c i hi⟩,
    fun bit => ⟨groupValue_eq_sum bit, groupValue_lt bit, codeOfValue_toNat bit, field_codeOfValue bit⟩⟩

/-- Settles O3: the eight words of the table, evaluated, and two of them over bytes. -/
theorem commandWordsOfTheTable : Obligations.CommandWordsOfTheTable :=
  ⟨rfl, rfl, rfl, rfl, rfl, rfl, rfl, rfl, rfl, rfl⟩

/-- Settles O4: the law of every command's encoding, and the eight words one by one. -/
theorem decodeAndEncodeAgree : Obligations.DecodeAndEncodeAgree := by
  refine ⟨fun i rest _ => ?_, by decide, fun i => ?_⟩
  · obtain ⟨-, hdecode, -⟩ := Laws.RoundTrip.all i
    exact hdecode rest
  · obtain ⟨-, -, hbits⟩ := Laws.RoundTrip.all i
    exact hbits

/-- Settles O5: only a byte below 8 is read as a command word. -/
theorem otherBytesAreNoCommand : Obligations.OtherBytesAreNoCommand :=
  ⟨rfl, fun _ rest h => decode_cons_of_le h rest⟩

/-- Settles O6: the steps in which the block acts; a placed word runs by one of them, the block's turn while BUSY and
a GO write between calls. -/
theorem stepRunsTheCommandInCmd : Obligations.StepRunsTheCommandInCmd := by
  refine ⟨fun s hb hp => (step_nil s hp).trans (blockTurn_runs hb), fun s rest => step_await_runs,
    fun s rest => step_blockTurn_runs, fun s v rest => step_go_runs, fun s nbits w i hw => ?_⟩
  obtain rfl := decodeTableWord_eq_some hw
  by_cases hb : s.st = .busy
  · have hmove : s.runMove = .blockTurn := if_pos hb
    exact step_blockTurn_runs (s := s.withFetchWord nbits w) hb (congrArg (· :: s.pending) hmove)
  · have hmove : s.runMove = .writeCtrl 1#1 := if_neg hb
    exact step_go_runs (s := s.withFetchWord nbits w) (v := 1#1) hb rfl (congrArg (· :: s.pending) hmove)

/-- Settles O10: the eight words one by one, and the GO of a command without a stage. -/
theorem reservedCommandEndsAtGo : Obligations.ReservedCommandEndsAtGo :=
  ⟨by decide, fun d s hs => ⟨_, exec_of_not_busy (.reserved d) s hs, rfl, rfl, rfl, rfl, rfl⟩⟩

end

section
/-! PROOFS. What a step of the whole machine does to a running call: the host's own fields are nothing to it, and the
host's writes are made between calls. -/

namespace Sys2Proof.Machine

open Sys2Proof

/-- The invariant of a call does not speak of the host's own fields. -/
theorem State.CallInv.withHost {s : State} (h : s.CallInv) (p : List HostMove) (a : List HostValue) :
    ({ s with pending := p, answers := a } : State).CallInv :=
  ⟨h.cout_written, h.err_of_not_done, h.no_output_with_error, h.stage_of_command, h.front, h.front_encode,
    h.back_written, h.back_encode, h.back_decode⟩

/-- The contents of a call do not speak of the host's own fields. -/
theorem State.CallContent.withHost {s : State} (h : s.CallContent) (p : List HostMove) (a : List HostValue) :
    ({ s with pending := p, answers := a } : State).CallContent :=
  ⟨h.front_encode, h.front_decode, h.back_enc, h.back_dec, h.back_encode, h.back_decode⟩

/-- A step keeps the contents of a running call (R112, R116, R134, R158): a block step by its cases, a GO from
nothing; every other shape of a step leaves the call alone or is taken between calls. -/
theorem step_callContent {s t : State} (hinv : s.CallInv) (h : s.CallContent) (hstep : step s = .next t) :
    t.CallContent := by
  cases step_shape s t hstep with
  | block hb p eq =>
    subst eq
    exact blockStep_callContent (s := { s with pending := p }) hb (hinv.withHost p s.answers) (h.withHost p s.answers)
  | go _ _ _ _ p eq => exact eq ▸ go_callContent { s with pending := p }
  | host p a eq => exact eq ▸ h.withHost p a
  | cmd free p _ eq | cinLen free p _ eq | digLen free p _ eq | cin free p _ _ eq | dig free p _ _ eq =>
    exact eq ▸ .of_not_busy free
  | reset _ p eq => exact .of_not_busy (by simp [eq, State.platformReset, State.reset])

end Sys2Proof.Machine
end

section
/-! PROOFS. `toBinary` and `toText` (R110, R114): what they answer, how they grow by one character, and that each
undoes the other (R120). -/

namespace Sys2Proof.Machine

open Sys2Proof

theorem toBinary_ok_iff {t : List Code} {d : List Digit} :
    toBinary t = .ok d ↔ t.all inRange = true ∧ t.flatMap field = d := by
  unfold toBinary
  split <;> simp [*]

theorem toBinary_error_iff {t : List Code} {e : ErrKind} :
    toBinary t = .error e ↔ (∃ c ∈ t, 2 ^ Config.W ≤ c.toNat) ∧ e = .characterOutOfRange := by
  have hall : t.all inRange = true ↔ ¬∃ c ∈ t, 2 ^ Config.W ≤ c.toNat := by simp [List.all_eq_true, inRange_iff]
  unfold toBinary
  split
  · rename_i h
    exact ⟨nofun, fun ⟨hex, _⟩ => absurd hex (hall.1 h)⟩
  · rename_i h
    exact ⟨fun he => ⟨not_not.1 (mt hall.2 h), (Except.error.inj he).symm⟩, fun ⟨_, he⟩ => he ▸ rfl⟩

/-- A character in range puts its field in front. -/
theorem toBinary_cons {c : Code} {t : List Code} {d : List Digit} (hc : inRange c = true) (h : toBinary t = .ok d) :
    toBinary (c :: t) = .ok (field c ++ d) := by
  obtain ⟨hall, rfl⟩ := toBinary_ok_iff.1 h
  exact toBinary_ok_iff.2 ⟨by simp [hc, hall], rfl⟩

theorem toText_ok_iff {d : List Digit} {c : List Code} :
    toText d = .ok c ↔ d.length % Config.W = 0 ∧ textOfGroups (d.length / Config.W) d = c := by
  unfold toText
  split <;> simp_all

theorem toText_error_iff {d : List Digit} {e : ErrKind} :
    toText d = .error e ↔ d.length % Config.W ≠ 0 ∧ e = .invalidLength := by
  unfold toText
  split <;> simp_all [eq_comm]

theorem toText_length {d : List Digit} {c : List Code} (h : toText d = .ok c) : c.length = d.length / Config.W := by
  obtain ⟨-, rfl⟩ := toText_ok_iff.1 h
  exact textOfGroups_length ..

/-- A group of W digits puts its character in front. -/
theorem toText_group {g r : List Digit} {c : List Code} (hg : g.length = Config.W) (h : toText r = .ok c) :
    toText (g ++ r) = .ok (codeOfValue (groupValue fun i => g.getD i false) :: c) := by
  obtain ⟨hmod, rfl⟩ := toText_ok_iff.1 h
  have hlen : (g ++ r).length = Config.W + r.length := by rw [List.length_append, hg]
  have hdiv : (g ++ r).length / Config.W = r.length / Config.W + 1 := by
    rw [hlen, Nat.add_div_left _ (by decide)]
  refine toText_ok_iff.2 ⟨by rw [hlen, Nat.add_mod_left, hmod], ?_⟩
  have hfirst : groupValue (fun i => (g ++ r).getD i false) = groupValue fun i => g.getD i false :=
    groupValue_congr fun i hi => List.getD_append _ _ _ _ (hg ▸ hi)
  rw [hdiv, textOfGroups, hfirst, List.drop_left' hg]

/-- The value of the field of a code in range is the code. -/
theorem codeOfValue_field {c : Code} (hc : inRange c = true) :
    codeOfValue (groupValue fun i => (field c).getD i false) = c := by
  refine BitVec.eq_of_toNat_eq ?_
  have hbits (i : Fin Config.W) : (field c).getD (Config.W - 1 - i) false = c.toNat.testBit i := by
    rw [List.getD_eq_getElem?_getD, field_getElem? c _ (by omega), Nat.sub_sub_self (by omega)]
    rfl
  rw [codeOfValue_toNat, groupValue_eq_ofBits, funext hbits, Nat.ofBits_testBit]
  exact Nat.mod_eq_of_lt ((inRange_iff c).1 hc)

/-- Packing the digits of a text in range gives the text back. -/
theorem toText_toBinary {t : List Code} (h : ∀ c ∈ t, inRange c = true) : ∃ d, toBinary t = .ok d ∧ toText d = .ok t := by
  induction t with
  | nil => exact ⟨[], rfl, rfl⟩
  | cons c t ih =>
    obtain ⟨hc, ht⟩ := List.forall_mem_cons.1 h
    obtain ⟨d, hbin, htext⟩ := ih ht
    exact ⟨field c ++ d, toBinary_cons hc hbin, by rw [toText_group (field_length c) htext, codeOfValue_field hc]⟩

/-- The field of a group's character is the group. -/
theorem field_codeOfGroup {g : List Digit} (hg : g.length = Config.W) :
    field (codeOfValue (groupValue fun i => g.getD i false)) = g := by
  rw [field_codeOfValue]
  refine List.ext_getElem (by simp [hg]) fun i _ hi => ?_
  simp [hi]

theorem inRange_codeOfValue (bit : Nat → Digit) : inRange (codeOfValue (groupValue bit)) = true := by
  rw [inRange_iff, codeOfValue_toNat]
  exact groupValue_lt bit

/-- Unpacking the characters of whole groups gives the digits back. -/
theorem toBinary_toText {d : List Digit} {n : Nat} (h : d.length = n * Config.W) :
    ∃ t, toText d = .ok t ∧ toBinary t = .ok d := by
  induction n generalizing d with
  | zero =>
    obtain rfl : d = [] := List.length_eq_zero_iff.1 (by omega)
    exact ⟨[], rfl, rfl⟩
  | succ n ih =>
    rw [Nat.succ_mul] at h
    have hg : (d.take Config.W).length = Config.W := List.length_take_of_le (by omega)
    obtain ⟨t, htext, hbin⟩ := ih (d := d.drop Config.W) (by rw [List.length_drop, h, Nat.add_sub_cancel])
    have htext' := toText_group hg htext
    have hbin' := toBinary_cons (inRange_codeOfValue fun i => (d.take Config.W).getD i false) hbin
    rw [field_codeOfGroup hg] at hbin'
    rw [List.take_append_drop] at htext' hbin'
    exact ⟨_, htext', hbin'⟩

end Sys2Proof.Machine
end

section
/-! PROOFS. The steps of the BitPacker (R111, R115) where the buffers have room. -/

namespace Sys2Proof.Machine

open Sys2Proof

/-- The TOBIN step on a character in range has room where DIG has room for its field. -/
theorem commit_tobinChar {c : Control} {s : State} (hip : s.ip < s.cinLen) (hchar : inRange (s.cinAt s.ip) = true)
    (hfits : s.caps.dig.fits (s.digLen + Config.W) = true) :
    s.commit (tobinStep c s) = .next (s.appendDig (field (s.cinAt s.ip))).advance := by
  rw [tobinStep, if_pos hip, if_pos hchar]
  exact State.commit_of_room ((State.roomFor_iff _ _).2 ⟨.inr (by simpa using hfits), .inl (by simp)⟩)

/-- Fail is never refused: it leaves no buffer longer. -/
theorem commit_fail (c : Control) (s : State) (e : ErrKind) : s.commit (s.fail c e) = .next (s.fail c e) :=
  State.commit_of_le (by rw [State.fail_digLen]; split <;> omega) (Nat.zero_le _)

/-- Finish is never refused: it leaves no buffer longer. -/
theorem commit_finish (c : Control) (s : State) : s.commit (s.finish c) = .next (s.finish c) :=
  State.commit_of_le (by rw [State.finish_digLen]; split <;> omega) (Nat.le_refl _)

/-- A group step reads whole groups: after the length check the digits left are a multiple of W (R115, R119). -/
theorem State.CallInv.group_le {s : State} (h : s.CallInv) (hb : s.st = .busy) (hs : s.stage = .back)
    (hd : s.control.dir = true) (hlen : ¬(s.ip = 0 ∧ s.digLen % Config.W ≠ 0)) (hip : s.ip * Config.W ≠ s.digLen) :
    s.digLen % Config.W = 0 ∧ s.ip * Config.W + Config.W ≤ s.digLen := by
  obtain ⟨hle, -, hmod⟩ := h.back_decode hb hs hd
  simp only [Config.W] at hle hmod hlen hip ⊢
  omega

end Sys2Proof.Machine
end

section
/-! PROOFS. How many steps a call takes (R191): a call that always has room ends within any measure that its steps
decrease, and one of a single stage takes a GO, a step for each element of the stage's input, and a last one. -/

namespace Sys2Proof.Machine

open Sys2Proof

section

variable {P : State → Prop} {left : State → Nat}
  (room : ∀ u : State, u.st = .busy → u.CallInv → u.CallContent → P u → u.roomFor (blockStep u.control u) = true)
  (keep : ∀ u : State, u.st = .busy → u.CallInv → u.CallContent → P u → (blockStep u.control u).st = .busy →
    P (blockStep u.control u) ∧ left (blockStep u.control u) < left u)

include room keep

/-- A run whose steps have room, and leave less to do while the call goes on, has ended once it has taken more steps
than there was to do. -/
theorem run_ends_within {s : State} (hb : s.st = .busy) (hp : s.pending = []) (hinv : s.CallInv) (hc : s.CallContent)
    (h : P s) {n : Nat} (hn : left s < n) : ∃ t, stepN n s = .next t ∧ t.st = .done := by
  induction n generalizing s with
  | zero => omega
  | succ n ih =>
    have hstep := step_of_busy hb hp
    rw [State.commit_of_room (room s hb hinv hc h)] at hstep
    rw [stepN_next n hstep]
    have hp' : (blockStep s.control s).pending = [] := by simpa using hp
    obtain hbusy | hdone := blockStep_busy_or_done (c := s.control) hb
    · obtain ⟨hP, hless⟩ := keep s hb hinv hc h hbusy
      exact ih hbusy hp' (blockStep_callInv hb hinv) (blockStep_callContent hb hinv hc) hP (by omega)
    · exact ⟨_, stepN_rest (by simp [hdone]) hp' n, hdone⟩

/-- The same for a call, with its GO. -/
theorem call_ends_within {s : State} (hs : s.st ≠ .busy) (hb : s.callStart.st = .busy) (h : P s.callStart) :
    ∃ t, CallEnds s (left s.callStart + 2) t := by
  obtain ⟨t, hrun, hdone⟩ := run_ends_within room keep hb s.callStart_pending s.callStart_callInv
    s.callStart_callContent h (Nat.lt_succ_self _)
  exact ⟨t, Nat.succ_ne_zero _, (stepN_next _ (step_calling hs)).trans hrun, hdone⟩

end

/-- How many elements the running stage consumes: the characters of CIN, the digits of DIG, or its groups. -/
def State.stageInput (s : State) : Nat :=
  match s.stage, s.control.dir with
  | .front, _ => s.cinLen
  | .back, false => s.digLen
  | .back, true => s.digLen / Config.W

theorem State.stageInput_front {s : State} (hs : s.stage = .front) : s.stageInput = s.cinLen := by
  simp [State.stageInput, hs]

theorem State.stageInput_back_encode {s : State} (hs : s.stage = .back) (hd : s.control.dir = false) :
    s.stageInput = s.digLen := by
  simp [State.stageInput, hs, hd]

theorem State.stageInput_back_decode {s : State} (hs : s.stage = .back) (hd : s.control.dir = true) :
    s.stageInput = s.digLen / Config.W := by
  simp [State.stageInput, hs, hd]

/-- The cursor stays within the input of the running stage. -/
theorem State.CallInv.ip_le_stageInput {s : State} (h : s.CallInv) (hb : s.st = .busy) : s.ip ≤ s.stageInput := by
  cases hs : s.stage with
  | front => exact State.stageInput_front hs ▸ (h.front hb hs).1
  | back =>
    cases hd : s.control.dir with
    | false => exact State.stageInput_back_encode hs hd ▸ h.back_encode hb hs hd
    | true =>
      rw [State.stageInput_back_decode hs hd, Nat.le_div_iff_mul_le (by decide)]
      exact (h.back_decode hb hs hd).1

/-- A step of a command with one stage that leaves the call running consumes one element of the stage's input. -/
theorem blockStep_consumes {s : State} (hb : s.st = .busy) (hinv : s.CallInv)
    (hone : s.control.fe = true → s.control.be = false) (hbusy : (blockStep s.control s).st = .busy) :
    (blockStep s.control s).ip = s.ip + 1 ∧ (blockStep s.control s).stageInput = s.stageInput := by
  have hctl := blockStep_control s.control s
  have hcase := blockStep_case s.control s
  unfold State.stageInput
  rw [hctl]
  generalize blockStep s.control s = t at hcase hbusy ⊢
  cases hcase with
  | tobinChar stage | rldecChar stage => simp [stage]
  | rlencDigit stage dir | totxtGroup stage dir => simp [stage, dir]
  | frontDone stage =>
    have hbe := hone ((hinv.stage_of_command hb).1 stage)
    simp [State.frontDone_not_be _ _ hbe] at hbusy
  | rlencFinish | totxtFinish | raise => simp at hbusy

/-- A call of one stage whose steps have room ends with its GO, a step for each element of its input, and one more. -/
theorem one_stage_call_ends {P : State → Prop}
    (room : ∀ u : State, u.st = .busy → u.CallInv → u.CallContent → P u → u.roomFor (blockStep u.control u) = true)
    (keep : ∀ u : State, u.st = .busy → u.CallInv → P u → P (blockStep u.control u))
    {s : State} (hs : s.st ≠ .busy) (hstage : s.control.fe = true ∨ s.control.be = true)
    (hone : s.control.fe = true → s.control.be = false) (h : P s.callStart) :
    ∃ t, CallEnds s (s.callStart.stageInput + 2) t := by
  refine call_ends_within (P := fun u => u.control = s.control ∧ P u) (left := fun u => u.stageInput - u.ip)
    (fun u hb hinv hc hu => room u hb hinv hc hu.2) (fun u hb hinv _ ⟨hctl, hu⟩ hbusy => ?_) hs
    (State.callStart_busy hstage) ⟨rfl, h⟩
  obtain ⟨hip, hinput⟩ := blockStep_consumes hb hinv (hctl ▸ hone) hbusy
  have hle := (blockStep_callInv hb hinv).ip_le_stageInput hbusy
  exact ⟨⟨(blockStep_control _ _).trans hctl, keep u hb hinv hu⟩, by omega⟩

/-- A TOTXT step has room where COUT has room for the characters of all groups, if the length check passes. -/
theorem roomFor_totxtStep {s : State} (hb : s.st = .busy) (hinv : s.CallInv) (hs : s.stage = .back)
    (hd : s.control.dir = true)
    (hfits : s.digLen % Config.W = 0 → s.caps.cout.fits (s.digLen / Config.W) = true) :
    s.roomFor (blockStep s.control s) = true := by
  rw [blockStep_back_decode _ _ hs hd]
  obtain ⟨-, e⟩ | ⟨-, -, e⟩ | ⟨hlen, hip, e⟩ := totxtStep_cases s.control s <;> rw [e]
  · exact (State.commit_next.1 (commit_fail ..)).2
  · exact (State.commit_next.1 (commit_finish ..)).2
  · obtain ⟨hmod, hle⟩ := hinv.group_le hb hs hd hlen hip
    obtain ⟨-, hcl, -⟩ := hinv.back_decode hb hs hd
    have hgroup : s.ip + 1 ≤ s.digLen / Config.W := by
      rwa [Nat.le_div_iff_mul_le (by decide), Nat.succ_mul]
    exact (State.roomFor_iff _ _).2 ⟨.inl (by simp), .inr (Capacity.fits_mono (hfits hmod) (by simpa [hcl]))⟩

end Sys2Proof.Machine
end

section
/-! PROOFS. What a call of one stage shows at its end, by the answer of the stage's function (R183). -/

namespace Sys2Proof.Machine

open Sys2Proof

/-- A call of a command without a back end outputs nothing. -/
theorem CallEnds.no_output {s t : State} {n : Nat} (hs : s.st ≠ .busy) (h : CallEnds s n t)
    (hbe : s.control.be = false) : t.coutLen = 0 := by
  have hshow := h.shows hs
  cases hres : s.callStart.frontResult with
  | error e => rw [State.callResult_of_front_error hres] at hshow; exact hshow.coutLen
  | ok d => rw [State.callResult_of_no_back hres hbe] at hshow; exact hshow.coutLen

/-- A call of a front stage alone whose function answers digits ends with these digits. -/
theorem CallEnds.front_ok {s t : State} {n : Nat} {d : List Digit} (hs : s.st ≠ .busy) (h : CallEnds s n t)
    (hfe : s.control.fe = true) (hbe : s.control.be = false) (hd : s.callStart.frontResult = .ok d) :
    t.err = .none ∧ t.digLen = d.length ∧ Memory.Holds t.dig d := by
  have hshow := h.shows hs
  rw [State.callResult_of_no_back hd hbe] at hshow
  exact ⟨hshow.err.trans (if_pos hfe), hshow.digLen, hshow.digits (h.control hs ▸ hfe)⟩

/-- A call whose front stage's function answers an error kind ends with this kind and no digits. -/
theorem CallEnds.front_raised {s t : State} {n : Nat} {e : ErrKind} (hs : s.st ≠ .busy) (h : CallEnds s n t)
    (he : s.callStart.frontResult = .error e) : t.err = e ∧ t.digLen = 0 := by
  have hshow := h.shows hs
  rw [State.callResult_of_front_error he] at hshow
  exact ⟨hshow.err, hshow.digLen⟩

/-- A call whose back stage's function answers characters ends with these characters. -/
theorem CallEnds.back_ok {s t : State} {n : Nat} {d : List Digit} {c : List Code} (hs : s.st ≠ .busy)
    (h : CallEnds s n t) (hbe : s.control.be = true) (hd : s.callStart.frontResult = .ok d)
    (hc : s.callStart.backResult d = .ok c) : t.err = .none ∧ t.coutLen = c.length ∧ Memory.Holds t.cout c := by
  have hshow := h.shows hs
  rw [State.callResult_of_back_ok hd hbe hc] at hshow
  exact ⟨hshow.err, hshow.coutLen, hshow.output⟩

/-- A call whose back stage's function answers an error kind ends with this kind and no output. -/
theorem CallEnds.back_raised {s t : State} {n : Nat} {d : List Digit} {e : ErrKind} (hs : s.st ≠ .busy)
    (h : CallEnds s n t) (hbe : s.control.be = true) (hd : s.callStart.frontResult = .ok d)
    (he : s.callStart.backResult d = .error e) : t.err = e ∧ t.coutLen = 0 := by
  have hshow := h.shows hs
  rw [State.callResult_of_back_error hd hbe he] at hshow
  exact ⟨hshow.err, hshow.coutLen⟩

end Sys2Proof.Machine
end

section
/-! PROOFS. The obligations of 40_bitpacker. -/

open Sys2Proof Sys2Proof.Machine

/-- Settles O33, by the shapes of a step. -/
theorem stepKeepsTheCallContent : Obligations.StepKeepsTheCallContent :=
  fun _ _ => step_callContent

/-- Settles O35. A call that ends shows what `toBinary` answers on the text (`CallEnds.shows`); the room that the
statement asks for is that of R192, so no step is refused, and every step but the last consumes a character. -/
theorem tobinCallResult : Obligations.TobinCallResult := by
  intro s hs hcmd
  have hctl : s.control = Instr.tobin.control := congrArg Instr.control hcmd
  have hfe : s.control.fe = true := by rw [hctl]; rfl
  have hbe : s.control.be = false := by rw [hctl]; rfl
  have hdir : s.control.dir = false := by rw [hctl]; rfl
  have hfront : s.callStart.frontResult = toBinary s.callText := State.frontResult_encode hfe hdir
  refine ⟨fun n t h => ?_, fun hfits => ?_⟩
  · obtain ⟨hcmd, hcin, hcinLen⟩ := h.input_frame hs
    refine ⟨h.no_output hs hbe, hcmd, hcin, hcinLen, fun d hd => ?_, fun e he => ?_⟩
    · obtain ⟨herr, hlen, hholds⟩ := h.front_ok hs hfe hbe (hfront.trans hd)
      exact ⟨herr, hlen, by rw [hlen, toBinary_digits_length hd, State.callText_length], hholds⟩
    · obtain ⟨herr, hlen⟩ := h.front_raised hs (hfront.trans he)
      exact ⟨(toBinary_error_iff.1 he).2, herr, hlen⟩
  · have hroom : s.callStart.Room := by
      constructor <;> simp only [State.callStart_control, hfe, hbe, hdir]
      case front_encode => exact fun _ _ => hfits
      all_goals simp
    have hstage : s.callStart.stage = .front := by simp [State.callStart, hfe]
    have hinput : s.callStart.stageInput = s.cinLen := State.stageInput_front hstage
    exact hinput ▸ one_stage_call_ends (P := State.Room) (fun u hb hinv hc hu => hu.roomFor_blockStep hb hinv hc)
      (fun u hb hinv hu => blockStep_room hu hb hinv) hs (.inl hfe) (fun _ => hbe) hroom

/-- Settles O38. A call that ends shows what `toText` answers on the host's digits (`CallEnds.shows`), which no step
changes; with room for the characters no step is refused, and every step but the last consumes a group. -/
theorem totxtCallResult : Obligations.TotxtCallResult := by
  intro s hs hcmd
  have hctl : s.control = Instr.totxt.control := congrArg Instr.control hcmd
  have hfe : s.control.fe = false := by rw [hctl]; rfl
  have hbe : s.control.be = true := by rw [hctl]; rfl
  have hdir : s.control.dir = true := by rw [hctl]; rfl
  have hdigLen : s.callStart.digLen = s.digLen := by simp [State.callStart, hfe]
  have hfront : s.callStart.frontResult = .ok s.callDigits :=
    (State.frontResult_host (s := s.callStart) hfe).trans (congrArg _ (State.callStart_digText hfe))
  have hback : s.callStart.backResult s.callDigits = toText s.callDigits := State.backResult_decode hdir _
  refine ⟨fun n t h => ?_, fun hfits => ?_⟩
  · obtain ⟨hcmd, hcin, hcinLen⟩ := h.input_frame hs
    obtain ⟨hdig, hlen⟩ := h.host_digits hs hfe
    refine ⟨hdig, hlen, hcmd, hcin, hcinLen, fun c hc => ?_, fun e he => ?_⟩
    · obtain ⟨herr, hcout, hholds⟩ := h.back_ok hs hbe hfront (hback.trans hc)
      exact ⟨herr, hcout, by rw [hcout, toText_length hc, State.callDigits_length], hholds⟩
    · obtain ⟨herr, hcout⟩ := h.back_raised hs hbe hfront (hback.trans he)
      exact ⟨(toText_error_iff.1 he).2, herr, hcout⟩
  · have hroom (hmod : s.digLen % Config.W = 0) : s.caps.cout.fits (s.digLen / Config.W) = true := by
      rw [← State.callDigits_length] at hmod ⊢
      have hok := toText_ok_iff.2 ⟨hmod, rfl⟩
      exact toText_length hok ▸ hfits _ hok
    have hstage : s.callStart.stage = .back := by simp [State.callStart, hfe, hbe]
    have hinput : s.callStart.stageInput = s.digLen / Config.W := by
      rw [State.stageInput_back_decode hstage hdir, hdigLen]
    rw [← hinput]
    refine one_stage_call_ends (P := fun u => u.control = s.control ∧ u.digLen = s.digLen ∧ u.caps = s.caps)
      (fun u hb hinv _ ⟨huctl, hulen, hucaps⟩ => ?_) (fun u hb hinv ⟨huctl, hulen, hucaps⟩ => ?_) hs (.inr hbe)
      (fun h => absurd h (by simp [hfe])) ⟨rfl, hdigLen, rfl⟩
    · exact roomFor_totxtStep hb hinv (hinv.stage_of_no_front hb (huctl ▸ hfe)) (huctl ▸ hdir)
        (by rw [hulen, hucaps]; exact hroom)
    · have hufe : u.control.fe = false := huctl ▸ hfe
      obtain ⟨-, hlen⟩ := blockStep_digits_of_no_front (hinv.stage_of_no_front hb hufe) hufe
      exact ⟨(blockStep_control _ _).trans huctl, hlen.trans hulen, (blockStep_caps _ _).trans hucaps⟩

/-- Settles O11: what the step appends is the field of the character, and a code that does not fit W bits is raised. -/
theorem tobinCharacterStep : Obligations.TobinCharacterStep := by
  intro i s hi hb hs hip
  have hdir : i.control.dir = false := by obtain rfl | rfl := hi <;> rfl
  have hfe : i.control.fe = true := by obtain rfl | rfl := hi <;> rfl
  rw [exec_of_busy i s hb, blockStep_front_encode _ _ hs hdir]
  refine ⟨fun hchar hfits => ?_, fun hchar => ?_⟩
  · refine ⟨_, commit_tobinChar hip ((inRange_iff _).2 hchar) hfits, ?_, fun k hk => ?_, fun a ha => ?_⟩
    · simp [State.appendDig, State.advance]
    · rw [State.advance_dig, State.appendDig_dig, Memory.get?_setSeq_at _ _ _ _ (by simpa using hk)]
      exact field_getElem? _ k hk
    · exact Memory.get?_setSeq_outside s.dig (field_length _).le ha
  · have hout : ¬inRange (s.cinAt s.ip) = true := by rw [inRange_iff]; exact hchar.not_gt
    rw [tobinStep, if_pos hip, if_neg hout, commit_fail, State.fail, if_pos hfe]

/-- Settles O12, by the three cases of the step in their order. -/
theorem totxtStep : Obligations.TotxtStep := by
  intro i s hi hb hs
  have hdir : i.control.dir = true := by obtain rfl | rfl := hi <;> rfl
  have hbe : i.control.be = true := by obtain rfl | rfl := hi <;> rfl
  rw [exec_of_busy i s hb, blockStep_back_decode _ _ hs hdir, Machine.totxtStep]
  refine ⟨fun hlen => ?_, fun hlen hip => ?_, fun hlen hip hfits => ?_⟩
  · rw [if_pos hlen, commit_fail, State.fail]
  · rw [if_neg hlen, if_pos hip, commit_finish, State.finish, hbe, Bool.and_true]
  · rw [if_neg hlen, if_neg hip]
    refine ⟨_, State.commit_of_room ((State.roomFor_iff _ _).2 ⟨.inl (by simp), .inr hfits⟩), rfl, ?_,
      fun a ha => Memory.get?_set_other _ _ _ _ ha, fun hinv hctl => ?_⟩
    · show Memory.get? (Memory.set s.cout s.coutLen _) s.coutLen = _
      rw [Memory.get?_set_self, groupValue_eq_sum]
      rfl
    · exact (hinv.group_le hb hs (hctl ▸ hdir) hlen hip).2

/-- Settles O52, from what `toBinary` answers and how it grows by a character. -/
theorem toBinaryFollowsItsDefinition : Obligations.ToBinaryFollowsItsDefinition :=
  ⟨rfl, fun c _ _ hc h => toBinary_cons ((inRange_iff c).2 hc) h, fun _ h => toBinary_error_iff.2 ⟨h, rfl⟩,
    fun _ _ h => (toBinary_digits_length h).trans (Nat.mul_comm _ _)⟩

/-- Settles O53, from what `toText` answers and how it grows by a group. -/
theorem toTextFollowsItsDefinition : Obligations.ToTextFollowsItsDefinition := by
  refine ⟨fun _ h => toText_error_iff.2 ⟨h, rfl⟩, rfl, fun _ _ _ hg h => ?_, fun _ _ h => toText_length h⟩
  rw [toText_group hg h, groupValue_eq_sum]
  rfl

/-- Settles O54, by induction over the characters and over the groups. -/
theorem bitPackerRoundTrip : Obligations.BitPackerRoundTrip :=
  ⟨fun _ h => toText_toBinary fun c hc => (inRange_iff c).2 (h c hc),
    fun _ h => toBinary_toText (Nat.div_mul_cancel (Nat.dvd_of_mod_eq_zero h)).symm⟩

end

section
/-! PROOFS. The encoder by runs (R131): how the runs of a digit sequence grow by one digit in front, that they are its
only partition into maximal blocks, and that the digit-at-a-time encoder spells their tokens. -/

namespace Sys2Proof.Machine

open Sys2Proof

/-- A digit that the first run does not repeat is a run of its own. -/
theorem runs_cons_of_changed {d : Digit} {r : List Digit} (h : ∀ t ∈ (runs r).head?, d ≠ t.1) :
    runs (d :: r) = (d, 1) :: runs r := by
  rw [runs]
  cases hr : runs r with
  | nil => rfl
  | cons t more => exact if_neg (h t (by simp [hr])).symm

/-- A digit that repeats the first run makes it longer. -/
theorem runs_cons_of_same {d : Digit} {r : List Digit} {n : Nat} {more : List (Digit × Nat)}
    (h : runs r = (d, n) :: more) : runs (d :: r) = (d, n + 1) :: more := by
  rw [runs, h]
  exact if_pos rfl

/-- One more digit in front starts a run or makes the first one longer. -/
theorem runs_cons_cases (d : Digit) (r : List Digit) :
    ((∀ t ∈ (runs r).head?, d ≠ t.1) ∧ runs (d :: r) = (d, 1) :: runs r) ∨
    ∃ n more, runs r = (d, n) :: more ∧ runs (d :: r) = (d, n + 1) :: more := by
  by_cases h : ∀ t ∈ (runs r).head?, d ≠ t.1
  · exact .inl ⟨h, runs_cons_of_changed h⟩
  · push Not at h
    obtain ⟨⟨b, n⟩, hhead, rfl⟩ := h
    obtain ⟨more, hr⟩ := List.head?_eq_some_iff.1 hhead
    exact .inr ⟨n, more, hr, runs_cons_of_same hr⟩

/-- The first run is one of the first digit, and is not empty. -/
theorem exists_runs_cons (d : Digit) (r : List Digit) : ∃ n more, runs (d :: r) = (d, n + 1) :: more := by
  obtain ⟨-, h⟩ | ⟨n, more, -, h⟩ := runs_cons_cases d r
  · exact ⟨0, _, h⟩
  · exact ⟨n, more, h⟩

theorem runs_ne_nil {d : List Digit} (h : d ≠ []) : runs d ≠ [] := by
  obtain ⟨x, r, rfl⟩ := List.exists_cons_of_ne_nil h
  obtain ⟨n, more, hr⟩ := exists_runs_cons x r
  simp [hr]

@[simp] theorem digitsOfTokens_cons (b : Digit) (n : Nat) (ts : List (Digit × Nat)) :
    digitsOfTokens ((b, n) :: ts) = List.replicate n b ++ digitsOfTokens ts := rfl

/-- The runs partition the digits. -/
theorem digitsOfTokens_runs (d : List Digit) : digitsOfTokens (runs d) = d := by
  induction d with
  | nil => rfl
  | cons x r ih =>
    obtain ⟨-, h⟩ | ⟨n, more, hr, h⟩ := runs_cons_cases x r
    · rw [h, digitsOfTokens_cons, ih, List.replicate_one, List.singleton_append]
    · rw [h, digitsOfTokens_cons, List.replicate_succ, List.cons_append, ← digitsOfTokens_cons, ← hr, ih]

/-- No run is empty. -/
theorem runs_pos (d : List Digit) : ∀ t ∈ runs d, 1 ≤ t.2 := by
  induction d with
  | nil => simp [runs]
  | cons x r ih =>
    obtain ⟨-, h⟩ | ⟨n, more, hr, h⟩ := runs_cons_cases x r
    · simpa [h] using ih
    · rw [hr, List.forall_mem_cons] at ih
      simpa [h] using ih.2

/-- Neighbouring runs differ. -/
theorem runs_alternate (d : List Digit) : List.IsChain (fun a b : Digit × Nat => a.1 ≠ b.1) (runs d) := by
  induction d with
  | nil => exact .nil
  | cons x r ih =>
    obtain ⟨hne, h⟩ | ⟨n, more, hr, h⟩ := runs_cons_cases x r
    · rw [h]
      exact List.isChain_cons.2 ⟨hne, ih⟩
    · rw [hr, List.isChain_cons] at ih
      rw [h]
      exact List.isChain_cons.2 ih

/-- A block in front of digits whose first run has another bit is a run. -/
theorem runs_replicate_append {b : Digit} {r : List Digit} (n : Nat) (h : ∀ t ∈ (runs r).head?, b ≠ t.1) :
    runs (List.replicate (n + 1) b ++ r) = (b, n + 1) :: runs r := by
  induction n with
  | zero => exact runs_cons_of_changed h
  | succ n ih => exact runs_cons_of_same ih

/-- A partition into maximal blocks is that into the runs. -/
theorem runs_digitsOfTokens {ts : List (Digit × Nat)} (hpos : ∀ t ∈ ts, 1 ≤ t.2)
    (halt : List.IsChain (fun a b : Digit × Nat => a.1 ≠ b.1) ts) : runs (digitsOfTokens ts) = ts := by
  induction ts with
  | nil => rfl
  | cons t ts ih =>
    obtain ⟨b, n⟩ := t
    obtain ⟨hn, hpos'⟩ := List.forall_mem_cons.1 hpos
    obtain ⟨hne, halt'⟩ := List.isChain_cons.1 halt
    have hts := ih hpos' halt'
    obtain ⟨m, rfl⟩ := Nat.exists_eq_add_of_le' hn
    rw [digitsOfTokens_cons, runs_replicate_append m (by rwa [hts]), hts]

/-- A token after the first, with the space that separates it (R131). -/
def laterToken (t : Digit × Nat) : List Code := Config.codeSpace :: token t.1 t.2

theorem joinTokens_cons (t : Digit × Nat) (ts : List (Digit × Nat)) :
    joinTokens (t :: ts) = token t.1 t.2 ++ ts.flatMap laterToken := by
  induction ts generalizing t with
  | nil => simp [joinTokens]
  | cons u ts ih => simp [joinTokens, ih, laterToken]

/-- The fillers of a token after its first one. -/
theorem token_succ (b : Digit) (n : Nat) : token b (n + 1) = firstEmit b ++ List.replicate n Config.codeZero := by
  rw [firstEmit_eq]
  simp [token, List.replicate_succ]

/-- What the encoder emits after the first digit are the other fillers of the first token, and the later tokens. -/
theorem encodeRest_of_runs {p : Digit} {r : List Digit} {n : Nat} {more : List (Digit × Nat)}
    (h : runs (p :: r) = (p, n + 1) :: more) :
    encodeRest p r = List.replicate n Config.codeZero ++ more.flatMap laterToken := by
  induction r generalizing p n more with
  | nil => cases h; rfl
  | cons d r ih =>
    obtain ⟨m, rest, hd⟩ := exists_runs_cons d r
    rw [encodeRest, ih hd]
    by_cases hdp : d = p
    · subst hdp
      rw [runs_cons_of_same hd] at h
      cases h
      rw [nextEmit_same, List.replicate_succ]
      rfl
    · rw [runs_cons_of_changed (by simpa [hd] using Ne.symm hdp), hd] at h
      cases h
      rw [nextEmit_changed p d hdp, ← firstEmit_eq]
      simp [laterToken, token_succ]

/-- The encoder spells the tokens of the runs (R131). -/
theorem rlEncode_eq_joinTokens_runs (d : List Digit) : rlEncode d = joinTokens (runs d) := by
  cases d with
  | nil => rfl
  | cons x r =>
    obtain ⟨n, more, h⟩ := exists_runs_cons x r
    rw [h, joinTokens_cons, token_succ, List.append_assoc, ← encodeRest_of_runs h, rlEncode]

end Sys2Proof.Machine
end

section
/-! PROOFS. The shape of the encoder's output (R132): each emission is spelled in the two cipher characters, has no two
spaces in a row and ends with a filler, and so has what the emissions join to; the length, by tokens. -/

namespace Sys2Proof.Machine

open Sys2Proof

/-- A text of the two cipher characters without two spaces in a row, which ends with a filler. -/
structure WellSpaced (cs : List Code) : Prop where
  alphabet : ∀ c ∈ cs, c = Config.codeZero ∨ c = Config.codeSpace
  single : List.IsChain (fun a b : Code => ¬(a = Config.codeSpace ∧ b = Config.codeSpace)) cs
  last : cs.getLast? = some Config.codeZero

/-- The filler at the end of a text separates it from what follows. -/
theorem WellSpaced.append {xs ys : List Code} (hx : WellSpaced xs) (hy : WellSpaced ys) : WellSpaced (xs ++ ys) := by
  refine ⟨List.forall_mem_append.2 ⟨hx.alphabet, hy.alphabet⟩, List.isChain_append.2 ⟨hx.single, hy.single, ?_⟩, ?_⟩
  · intro a ha b _ ⟨hspace, _⟩
    rw [hx.last, Option.mem_some_iff, hspace] at ha
    exact absurd ha (by decide)
  · rw [List.getLast?_append, hy.last]
    rfl

theorem firstEmit_wellSpaced (d : Digit) : WellSpaced (firstEmit d) := by
  constructor <;> cases d <;> decide

theorem nextEmit_wellSpaced (p d : Digit) : WellSpaced (nextEmit p d) := by
  constructor <;> cases p <;> cases d <;> decide

theorem WellSpaced.append_encodeRest {xs : List Code} (hx : WellSpaced xs) (p : Digit) (r : List Digit) :
    WellSpaced (xs ++ encodeRest p r) := by
  induction r generalizing xs p with
  | nil => rwa [encodeRest, List.append_nil]
  | cons d r ih =>
    rw [encodeRest, ← List.append_assoc]
    exact ih (hx.append (nextEmit_wellSpaced p d)) d

theorem rlEncode_wellSpaced {d : List Digit} (h : d ≠ []) : WellSpaced (rlEncode d) := by
  obtain ⟨x, r, rfl⟩ := List.exists_cons_of_ne_nil h
  exact (firstEmit_wellSpaced x).append_encodeRest x r

/-- The encoder's output begins with the mark of the first run. -/
theorem rlEncode_head? {d : List Digit} (h : d ≠ []) : (rlEncode d).head? = some Config.codeZero := by
  obtain ⟨x, r, rfl⟩ := List.exists_cons_of_ne_nil h
  cases x <;> rfl

/-- The later tokens take a filler for each digit, the rest of their marks and spaces, and a separator each. -/
theorem flatMap_laterToken_length (ts : List (Digit × Nat)) :
    (ts.flatMap laterToken).length = (digitsOfTokens ts).length + 2 * (ts.filter fun t => t.1).length +
      3 * (ts.filter fun t => !t.1).length + ts.length := by
  induction ts with
  | nil => rfl
  | cons t ts ih =>
    obtain ⟨b, n⟩ := t
    cases b <;> simp [laterToken, token_length, ih] <;> omega

/-- Joined tokens have one separator less than tokens. -/
theorem joinTokens_length (ts : List (Digit × Nat)) :
    (joinTokens ts).length = (digitsOfTokens ts).length + 2 * (ts.filter fun t => t.1).length +
      3 * (ts.filter fun t => !t.1).length + (ts.length - 1) := by
  cases ts with
  | nil => rfl
  | cons t ts =>
    have hlater := flatMap_laterToken_length (t :: ts)
    rw [List.flatMap_cons, List.length_append, laterToken, List.length_cons] at hlater
    rw [joinTokens_cons, List.length_append]
    simp only [List.length_cons] at hlater ⊢
    omega

theorem rlEncode_length (d : List Digit) :
    (rlEncode d).length = d.length + 2 * ((runs d).filter fun t => t.1).length +
      3 * ((runs d).filter fun t => !t.1).length + ((runs d).length - 1) := by
  rw [rlEncode_eq_joinTokens_runs, joinTokens_length, digitsOfTokens_runs]

/-- A token takes at least two characters besides its fillers. -/
theorem length_add_two_le_rlEncode_length {d : List Digit} (h : d ≠ []) : d.length + 2 ≤ (rlEncode d).length := by
  have hpos := List.length_pos_iff.2 (runs_ne_nil h)
  have hsplit := List.length_eq_length_filter_add (l := runs d) fun t => t.1
  rw [rlEncode_length]
  omega

end Sys2Proof.Machine
end

section
/-! PROOFS. The RLENC step (R133): what it emits for each kind of digit, and where COUT has room for it. -/

namespace Sys2Proof.Machine

open Sys2Proof

theorem State.emitted_first {s : State} (h : s.ip = 0) : s.emitted = firstEmit (s.digAt s.ip) := if_pos h

theorem State.emitted_later {s : State} (h : s.ip ≠ 0) : s.emitted = nextEmit s.prev (s.digAt s.ip) := if_neg h

/-- The RLENC step on a digit has room where COUT has room for what it emits. -/
theorem commit_rlencDigit {c : Control} {s : State} (hip : s.ip < s.digLen)
    (hfits : s.caps.cout.fits (s.coutLen + s.emitted.length) = true) :
    s.commit (rlencStep c s) = .next { (s.appendCout s.emitted).advance with prev := s.digAt s.ip } := by
  rw [rlencStep, if_pos hip]
  exact State.commit_of_room ((State.roomFor_iff _ _).2 ⟨.inl (Nat.le_refl _), .inr hfits⟩)

theorem encodeRest_prefix_append (p : Digit) (xs ys : List Digit) : encodeRest p xs <+: encodeRest p (xs ++ ys) := by
  induction xs generalizing p with
  | nil => exact List.nil_prefix
  | cons x xs ih => exact (List.prefix_append_right_inj _).2 (ih x)

/-- The encoding of the first digits is where that of all digits begins. -/
theorem rlEncode_prefix_append (xs ys : List Digit) : rlEncode xs <+: rlEncode (xs ++ ys) := by
  cases xs with
  | nil => exact List.nil_prefix
  | cons x xs => exact (List.prefix_append_right_inj _).2 (encodeRest_prefix_append x xs ys)

theorem rlEncode_take_length_le (d : List Digit) (n : Nat) : (rlEncode (d.take n)).length ≤ (rlEncode d).length := by
  have h := (rlEncode_prefix_append (d.take n) (d.drop n)).length_le
  rwa [List.take_append_drop] at h

/-- An RLENC step has room where COUT has room for the encoding of all digits. -/
theorem roomFor_rlencStep {s : State} (hb : s.st = .busy) (hc : s.CallContent) (hs : s.stage = .back)
    (hd : s.control.dir = false) (hfits : s.caps.cout.fits (rlEncode s.digText).length = true) :
    s.roomFor (blockStep s.control s) = true := by
  rw [blockStep_back_encode _ _ hs hd]
  by_cases hip : s.ip < s.digLen
  · obtain ⟨hlen, -, hprev⟩ := hc.back_encode hb hs hd
    have hle := rlEncode_take_length_le s.digText (s.ip + 1)
    rw [State.rlEncode_take_succ hip hprev, List.length_append, ← hlen] at hle
    exact (State.commit_next.1 (commit_rlencDigit hip (Capacity.fits_mono hfits hle))).2
  · rw [rlencStep, if_neg hip]
    exact (State.commit_next.1 (commit_finish ..)).2

end Sys2Proof.Machine
end

section
/-! PROOFS. The obligations of 41_runlength_encode. -/

open Sys2Proof Sys2Proof.Machine

/-- Settles O37. A call that ends shows the encoding of the host's digits (`CallEnds.shows`), which no step changes;
with room for the encoding no step is refused, and every step but the last consumes a digit. -/
theorem rlencCallResult : Obligations.RlencCallResult := by
  intro s hs hcmd
  have hctl : s.control = Instr.rlenc.control := congrArg Instr.control hcmd
  have hfe : s.control.fe = false := by rw [hctl]; rfl
  have hbe : s.control.be = true := by rw [hctl]; rfl
  have hdir : s.control.dir = false := by rw [hctl]; rfl
  have hfront : s.callStart.frontResult = .ok s.callDigits :=
    (State.frontResult_host (s := s.callStart) hfe).trans (congrArg _ (State.callStart_digText hfe))
  refine ⟨fun n t h => ?_, fun hfits => ?_⟩
  · obtain ⟨hdig, hlen⟩ := h.host_digits hs hfe
    obtain ⟨herr, hcout, hholds⟩ := h.back_ok hs hbe hfront (State.backResult_encode hdir _)
    exact ⟨herr, hcout, hholds, hdig, hlen, h.input_frame hs⟩
  · have hstage : s.callStart.stage = .back := by simp [State.callStart, hfe, hbe]
    have hinput : s.callStart.stageInput = s.digLen := by
      rw [State.stageInput_back_encode hstage hdir]
      simp [State.callStart, hfe]
    rw [← hinput]
    refine one_stage_call_ends
      (P := fun u => u.control = s.control ∧ u.frontResult = .ok s.callDigits ∧ u.caps = s.caps)
      (fun u hb hinv hc ⟨huctl, hures, hucaps⟩ => ?_) (fun u hb hinv ⟨huctl, hures, hucaps⟩ => ?_) hs (.inr hbe)
      (fun h => absurd h (by simp [hfe])) ⟨rfl, hfront, rfl⟩
    · have hback := hinv.stage_of_no_front hb (huctl ▸ hfe)
      have hdigits : u.digText = s.callDigits := Except.ok.inj ((hc.frontResult_back hb hback).symm.trans hures)
      exact roomFor_rlencStep hb hc hback (huctl ▸ hdir) (by rw [hdigits, hucaps]; exact hfits)
    · exact ⟨(blockStep_control _ _).trans huctl, (blockStep_frontResult hb hinv).trans hures,
        (blockStep_caps _ _).trans hucaps⟩

/-- Settles O13: the step appends what it emits, and each kind of digit has its emission. -/
theorem rlencDigitStep : Obligations.RlencDigitStep := by
  intro i s hi hb hs hip
  have hdir : i.control.dir = false := by obtain rfl | rfl := hi <;> rfl
  rw [exec_of_busy i s hb, blockStep_back_encode _ _ hs hdir]
  refine ⟨_, s.emitted, commit_rlencDigit hip, rfl, fun h0 hd => ?_, fun h0 hd => ?_, fun h0 hne hd => ?_,
    fun h0 hne hd => ?_, fun h0 heq => ?_, fun k hk => Memory.get?_setSeq_at _ _ _ _ hk,
    fun a ha => Memory.get?_setSeq_outside _ (Nat.le_refl _) ha⟩
  · rw [State.emitted_first h0, hd, firstEmit]
  · rw [State.emitted_first h0, hd, firstEmit]
  · rw [State.emitted_later h0, nextEmit, if_neg hne, if_pos hd]
  · rw [State.emitted_later h0, nextEmit, if_neg hne, if_neg (by simp [hd])]
  · rw [State.emitted_later h0, nextEmit, if_pos heq]

/-- Settles O55, by induction on the digits for the runs and on the blocks for their uniqueness. -/
theorem encoderEmitsOneTokenPerRun : Obligations.EncoderEmitsOneTokenPerRun :=
  fun d => ⟨rlEncode_eq_joinTokens_runs d, digitsOfTokens_runs d, runs_pos d, runs_alternate d,
    fun _ hpos halt hts => hts ▸ (runs_digitsOfTokens hpos halt).symm⟩

/-- Settles O56: the spelling by the emissions, the length and the grammar by the tokens of the runs. -/
theorem encoderOutputShape : Obligations.EncoderOutputShape := by
  intro d hd
  obtain ⟨halphabet, hsingle, hlast⟩ := rlEncode_wellSpaced hd
  exact ⟨halphabet, rlEncode_head? hd, hlast, hsingle, rlEncode_length d, length_add_two_le_rlEncode_length hd,
    rlEncode_length_le d, runs_ne_nil hd, runs_pos d, .inl (rlEncode_eq_joinTokens_runs d)⟩

end

section
/-! PROOFS. The grammar of R91 by fields: splitting a text at its spaces inverts joining fields without spaces, and so
the split-and-test form finds the one parse that the grammar allows. -/

namespace Sys2Proof.Machine

open Sys2Proof

/-- Splitting at spaces is the library's split at one element. -/
theorem splitAtSpaces_eq_splitOn (c : List Code) : splitAtSpaces c = c.splitOn Config.codeSpace := by
  induction c with
  | nil => rfl
  | cons x c ih =>
    rw [List.splitOn, List.splitOnP_cons_eq_if_modifyHead, ← List.splitOn, ← ih]
    by_cases hx : x = Config.codeSpace
    · simp [hx]
    · obtain ⟨f, fs, hs⟩ := List.exists_cons_of_ne_nil (splitAtSpaces_ne_nil c)
      simp [splitAtSpaces_cons hx hs, hs, hx]

/-- The fields of a token: its mark and its fillers (R90). -/
def fieldsOfToken (t : Digit × Nat) : List (List Code) := [tokenMark t.1, List.replicate t.2 Config.codeZero]

/-- No field of a token contains a space. -/
theorem space_not_mem_fieldsOfToken (t : Digit × Nat) : ∀ f ∈ fieldsOfToken t, Config.codeSpace ∉ f := by
  have hne : Config.codeSpace ≠ Config.codeZero := by decide
  obtain ⟨b, n⟩ := t
  cases b <;> simp [fieldsOfToken, tokenMark, hne]

/-- Joined tokens are their fields with a space between each two. -/
theorem joinTokens_eq_intercalate (ts : List (Digit × Nat)) :
    joinTokens ts = [Config.codeSpace].intercalate (ts.flatMap fieldsOfToken) := by
  induction ts with
  | nil => rfl
  | cons t ts ih =>
    cases ts with
    | nil => simp [joinTokens, fieldsOfToken, token]
    | cons u us =>
      rw [joinTokens, ih]
      simp [fieldsOfToken, token, List.intercalate_cons_cons]

/-- A text has the fields of a list of tokens when it joins them. -/
theorem splitAtSpaces_eq_fields_iff {c : List Code} {ts : List (Digit × Nat)} :
    splitAtSpaces c = ts.flatMap fieldsOfToken ↔ ts ≠ [] ∧ c = joinTokens ts := by
  rw [joinTokens_eq_intercalate]
  constructor
  · intro h
    refine ⟨?_, ?_⟩
    · rintro rfl
      exact splitAtSpaces_ne_nil c h
    · rw [← h, splitAtSpaces_eq_splitOn, List.intercalate_splitOn]
  · rintro ⟨hne, rfl⟩
    rw [splitAtSpaces_eq_splitOn, List.splitOn_intercalate]
    · intro f hf
      obtain ⟨t, -, hft⟩ := List.mem_flatMap.1 hf
      exact space_not_mem_fieldsOfToken t f hft
    · obtain ⟨t, us, rfl⟩ := List.exists_cons_of_ne_nil hne
      exact List.cons_ne_nil _ _

theorem bitOfMark_eq_some_iff {f : List Code} {b : Digit} : bitOfMark f = some b ↔ f = tokenMark b := by
  have hne : tokenMark false ≠ tokenMark true := by decide
  unfold bitOfMark
  split
  · cases b <;> simp [*, hne.symm]
  · split <;> cases b <;> simp [*]

/-- A field is a filler when it repeats `'0'`, at least once (R89). -/
theorem isFiller_iff {r : List Code} : (r ≠ [] ∧ r.all (· == Config.codeZero) = true) ↔
    1 ≤ r.length ∧ r = List.replicate r.length Config.codeZero := by
  rw [← List.length_pos_iff, List.eq_replicate_length]
  simp [Nat.succ_le_iff]

/-- The fields that the grammar takes for tokens are those of the tokens, which have fillers (R91). -/
theorem tokensOfFields_eq_some : ∀ {fs : List (List Code)} {ts : List (Digit × Nat)},
    tokensOfFields fs = some ts → fs = ts.flatMap fieldsOfToken ∧ ∀ t ∈ ts, 1 ≤ t.2
  | [], _, h => by cases h; simp
  | p :: r :: rest, ts, h => by
    rw [tokensOfFields] at h
    split at h
    next b us hb hus =>
      split at h
      next hr =>
        cases h
        obtain ⟨hrest, hpos⟩ := tokensOfFields_eq_some hus
        obtain ⟨hlen, hrep⟩ := isFiller_iff.1 hr
        refine ⟨?_, List.forall_mem_cons.2 ⟨hlen, hpos⟩⟩
        rw [List.flatMap_cons, ← hrest, fieldsOfToken, ← hrep, ← bitOfMark_eq_some_iff.1 hb]
        rfl
      next => cases h
    next => cases h

/-- Tokens with fillers are the parse of their own fields. -/
theorem tokensOfFields_fields {ts : List (Digit × Nat)} (h : ∀ t ∈ ts, 1 ≤ t.2) :
    tokensOfFields (ts.flatMap fieldsOfToken) = some ts := by
  induction ts with
  | nil => rfl
  | cons t ts ih =>
    obtain ⟨b, n⟩ := t
    obtain ⟨hn, hpos⟩ := List.forall_mem_cons.1 h
    have hmark : bitOfMark (tokenMark b) = some b := bitOfMark_eq_some_iff.2 rfl
    have hfill := (isFiller_iff (r := List.replicate n Config.codeZero)).2 (by simpa using hn)
    rw [List.flatMap_cons, fieldsOfToken, List.cons_append, List.cons_append, List.nil_append, tokensOfFields, hmark,
      ih hpos]
    simp only [if_pos hfill, List.length_replicate]

/-- A token with a filler ends in it. -/
theorem token_getLast? (b : Digit) {n : Nat} (hn : 1 ≤ n) : (token b n).getLast? = some Config.codeZero := by
  obtain ⟨m, rfl⟩ := Nat.exists_eq_add_of_le' hn
  rw [token, List.replicate_succ', ← List.append_assoc, List.getLast?_concat]

/-- Joined tokens end in a filler, not in a space. -/
theorem joinTokens_getLast?_ne {ts : List (Digit × Nat)} (hne : ts ≠ []) (h : ∀ t ∈ ts, 1 ≤ t.2) :
    (joinTokens ts).getLast? ≠ some Config.codeSpace := by
  have hlast : (joinTokens ts).getLast? = some Config.codeZero := by
    obtain ⟨t, us, rfl⟩ := List.exists_cons_of_ne_nil hne
    rw [joinTokens_cons]
    obtain rfl | ⟨us', u, rfl⟩ := us.eq_nil_or_concat
    · simpa using token_getLast? t.1 (h t (by simp))
    · simp [laterToken, List.getLast?_cons, token_getLast? u.1 (h u (by simp))]
  rw [hlast]
  decide

/-- A text loses its trailing space to become a text that ends in none. -/
theorem dropTrailingSpace_eq_iff {c t : List Code} (ht : t.getLast? ≠ some Config.codeSpace) :
    dropTrailingSpace c = t ↔ c = t ∨ c = t ++ [Config.codeSpace] := by
  unfold dropTrailingSpace
  constructor
  · intro h
    split at h
    next hlast =>
      obtain ⟨c', rfl⟩ := List.getLast?_eq_some_iff.1 hlast
      rw [List.dropLast_concat] at h
      exact .inr (h ▸ rfl)
    next => exact .inl h
  · rintro (rfl | rfl)
    · rw [if_neg ht]
    · rw [if_pos List.getLast?_concat, List.dropLast_concat]

/-- The split-and-test form finds exactly the parses of the grammar (R91). -/
theorem parseCipher_eq_some_iff {c : List Code} {ts : List (Digit × Nat)} :
    parseCipher c = some ts ↔ ParsesAs c ts := by
  unfold parseCipher ParsesAs
  constructor
  · intro h
    obtain ⟨hfields, hpos⟩ := tokensOfFields_eq_some h
    obtain ⟨hne, hjoin⟩ := splitAtSpaces_eq_fields_iff.1 hfields
    exact ⟨hne, hpos, (dropTrailingSpace_eq_iff (joinTokens_getLast?_ne hne hpos)).1 hjoin⟩
  · rintro ⟨hne, hpos, hc⟩
    have hjoin := (dropTrailingSpace_eq_iff (joinTokens_getLast?_ne hne hpos)).2 hc
    rw [splitAtSpaces_eq_fields_iff.2 ⟨hne, hjoin⟩, tokensOfFields_fields hpos]

/-- The grammar does not match the empty text (R92). -/
theorem ParsesAs.ne_nil {c : List Code} {ts : List (Digit × Nat)} (h : ParsesAs c ts) : c ≠ [] := by
  rintro rfl
  cases parseCipher_eq_some_iff.2 h

theorem rlDecode_of_parsesAs {c : List Code} {ts : List (Digit × Nat)} (h : ParsesAs c ts) :
    rlDecode c = .ok (digitsOfTokens ts) := by
  rw [rlDecode, if_neg h.ne_nil, parseCipher_eq_some_iff.2 h]

theorem rlDecode_of_not_parsesAs {c : List Code} (hc : c ≠ []) (h : ¬∃ ts, ParsesAs c ts) :
    rlDecode c = .error .malformedCipher := by
  have hnone : parseCipher c = none := by
    rw [Option.eq_none_iff_forall_ne_some]
    exact fun ts hts => h ⟨ts, parseCipher_eq_some_iff.1 hts⟩
  rw [rlDecode, if_neg hc, hnone]

/-- A text has one parse. -/
theorem ParsesAs.unique {c : List Code} {ts us : List (Digit × Nat)} (h : ParsesAs c ts) (k : ParsesAs c us) :
    ts = us :=
  Option.some.inj ((parseCipher_eq_some_iff.2 h).symm.trans (parseCipher_eq_some_iff.2 k))

/-- The tokens stand for as many digits as their runs are long. -/
theorem digitsOfTokens_length (ts : List (Digit × Nat)) : (digitsOfTokens ts).length = (ts.map Prod.snd).sum := by
  simp [digitsOfTokens, List.length_flatMap]

end Sys2Proof.Machine
end

section
/-! PROOFS. The scan of a text (R154 to R157): the digits staged stay staged, no cell leads back to S0, and where it
ends `rlDecode` answers. -/

namespace Sys2Proof.Machine

open Sys2Proof

/-- `rlDecode` answers MalformedCipher where the scan is not accepted, and no other error. -/
theorem rlDecode_error_iff {c : List Code} {e : ErrKind} : rlDecode c = .error e ↔
    acceptedDigits (scanText .s0 false [] c) = none ∧ e = .malformedCipher := by
  rw [rlDecode_eq_acceptedDigits]
  cases acceptedDigits (scanText .s0 false [] c) <;> simp [eq_comm]

/-- A scan is not accepted where it was refused a character or stands in a state that does not accept (R157). -/
theorem acceptedDigits_eq_none_iff {o : Option (ScanState × Digit × List Digit)} : acceptedDigits o = none ↔
    ∀ ds tb out, o = some (ds, tb, out) → scanAccepts ds = false := by
  rcases o with _ | ⟨ds, tb, out⟩ <;> simp [acceptedDigits]

/-- A scan that goes through reads its first character by a cell of the table, and drops no digit there. -/
theorem scanText_cons_eq_some {ds : ScanState} {tb : Digit} {out : List Digit} {x : Code} {xs : List Code}
    {r : ScanState × Digit × List Digit} (h : scanText ds tb out (x :: xs) = some r) :
    ∃ ds1 a tb1 out1, scanCell ds (classify x) = some (ds1, a) ∧ out <+: out1 ∧ scanText ds1 tb1 out1 xs = some r := by
  rw [scanText] at h
  cases hcell : scanCell ds (classify x) with
  | none => simp [hcell] at h
  | some p =>
    obtain ⟨ds1, a⟩ := p
    rw [hcell] at h
    cases a with
    | none | setTb b => exact ⟨ds1, _, _, out, rfl, List.prefix_refl _, h⟩
    | appendTb => exact ⟨ds1, _, _, _, rfl, List.prefix_append _ _, h⟩

/-- Scanning on keeps the digits staged so far. -/
theorem scanText_digits_prefix {ds ds' : ScanState} {tb tb' : Digit} {out out' : List Digit} {xs : List Code}
    (h : scanText ds tb out xs = some (ds', tb', out')) : out <+: out' := by
  induction xs generalizing ds tb out with
  | nil => cases h; exact List.prefix_refl _
  | cons x xs ih =>
    obtain ⟨_, _, _, _, -, hkeep, hrest⟩ := scanText_cons_eq_some h
    exact hkeep.trans (ih hrest)

/-- The digits staged by the scan of a text's beginning are no more than the text decodes to. -/
theorem staged_length_le_rlDecode {ds : ScanState} {tb : Digit} {out d : List Digit} {xs ys : List Code}
    (h : scanText .s0 false [] xs = some (ds, tb, out)) (hd : rlDecode (xs ++ ys) = .ok d) :
    out.length ≤ d.length := by
  obtain ⟨ds', tb', hscan, -⟩ := (rlDecode_ok_iff _ _).1 hd
  rw [scanText_append, h] at hscan
  exact (scanText_digits_prefix hscan).length_le

/-- No character leads to S0 (R155). -/
theorem scanCell_ne_s0 {ds : ScanState} {k : CharClass} {a : ScanAction} : scanCell ds k ≠ some (.s0, a) := by
  cases ds <;> cases k <;> simp [scanCell]

/-- The scanner is in S0 before the first character only (R154). -/
theorem eq_nil_of_scanText_s0 {ds : ScanState} {tb tb' : Digit} {out out' : List Digit} {xs : List Code}
    (h : scanText ds tb out xs = some (.s0, tb', out')) : xs = [] := by
  induction xs generalizing ds tb out with
  | nil => rfl
  | cons x xs ih =>
    obtain ⟨_, _, _, _, hcell, -, hrest⟩ := scanText_cons_eq_some h
    obtain rfl := ih hrest
    cases hrest
    exact absurd hcell scanCell_ne_s0

end Sys2Proof.Machine
end

section
/-! PROOFS. The RLDEC step (R156, R157): what it leads to by the scanner's cell or state, and where DIG has room. -/

namespace Sys2Proof.Machine

open Sys2Proof

/-- The RLDEC step on a character has room where DIG has room for the digit, if the cell stages one. -/
theorem commit_rldecChar {c : Control} {s : State} {ds : ScanState} {a : ScanAction} (hip : s.ip < s.cinLen)
    (hcell : scanCell s.ds (classify (s.cinAt s.ip)) = some (ds, a))
    (hfits : a = .appendTb → s.caps.dig.fits (s.digLen + 1) = true) :
    s.commit (rldecStep c s) = .next { (s.scanAct a).advance with ds := ds } := by
  simp only [rldecStep, if_pos hip, hcell]
  refine State.commit_of_room ((State.roomFor_iff _ _).2 ⟨?_, .inl (by simp)⟩)
  cases a with
  | none | setTb b => exact .inl (Nat.le_refl _)
  | appendTb => exact .inr (hfits rfl)

/-- An error cell of the table raises MalformedCipher. -/
theorem commit_rldecErrorCell {c : Control} {s : State} (hip : s.ip < s.cinLen)
    (hcell : scanCell s.ds (classify (s.cinAt s.ip)) = none) :
    s.commit (rldecStep c s) = .next (s.fail c .malformedCipher) := by
  simp only [rldecStep, if_pos hip, hcell, commit_fail]

/-- At the end of the input an accepting state is FrontDone. -/
theorem commit_rldecAccept {c : Control} {s : State} (hip : s.cinLen ≤ s.ip) (hacc : scanAccepts s.ds = true) :
    s.commit (rldecStep c s) = .next (s.frontDone c) := by
  rw [rldecStep, if_neg (Nat.not_lt.2 hip), if_pos hacc]
  exact State.commit_of_le (s.frontDone_lengths_le c).1 (s.frontDone_lengths_le c).2

/-- At the end of the input any other state raises MalformedCipher. -/
theorem commit_rldecReject {c : Control} {s : State} (hip : s.cinLen ≤ s.ip) (hacc : scanAccepts s.ds = false) :
    s.commit (rldecStep c s) = .next (s.fail c .malformedCipher) := by
  rw [rldecStep, if_neg (Nat.not_lt.2 hip), if_neg (by simp [hacc]), commit_fail]

/-- A call of a command without a back end runs in FRONT. -/
theorem State.CallInv.stage_of_no_back {s : State} (h : s.CallInv) (hb : s.st = .busy)
    (hbe : s.control.be = false) : s.stage = .front := by
  cases hs : s.stage with
  | front => rfl
  | back => simpa [hbe] using (h.stage_of_command hb).2 hs

/-- DIG has room for the digits of a cipher text, or where it is malformed the room of R192. -/
structure FitsDecoded (cap : Capacity) (cipher : List Code) : Prop where
  ok : ∀ d, rlDecode cipher = .ok d → cap.fits d.length = true
  malformed : ∀ e, rlDecode cipher = .error e → cap.fits (cipher.length - 2) = true

/-- Where DIG has room for what a text decodes to, it has room for what the scan of its beginning stages. -/
theorem FitsDecoded.staged {cap : Capacity} {xs ys : List Code} {ds : ScanState} {tb : Digit}
    {out : List Digit} (h : FitsDecoded cap (xs ++ ys)) (hscan : scanText .s0 false [] xs = some (ds, tb, out)) :
    cap.fits out.length = true := by
  cases hdec : rlDecode (xs ++ ys) with
  | ok d => exact Capacity.fits_mono (h.ok d hdec) (staged_length_le_rlDecode hscan hdec)
  | error e =>
    have hle : out.length ≤ 0 + xs.length - 2 := scanText_digits_length (by decide) (by simp) hscan
    exact Capacity.fits_mono (h.malformed e hdec) (by simp; omega)

/-- An RLDEC step has room where DIG has room for what the text decodes to. -/
theorem roomFor_rldecStep {s : State} (hb : s.st = .busy) (hc : s.CallContent) (hs : s.stage = .front)
    (hd : s.control.dir = true) (hfits : FitsDecoded s.caps.dig s.cinText) :
    s.roomFor (blockStep s.control s) = true := by
  rw [blockStep_front_decode _ _ hs hd]
  obtain ⟨hip, ds, a, hcell, -⟩ | ⟨hip, hcell, -⟩ | ⟨hip, hacc, -⟩ | ⟨hip, hacc, -⟩ := rldecStep_cases s.control s
  · obtain ⟨out, hscan, hlen, hholds⟩ := hc.front_decode hb hs hd
    obtain ⟨out', hscan', hlen', -⟩ := State.scanText_take_succ hip hscan hcell hlen hholds
    rw [← List.take_append_drop (s.ip + 1) s.cinText] at hfits
    have hroom := hfits.staged hscan'
    refine (State.commit_next.1 (commit_rldecChar hip hcell fun happ => ?_)).2
    subst happ
    rwa [← hlen'] at hroom
  · exact (State.commit_next.1 (commit_rldecErrorCell hip hcell)).2
  · exact (State.commit_next.1 (commit_rldecAccept hip hacc)).2
  · exact (State.commit_next.1 (commit_rldecReject hip hacc)).2

end Sys2Proof.Machine
end

section
/-! PROOFS. The obligations of 42_runlength_decode. -/

open Sys2Proof Sys2Proof.Machine

/-- Settles O36. A call that ends shows what `rlDecode` answers on the text (`CallEnds.shows`); the digits staged on
the way are no more than those of the text, so no step is refused, and every step but the last consumes a character. -/
theorem rldecCallResult : Obligations.RldecCallResult := by
  intro s hs hcmd
  have hctl : s.control = Instr.rldec.control := congrArg Instr.control hcmd
  have hfe : s.control.fe = true := by rw [hctl]; rfl
  have hbe : s.control.be = false := by rw [hctl]; rfl
  have hdir : s.control.dir = true := by rw [hctl]; rfl
  have hfront : s.callStart.frontResult = rlDecode s.callText := State.frontResult_decode hfe hdir
  refine ⟨fun n t h => ?_, fun hok herr => ?_⟩
  · obtain ⟨hcmd, hcin, hcinLen⟩ := h.input_frame hs
    refine ⟨h.no_output hs hbe, hcmd, hcin, hcinLen, fun d hd => h.front_ok hs hfe hbe (hfront.trans hd),
      fun e he => ⟨(rlDecode_error_iff.1 he).2, h.front_raised hs (hfront.trans he)⟩⟩
  · have hfits : FitsDecoded s.caps.dig s.callText := ⟨hok, by rwa [State.callText_length]⟩
    have hstage : s.callStart.stage = .front := by simp [State.callStart, hfe]
    have hinput : s.callStart.stageInput = s.cinLen := State.stageInput_front hstage
    rw [← hinput]
    refine one_stage_call_ends (P := fun u => u.control = s.control ∧ u.cinText = s.callText ∧ u.caps = s.caps)
      (fun u hb hinv hc ⟨huctl, hutext, hucaps⟩ => ?_) (fun u hb hinv hu => by simpa using hu) hs (.inl hfe)
      (fun _ => hbe) ⟨rfl, rfl, rfl⟩
    exact roomFor_rldecStep hb hc (hinv.stage_of_no_back hb (huctl ▸ hbe)) (huctl ▸ hdir)
      (by rw [hutext, hucaps]; exact hfits)

/-- Settles O58: `rlDecode` answers the digits of an accepted scan, and MalformedCipher where there is none. -/
theorem scannerDecidesTheGrammar : Obligations.ScannerDecidesTheGrammar := by
  refine fun c => ⟨rlDecode_ok_iff c, ?_⟩
  rw [rlDecode_error_iff, acceptedDigits_eq_none_iff]
  exact and_iff_left rfl

/-- Settles O14: each cell of the table, with the character's class and the scanner's state put in. -/
theorem rldecCharacterStep : Obligations.RldecCharacterStep := by
  intro i s hi hb hs hip
  have hdir : i.control.dir = true := by obtain rfl | rfl := hi <;> rfl
  have hfe : i.control.fe = true := by obtain rfl | rfl := hi <;> rfl
  rw [exec_of_busy i s hb, blockStep_front_decode _ _ hs hdir]
  have hmove {k ds ds' a} (hk : classify (s.cinAt s.ip) = k) (hds : s.ds = ds) (hcell : scanCell ds k = some (ds', a))
      (hfits : a = .appendTb → s.caps.dig.fits (s.digLen + 1) = true) :
      s.commit (rldecStep i.control s) = .next { (s.scanAct a).advance with ds := ds' } :=
    commit_rldecChar hip (by rw [hk, hds, hcell]) hfits
  refine ⟨fun hz => ?_, fun hsp => ?_, fun herr => ?_⟩
  · have hk := (classify_eq_z _).2 hz
    refine ⟨fun hds => hmove hk hds rfl nofun, fun hds => hmove hk hds rfl nofun, fun hds hfits => ?_,
      fun hds => hmove hk hds rfl nofun⟩
    obtain hds | hds := hds
    · exact hmove hk hds rfl fun _ => hfits
    · exact hmove hk hds rfl fun _ => hfits
  · have hk := (classify_eq_s _).2 hsp
    exact ⟨fun hds => hmove hk hds rfl nofun, fun hds => hmove hk hds rfl nofun, fun hds => hmove hk hds rfl nofun⟩
  · have hcell : scanCell s.ds (classify (s.cinAt s.ip)) = none := by
      obtain ⟨hz, hds⟩ | ⟨hsp, hds⟩ | ⟨hz, hsp⟩ := herr
      · rw [(classify_eq_z _).2 hz, hds, scanCell]
      · rw [(classify_eq_s _).2 hsp]
        obtain hds | hds | hds := hds <;> rw [hds, scanCell]
      · rw [classify_other _ hz hsp]
        cases s.ds <;> rfl
    rw [commit_rldecErrorCell hip hcell, State.fail, if_pos hfe]

/-- Settles O16: the three accepting states and the three others; a scan that ends in S0 has read nothing. -/
theorem rldecEndOfInput : Obligations.RldecEndOfInput := by
  intro s hb hs hip
  have hstep {i : Instr} (hdir : i.control.dir = true) : exec i s = s.commit (rldecStep i.control s) := by
    rw [exec_of_busy i s hb, blockStep_front_decode _ _ hs hdir]
  refine ⟨fun hds => ?_, fun hds i hi => ?_, fun hc hdir hds => ?_⟩
  · have hacc : scanAccepts s.ds = true := by obtain h | h | h := hds <;> rw [h, scanAccepts]
    exact ⟨(hstep rfl).trans (commit_rldecAccept hip.ge hacc), (hstep rfl).trans (commit_rldecAccept hip.ge hacc)⟩
  · have hacc : scanAccepts s.ds = false := by obtain h | h | h := hds <;> rw [h, scanAccepts]
    have hdir : i.control.dir = true := by obtain rfl | rfl := hi <;> rfl
    have hfe : i.control.fe = true := by obtain rfl | rfl := hi <;> rfl
    rw [hstep hdir, commit_rldecReject hip.ge hacc, State.fail, if_pos hfe]
  · obtain ⟨out, hscan, -, -⟩ := hc.front_decode hb hs hdir
    rw [hds, hip, List.take_of_length_le (by simp)] at hscan
    rw [← State.cinText_length, eq_nil_of_scanText_s0 hscan, List.length_nil]

/-- Settles O57: the split-and-test form of `rlDecode` finds exactly the parses of the grammar. -/
theorem rlDecodeFollowsTheGrammar : Obligations.RlDecodeFollowsTheGrammar :=
  ⟨rfl, fun _ ts h => ⟨rlDecode_of_parsesAs h, digitsOfTokens_length ts⟩, fun _ => rlDecode_of_not_parsesAs,
    fun _ _ _ => ParsesAs.unique⟩

end

section
/-! PROOFS. The invariant (R181, R184) under every step: a block step by its shape and its room, a GO, a reset, and the
host's writes between calls, which leave the call alone. -/

namespace Sys2Proof.Machine

open Sys2Proof

/-- What the invariant of a call asks of a state between calls. -/
theorem State.CallInv.of_not_busy {s : State} (hs : s.st ≠ .busy) (hw : Memory.Written s.cout s.coutLen)
    (he : s.st ≠ .done → s.err = .none) (ho : s.err ≠ .none → s.coutLen = 0) : s.CallInv := by
  constructor
  case cout_written => exact hw
  case err_of_not_done => exact he
  case no_output_with_error => exact ho
  all_goals exact fun hb => absurd hb hs

/-- A block step keeps the buffers in canonical form: it writes DIG and COUT from their lengths on. -/
theorem blockStep_canonical {s : State} (c : Control) (h : s.Canonical) : (blockStep c s).Canonical := by
  obtain ⟨ds, -, hdig⟩ := blockStep_dig c s
  obtain ⟨cs, -, hcout⟩ := blockStep_cout c s
  constructor
  · rw [blockStep_cin]; exact h.cin
  · rw [hdig]; exact Memory.wf_setSeq _ _ _ h.dig
  · rw [hcout]; exact Memory.wf_setSeq _ _ _ h.cout

/-- A block step with room keeps the lengths within the capacities. -/
theorem blockStep_fits {s : State} {c : Control} (h : s.Fits) (hroom : s.roomFor (blockStep c s) = true) :
    (blockStep c s).Fits := by
  obtain ⟨hdig, hcout⟩ := (State.roomFor_iff _ _).1 hroom
  constructor <;> rw [blockStep_caps]
  · rw [blockStep_cinLen]; exact h.cin
  · exact hdig.elim (Capacity.fits_mono h.dig) id
  · exact hcout.elim (Capacity.fits_mono h.cout) id

/-- A GO keeps the invariant: it changes no element, and the lengths after it are those before it, or 0. -/
theorem go_inv {s : State} (h : s.Inv) : (s.go s.control).Inv where
  canonical := ⟨h.canonical.cin, h.canonical.dig, h.canonical.cout⟩
  call := go_callInv s
  fits := ⟨h.fits.cin, Capacity.fits_mono h.fits.dig (by rw [State.go_digLen]; split <;> omega), Capacity.fits_zero _⟩

/-- A reset makes the invariant true in any capacities. -/
theorem platformReset_inv (s : State) : s.platformReset.Inv :=
  ⟨⟨rfl, rfl, rfl⟩, .of_not_busy nofun (Memory.written_zero _) (fun _ => rfl) (fun _ => rfl),
    ⟨Capacity.fits_zero _, Capacity.fits_zero _, Capacity.fits_zero _⟩⟩

/-- The invariant does not speak of the host's own fields. -/
theorem State.Inv.withHost {s : State} (h : s.Inv) (p : List HostMove) (a : List HostValue) :
    ({ s with pending := p, answers := a } : State).Inv :=
  ⟨⟨h.canonical.cin, h.canonical.dig, h.canonical.cout⟩, h.call.withHost p a,
    ⟨h.fits.cin, h.fits.dig, h.fits.cout⟩⟩

/-- A host write between calls keeps the invariant: it leaves STATUS and the output alone, what it writes is in
canonical form, and the lengths fit. -/
theorem State.Inv.of_host_write {s t : State} (h : s.Inv) (hs : s.st ≠ .busy)
    (ht : t = { s with
      pending := t.pending, cmd := t.cmd, cinLen := t.cinLen, digLen := t.digLen, cin := t.cin, dig := t.dig })
    (hcin : Memory.wf t.cin = true) (hdig : Memory.wf t.dig = true) (hcinLen : s.caps.cin.fits t.cinLen = true)
    (hdigLen : s.caps.dig.fits t.digLen = true) : t.Inv := by
  rw [ht]
  exact ⟨⟨hcin, hdig, h.canonical.cout⟩,
    .of_not_busy hs h.call.cout_written h.call.err_of_not_done h.call.no_output_with_error,
    ⟨hcinLen, hdigLen, h.fits.cout⟩⟩

/-- A step keeps the invariant, whatever the host does. -/
theorem step_inv {s t : State} (h : s.Inv) (hstep : step s = .next t) : t.Inv := by
  have hcan := h.canonical
  have hfits := h.fits
  cases step_shape s t hstep with
  | block hb p eq room =>
    subst eq
    have hp := h.withHost p s.answers
    exact ⟨blockStep_canonical _ hp.canonical, blockStep_callInv (s := { s with pending := p }) hb hp.call,
      blockStep_fits hp.fits room⟩
  | go _ _ _ _ p eq => exact eq ▸ go_inv (h.withHost p s.answers)
  | host p a eq => exact eq ▸ h.withHost p a
  | cmd free p v eq => subst eq; exact h.of_host_write free rfl hcan.cin hcan.dig hfits.cin hfits.dig
  | cinLen free p n eq fits => subst eq; exact h.of_host_write free rfl hcan.cin hcan.dig fits hfits.dig
  | digLen free p n eq fits => subst eq; exact h.of_host_write free rfl hcan.cin hcan.dig hfits.cin fits
  | cin free p i c eq =>
    subst eq
    exact h.of_host_write free rfl (Memory.wf_set _ i c hcan.cin) hcan.dig hfits.cin hfits.dig
  | dig free p i d eq =>
    subst eq
    exact h.of_host_write free rfl hcan.cin (Memory.wf_set _ i d hcan.dig) hfits.cin hfits.dig
  | reset _ p eq => exact eq ▸ platformReset_inv _

end Sys2Proof.Machine
end

section
/-! PROOFS. The steps of a call, of one stage or of both (R191): a GO, a step for each element of the input of each
stage, and a last one for each stage. -/

namespace Sys2Proof.Machine

open Sys2Proof

/-- The bound on the steps left is linear in the lengths. -/
theorem State.stepsLeft_le (s : State) : s.stepsLeft ≤ 8 * s.cinLen + s.digLen + 2 := by
  cases hs : s.stage with
  | front => rw [State.stepsLeft_front hs]; omega
  | back => rw [State.stepsLeft_back hs]; omega

/-- Only a bounded buffer can lack room (R7). -/
theorem State.bounded_of_no_room {s t : State} (h : s.roomFor t = false) :
    s.caps.dig ≠ none ∨ s.caps.cout ≠ none := by
  obtain ⟨-, hno⟩ | ⟨-, hno⟩ := (State.roomFor_false_iff _ _).1 h
  · exact .inl fun hcap => by simp [hcap] at hno
  · exact .inr fun hcap => by simp [hcap] at hno

/-- The state `u` belongs to the call that a GO in `s` starts. -/
structure State.InCall (s u : State) : Prop where
  control : u.control = s.control
  caps : u.caps = s.caps
  text : u.cinText = s.callText
  digits : u.frontResult = s.callStart.frontResult

theorem State.inCall_callStart (s : State) : s.InCall s.callStart := ⟨rfl, rfl, rfl, rfl⟩

/-- A block step stays in the call. -/
theorem State.InCall.blockStep {s u : State} (h : s.InCall u) (hb : u.st = .busy) (hinv : u.CallInv) :
    s.InCall (blockStep u.control u) :=
  ⟨(blockStep_control _ _).trans h.control, (blockStep_caps _ _).trans h.caps, (blockStep_cinText _ _).trans h.text,
    (blockStep_frontResult hb hinv).trans h.digits⟩

theorem State.InCall.cinLen {s u : State} (h : s.InCall u) : u.cinLen = s.cinLen := by
  rw [← State.cinText_length, h.text, State.callText_length]

/-- In BACK a state of the call reads the digits of the call. -/
theorem State.InCall.digText {s u : State} {d : List Digit} (h : s.InCall u) (hb : u.st = .busy)
    (hc : u.CallContent) (hs : u.stage = .back) (hd : s.callStart.frontResult = .ok d) : u.digText = d :=
  Except.ok.inj ((hc.frontResult_back hb hs).symm.trans (h.digits.trans hd))

/-- The sizes of R192 for a call are those for each state of the call. -/
theorem State.InCall.room {s u : State} (h : s.InCall u) (hroom : s.Room) : u.Room := by
  refine hroom.congr h.control h.caps h.cinLen fun hfe => ?_
  have hdigits := h.digits
  rw [State.frontResult_host (h.control ▸ hfe), State.frontResult_host (s := s.callStart) hfe,
    State.callStart_digText hfe] at hdigits
  rw [← State.digText_length, Except.ok.inj hdigits, State.callDigits_length]

/-- The steps that a running call takes before its last one, where BACK consumes `n` elements. -/
def State.stepsToLast (n : Nat) (s : State) : Nat :=
  match s.stage with
  | .front => s.cinLen - s.ip + 1 + n
  | .back => n - s.ip

theorem State.stepsToLast_front {s : State} (n : Nat) (hs : s.stage = .front) :
    s.stepsToLast n = s.cinLen - s.ip + 1 + n := by
  simp [State.stepsToLast, hs]

theorem State.stepsToLast_back {s : State} (n : Nat) (hs : s.stage = .back) : s.stepsToLast n = n - s.ip := by
  simp [State.stepsToLast, hs]

/-- A block step that leaves the call running brings its last step nearer. -/
theorem blockStep_stepsToLast {s : State} {n : Nat} (hbusy : (blockStep s.control s).st = .busy)
    (hback : s.stage = .back → s.ip < n) : (blockStep s.control s).stepsToLast n < s.stepsToLast n := by
  have hcase := blockStep_case s.control s
  generalize blockStep s.control s = t at hcase hbusy ⊢
  cases hcase with
  | tobinChar stage | rldecChar stage =>
    rw [State.stepsToLast_front n stage, State.stepsToLast_front n (by simpa)]
    simp
    omega
  | rlencDigit stage | totxtGroup stage =>
    have := hback stage
    rw [State.stepsToLast_back n stage, State.stepsToLast_back n (by simpa)]
    simp
    omega
  | frontDone stage =>
    cases hbe : s.control.be with
    | false => simp [State.frontDone_not_be _ _ hbe] at hbusy
    | true =>
      rw [State.frontDone_be _ _ hbe, State.stepsToLast_front n stage, State.stepsToLast_back n rfl]
      show n - 0 < _
      omega
  | rlencFinish | totxtFinish | raise => simp at hbusy

/-- A step in BACK that leaves the call running consumes an element, a digit or a group, of digits that the back
stage's function accepts. -/
theorem blockStep_back_busy {s : State} (hb : s.st = .busy) (hinv : s.CallInv) (hs : s.stage = .back)
    (hbusy : (blockStep s.control s).st = .busy) :
    s.ip < s.stageInput ∧ ∃ c, s.backResult s.digText = .ok c := by
  have hcase := blockStep_case s.control s
  generalize blockStep s.control s = t at hcase hbusy
  cases hcase with
  | tobinChar stage | rldecChar stage | frontDone stage => simp [hs] at stage
  | rlencDigit stage dir ip =>
    exact ⟨by rwa [State.stageInput_back_encode hs dir], _, State.backResult_encode dir _⟩
  | totxtGroup stage dir len ip =>
    obtain ⟨hmod, hle⟩ := hinv.group_le hb hs dir len ip
    refine ⟨?_, _, (State.backResult_decode dir _).trans (toText_ok_iff.2 ⟨by simpa using hmod, rfl⟩)⟩
    rwa [State.stageInput_back_decode hs dir, Nat.lt_iff_add_one_le, Nat.le_div_iff_mul_le (by decide), Nat.succ_mul]
  | rlencFinish | totxtFinish | raise => simp at hbusy

/-- A call whose steps have room ends, where BACK consumes at most `n` elements before its last step. -/
theorem call_ends_in_stages {s : State} {n : Nat} (hs : s.st ≠ .busy)
    (hstage : s.control.fe = true ∨ s.control.be = true)
    (room : ∀ u : State, u.st = .busy → u.CallInv → u.CallContent → s.InCall u →
      u.roomFor (blockStep u.control u) = true)
    (back : ∀ u : State, u.st = .busy → u.CallContent → s.InCall u → u.stage = .back →
      (∃ c, u.backResult u.digText = .ok c) → u.stageInput ≤ n) :
    ∃ t, CallEnds s (s.callStart.stepsToLast n + 2) t := by
  refine call_ends_within room (fun u hb hinv hc hu hbusy => ⟨hu.blockStep hb hinv, ?_⟩) hs
    (State.callStart_busy hstage) s.inCall_callStart
  refine blockStep_stepsToLast hbusy fun hback => ?_
  obtain ⟨hip, hok⟩ := blockStep_back_busy hb hinv hback hbusy
  exact hip.trans_le (back u hb hc hu hback hok)

theorem State.callStart_stepsToLast_front {s : State} (n : Nat) (hfe : s.control.fe = true) :
    s.callStart.stepsToLast n = s.cinLen + 1 + n :=
  State.stepsToLast_front n (by simp [State.callStart, hfe])

theorem State.callStart_stepsToLast_back {s : State} (n : Nat) (hfe : s.control.fe = false)
    (hbe : s.control.be = true) : s.callStart.stepsToLast n = n :=
  State.stepsToLast_back n (by simp [State.callStart, hfe, hbe])

/-- A TOBIN step has room where DIG has room for the digits of the whole text. -/
theorem roomFor_tobinStep {s : State} (hb : s.st = .busy) (hinv : s.CallInv) (hs : s.stage = .front)
    (hd : s.control.dir = false) (hfits : s.caps.dig.fits (Config.W * s.cinLen) = true) :
    s.roomFor (blockStep s.control s) = true := by
  have hlen := hinv.front_encode hb hs hd
  rw [blockStep_front_encode _ _ hs hd]
  obtain ⟨hip, hchar, -⟩ | ⟨-, -, e⟩ | ⟨-, e⟩ := tobinStep_cases s.control s
  · have hroom : s.caps.dig.fits (s.digLen + Config.W) = true := Capacity.fits_mono hfits (by
      rw [hlen, ← Nat.succ_mul, Nat.mul_comm]
      exact Nat.mul_le_mul_left _ hip)
    exact (State.commit_next.1 (commit_tobinChar hip hchar hroom)).2
  · rw [e]; exact (State.commit_next.1 (commit_fail ..)).2
  · rw [e]; exact State.roomFor_of_le (s.frontDone_lengths_le _).1 (s.frontDone_lengths_le _).2

end Sys2Proof.Machine
end

section
/-! PROOFS. The commands with both stages (R187, R188): what they answer at the function level, and that a call of one
shows it at its end. -/

namespace Sys2Proof.Machine

open Sys2Proof

/-- The output of both stages, one after the other, at the function level. -/
def State.stagesResult (s : State) : Except ErrKind (List Code) :=
  match s.frontResult with
  | .ok d => s.backResult d
  | .error e => .error e

theorem State.control_enc {s : State} (h : decodeCommand s.cmd = .enc) :
    s.control.fe = true ∧ s.control.be = true ∧ s.control.dir = false := by
  simp [State.control, h, Instr.control]

theorem State.control_dec {s : State} (h : decodeCommand s.cmd = .dec) :
    s.control.fe = true ∧ s.control.be = true ∧ s.control.dir = true := by
  simp [State.control, h, Instr.control]

/-- ENC answers the cipher of the text (R187). -/
theorem State.stagesResult_enc {s : State} (h : decodeCommand s.cmd = .enc) :
    s.callStart.stagesResult = encodeText s.callText := by
  obtain ⟨hfe, -, hdir⟩ := State.control_enc h
  have hfront : s.callStart.frontResult = toBinary s.callText := State.frontResult_encode hfe hdir
  rw [State.stagesResult, hfront, encodeText]
  cases toBinary s.callText with
  | ok d => exact State.backResult_encode (s := s.callStart) hdir d
  | error e => rfl

/-- DEC answers the text of the cipher (R188). -/
theorem State.stagesResult_dec {s : State} (h : decodeCommand s.cmd = .dec) :
    s.callStart.stagesResult = decodeText s.callText := by
  obtain ⟨hfe, -, hdir⟩ := State.control_dec h
  have hfront : s.callStart.frontResult = rlDecode s.callText := State.frontResult_decode hfe hdir
  rw [State.stagesResult, hfront, decodeText]
  cases rlDecode s.callText with
  | ok d => exact State.backResult_decode (s := s.callStart) hdir d
  | error e => rfl

/-- Both stages answer an output where each answers. -/
theorem State.stagesResult_ok {s : State} {c : List Code} (h : s.stagesResult = .ok c) :
    ∃ d, s.frontResult = .ok d ∧ s.backResult d = .ok c := by
  unfold State.stagesResult at h
  cases hd : s.frontResult with
  | ok d => rw [hd] at h; exact ⟨d, rfl, h⟩
  | error e => rw [hd] at h; cases h

/-- They fail where the first fails, or the second on what the first answers. -/
theorem State.stagesResult_error {s : State} {e : ErrKind} (h : s.stagesResult = .error e) :
    s.frontResult = .error e ∨ ∃ d, s.frontResult = .ok d ∧ s.backResult d = .error e := by
  unfold State.stagesResult at h
  cases hd : s.frontResult with
  | ok d => rw [hd] at h; exact .inr ⟨d, rfl, h⟩
  | error e' => rw [hd] at h; cases h; exact .inl rfl

/-- A command with both stages leaves their output and no digits (R186). -/
theorem State.callResult_of_both_ok {s : State} {c : List Code} (hfe : s.control.fe = true)
    (hbe : s.control.be = true) (h : s.stagesResult = .ok c) :
    s.callResult = { err := .none, digits := [], output := c } := by
  obtain ⟨d, hd, hc⟩ := State.stagesResult_ok h
  rw [State.callResult_of_back_ok hd hbe hc, if_pos hfe]

/-- Where a stage fails, it leaves neither (R216). -/
theorem State.callResult_of_both_error {s : State} {e : ErrKind} (hfe : s.control.fe = true)
    (hbe : s.control.be = true) (h : s.stagesResult = .error e) :
    s.callResult = { err := e, digits := [], output := [] } := by
  obtain hd | ⟨d, hd, he⟩ := State.stagesResult_error h
  · exact State.callResult_of_front_error hd
  · rw [State.callResult_of_back_error hd hbe he, if_pos hfe]

section

variable {s t : State} {n : Nat} (hs : s.st ≠ .busy) (h : CallEnds s n t) (hfe : s.control.fe = true)
  (hbe : s.control.be = true)

include hs h hfe hbe

theorem CallEnds.both_no_digits : t.digLen = 0 := by
  have hshow := h.shows hs
  cases hres : s.callStart.stagesResult with
  | ok c => rw [State.callResult_of_both_ok (s := s.callStart) hfe hbe hres] at hshow; exact hshow.digLen
  | error e => rw [State.callResult_of_both_error (s := s.callStart) hfe hbe hres] at hshow; exact hshow.digLen

theorem CallEnds.both_ok {c : List Code} (hc : s.callStart.stagesResult = .ok c) :
    t.err = .none ∧ t.coutLen = c.length ∧ Memory.Holds t.cout c := by
  have hshow := h.shows hs
  rw [State.callResult_of_both_ok (s := s.callStart) hfe hbe hc] at hshow
  exact ⟨hshow.err, hshow.coutLen, hshow.output⟩

theorem CallEnds.both_raised {e : ErrKind} (he : s.callStart.stagesResult = .error e) :
    t.err = e ∧ t.coutLen = 0 := by
  have hshow := h.shows hs
  rw [State.callResult_of_both_error (s := s.callStart) hfe hbe he] at hshow
  exact ⟨hshow.err, hshow.coutLen⟩

end

/-- ENC fails where TOBIN does: the encoder has no error (R187). -/
theorem encodeText_error {text : List Code} {e : ErrKind} (h : encodeText text = .error e) :
    e = .characterOutOfRange := by
  unfold encodeText at h
  cases hd : toBinary text with
  | ok d => rw [hd] at h; cases h
  | error e' =>
    rw [hd] at h
    cases h
    exact (toBinary_error_iff.1 hd).2

/-- DEC fails where RLDEC does, or after it where the digits are no whole groups (R215). -/
theorem decodeText_error {cipher : List Code} {e : ErrKind} (h : decodeText cipher = .error e) :
    e = .malformedCipher ∧ rlDecode cipher = .error .malformedCipher ∨
      e = .invalidLength ∧ ∃ d, rlDecode cipher = .ok d ∧ d.length % Config.W ≠ 0 := by
  unfold decodeText at h
  cases hd : rlDecode cipher with
  | error e' =>
    rw [hd] at h
    cases h
    obtain rfl := (rlDecode_error_iff.1 hd).2
    exact .inl ⟨rfl, rfl⟩
  | ok d =>
    rw [hd] at h
    obtain ⟨hmod, he⟩ := toText_error_iff.1 h
    exact .inr ⟨he, d, rfl, hmod⟩

theorem decodeText_of_rlDecode_ok {cipher : List Code} {d : List Digit} (h : rlDecode cipher = .ok d) :
    decodeText cipher = toText d := by
  rw [decodeText, h]

theorem decodeText_of_rlDecode_error {cipher : List Code} {e : ErrKind} (h : rlDecode cipher = .error e) :
    decodeText cipher = .error e := by
  rw [decodeText, h]

/-- An ENC call ends where DIG has room for the digits of the text and COUT for its cipher. -/
theorem enc_call_ends {s : State} (hs : s.st ≠ .busy) (hcmd : decodeCommand s.cmd = .enc)
    (hdig : s.caps.dig.fits (Config.W * s.cinLen) = true)
    (hcout : ∀ c, encodeText s.callText = .ok c → s.caps.cout.fits c.length = true) :
    ∃ t, CallEnds s (s.cinLen + 1 + Config.W * s.cinLen + 1 + 1) t := by
  obtain ⟨hfe, -, hdir⟩ := State.control_enc hcmd
  have hbin {u : State} (hb : u.st = .busy) (hc : u.CallContent) (hu : s.InCall u) (hstage : u.stage = .back) :
      toBinary s.callText = .ok u.digText :=
    hu.text ▸ hc.back_enc hb hstage (hu.control ▸ hfe) (hu.control ▸ hdir)
  rw [← State.callStart_stepsToLast_front _ hfe]
  refine call_ends_in_stages hs (.inl hfe) (fun u hb hinv hc hu => ?_) (fun u hb hc hu hstage _ => ?_)
  · cases hstage : u.stage with
    | front => exact roomFor_tobinStep hb hinv hstage (hu.control ▸ hdir) (by rw [hu.caps, hu.cinLen]; exact hdig)
    | back =>
      have henc : encodeText s.callText = .ok (rlEncode u.digText) := by rw [encodeText, hbin hb hc hu hstage]
      exact roomFor_rlencStep hb hc hstage (hu.control ▸ hdir) (by rw [hu.caps]; exact hcout _ henc)
  · have hlen := toBinary_digits_length (hbin hb hc hu hstage)
    rw [State.digText_length, State.callText_length] at hlen
    rw [State.stageInput_back_encode hstage (hu.control ▸ hdir), hlen]

/-- A DEC call ends where DIG has room for the digits of the cipher and COUT for its text, of at most `n`
characters. -/
theorem dec_call_ends {s : State} {n : Nat} (hs : s.st ≠ .busy) (hcmd : decodeCommand s.cmd = .dec)
    (hdig : FitsDecoded s.caps.dig s.callText)
    (hcout : ∀ c, decodeText s.callText = .ok c → s.caps.cout.fits c.length = true)
    (hn : ∀ c, decodeText s.callText = .ok c → c.length ≤ n) :
    ∃ t, CallEnds s (s.cinLen + 1 + n + 1 + 1) t := by
  obtain ⟨hfe, -, hdir⟩ := State.control_dec hcmd
  have htext {u : State} (hb : u.st = .busy) (hc : u.CallContent) (hu : s.InCall u) (hstage : u.stage = .back)
      {c : List Code} (hok : toText u.digText = .ok c) :
      decodeText s.callText = .ok c ∧ c.length = u.digLen / Config.W := by
    have hdec := hc.back_dec hb hstage (hu.control ▸ hfe) (hu.control ▸ hdir)
    rw [hu.text] at hdec
    exact ⟨(decodeText_of_rlDecode_ok hdec).trans hok, by rw [toText_length hok, State.digText_length]⟩
  rw [← State.callStart_stepsToLast_front _ hfe]
  refine call_ends_in_stages hs (.inl hfe) (fun u hb hinv hc hu => ?_) (fun u hb hc hu hstage ⟨c, hok⟩ => ?_)
  · have hudir : u.control.dir = true := hu.control ▸ hdir
    cases hstage : u.stage with
    | front => exact roomFor_rldecStep hb hc hstage hudir (by rw [hu.caps, hu.text]; exact hdig)
    | back =>
      refine roomFor_totxtStep hb hinv hstage hudir fun hmod => ?_
      obtain ⟨hdec, hlen⟩ := htext hb hc hu hstage (toText_ok_iff.2 ⟨by simpa using hmod, rfl⟩)
      rw [hu.caps, ← hlen]
      exact hcout _ hdec
  · have hudir : u.control.dir = true := hu.control ▸ hdir
    rw [State.backResult_decode hudir] at hok
    obtain ⟨hdec, hlen⟩ := htext hb hc hu hstage hok
    rw [State.stageInput_back_decode hstage hudir, ← hlen]
    exact hn c hdec

/-- An ENC call on a text that CIN holds leaves its cipher in COUT. -/
theorem enc_call_of_holds {s : State} {text c : List Code} (hs : s.st ≠ .busy) (hcmd : decodeCommand s.cmd = .enc)
    (hlen : s.cinLen = text.length) (hholds : Memory.Holds s.cin text) (hc : encodeText text = .ok c)
    (hdig : s.caps.dig.fits (Config.W * text.length) = true) (hcout : s.caps.cout.fits c.length = true) :
    ∃ n t, CallEnds s n t ∧ t.err = .none ∧ t.coutLen = c.length ∧ Memory.Holds t.cout c := by
  obtain ⟨hfe, hbe, -⟩ := State.control_enc hcmd
  have hread : encodeText s.callText = .ok c := by rw [State.callText_of_holds hholds hlen, hc]
  obtain ⟨t, ht⟩ := enc_call_ends hs hcmd (hlen ▸ hdig) (by simpa [hread] using hcout)
  exact ⟨_, t, ht, ht.both_ok hs hfe hbe ((State.stagesResult_enc hcmd).trans hread)⟩

/-- A DEC call on a cipher text that CIN holds leaves its text in COUT. -/
theorem dec_call_of_holds {s : State} {cipher text : List Code} {d : List Digit} (hs : s.st ≠ .busy)
    (hcmd : decodeCommand s.cmd = .dec) (hlen : s.cinLen = cipher.length) (hholds : Memory.Holds s.cin cipher)
    (hd : rlDecode cipher = .ok d) (htext : toText d = .ok text) (hdig : s.caps.dig.fits d.length = true)
    (hcout : s.caps.cout.fits text.length = true) :
    ∃ n t, CallEnds s n t ∧ t.err = .none ∧ t.coutLen = text.length ∧ Memory.Holds t.cout text := by
  obtain ⟨hfe, hbe, -⟩ := State.control_dec hcmd
  have hread : s.callText = cipher := State.callText_of_holds hholds hlen
  have hdec : decodeText s.callText = .ok text := by rw [hread, decodeText_of_rlDecode_ok hd, htext]
  have hfits : FitsDecoded s.caps.dig s.callText := by
    rw [hread]
    exact ⟨by simpa [hd] using hdig, by simp [hd]⟩
  obtain ⟨t, ht⟩ := dec_call_ends (n := text.length) hs hcmd hfits (by simpa [hdec] using hcout) (by simp [hdec])
  exact ⟨_, t, ht, ht.both_ok hs hfe hbe ((State.stagesResult_dec hcmd).trans hdec)⟩

end Sys2Proof.Machine
end

section
/-! PROOFS. Decoding undoes encoding (R195, R196), and a text with another character than the two of the cipher is no
cipher text (R197). -/

namespace Sys2Proof.Machine

open Sys2Proof

/-- Decoding the encoding of a digit sequence gives it back (R196). -/
theorem rlDecode_rlEncode (d : List Digit) : rlDecode (rlEncode d) = .ok d := by
  by_cases hd : d = []
  · subst hd; rfl
  · have hparse : ParsesAs (rlEncode d) (runs d) :=
      ⟨runs_ne_nil hd, runs_pos d, .inl (rlEncode_eq_joinTokens_runs d)⟩
    rw [rlDecode_of_parsesAs hparse, digitsOfTokens_runs]

/-- A text in range has digits, whose encoding is its cipher and which pack to the text again (R195). -/
theorem exists_digits_of_text {text : List Code} (h : ∀ c ∈ text, c.toNat < 2 ^ Config.W) :
    ∃ d, toBinary text = .ok d ∧ encodeText text = .ok (rlEncode d) ∧ toText d = .ok text := by
  obtain ⟨d, hbin, htext⟩ := toText_toBinary fun c hc => (inRange_iff c).2 (h c hc)
  exact ⟨d, hbin, by rw [encodeText, hbin], htext⟩

/-- The encoding of a digit sequence is no shorter than the sequence. -/
theorem length_le_rlEncode_length (d : List Digit) : d.length ≤ (rlEncode d).length := by
  by_cases hd : d = []
  · subst hd; exact Nat.zero_le _
  · exact (Nat.le_add_right _ 2).trans (length_add_two_le_rlEncode_length hd)

/-- The scanner has no cell for a third character (R155). -/
theorem scanCell_other (ds : ScanState) : scanCell ds .x = none := by cases ds <;> rfl

/-- A scan that goes through has read no third character. -/
theorem scanText_alphabet {ds : ScanState} {tb : Digit} {out : List Digit} {xs : List Code}
    {r : ScanState × Digit × List Digit} (h : scanText ds tb out xs = some r) :
    ∀ c ∈ xs, c = Config.codeZero ∨ c = Config.codeSpace := by
  induction xs generalizing ds tb out with
  | nil => simp
  | cons x xs ih =>
    obtain ⟨_, _, _, _, hcell, -, hrest⟩ := scanText_cons_eq_some h
    refine List.forall_mem_cons.2 ⟨?_, ih hrest⟩
    by_contra hx
    rw [not_or] at hx
    rw [classify_other x hx.1 hx.2, scanCell_other] at hcell
    cases hcell

/-- A text with a third character is malformed (R197). -/
theorem rlDecode_of_other {text : List Code} {c : Code} (hmem : c ∈ text) (hz : c ≠ Config.codeZero)
    (hsp : c ≠ Config.codeSpace) : rlDecode text = .error .malformedCipher := by
  refine rlDecode_error_iff.2 ⟨?_, rfl⟩
  cases hscan : scanText .s0 false [] text with
  | none => rfl
  | some r =>
    obtain h | h := scanText_alphabet hscan c hmem
    · exact absurd h hz
    · exact absurd h hsp

end Sys2Proof.Machine
end

section
/-! PROOFS. The end of a stage (R185, R186), which is never refused, and the call on an empty input (R194). -/

namespace Sys2Proof.Machine

open Sys2Proof

/-- At the end of FRONT, where the scanner accepts, the step is FrontDone. -/
theorem commit_frontDone {c : Control} {s : State} (hs : s.stage = .front) (hip : s.cinLen ≤ s.ip)
    (hacc : c.dir = true → scanAccepts s.ds = true) : s.commit (blockStep c s) = .next (s.frontDone c) := by
  cases hd : c.dir with
  | true =>
    rw [blockStep_front_decode _ _ hs hd]
    exact commit_rldecAccept hip (hacc hd)
  | false =>
    rw [blockStep_front_encode _ _ hs hd, tobinStep, if_neg (Nat.not_lt.2 hip)]
    exact State.commit_of_le (s.frontDone_lengths_le c).1 (s.frontDone_lengths_le c).2

/-- At the end of the digits the RLENC step is Finish. -/
theorem commit_rlencFinish {c : Control} {s : State} (hs : s.stage = .back) (hd : c.dir = false)
    (hip : s.digLen ≤ s.ip) : s.commit (blockStep c s) = .next (s.finish c) := by
  rw [blockStep_back_encode _ _ hs hd, rlencStep, if_neg (Nat.not_lt.2 hip), commit_finish]

/-- At the end of the groups the TOTXT step is Finish. -/
theorem commit_totxtFinish {c : Control} {s : State} (hs : s.stage = .back) (hd : c.dir = true)
    (hip : s.ip * Config.W = s.digLen) : s.commit (blockStep c s) = .next (s.finish c) := by
  have hlen : ¬(s.ip = 0 ∧ s.digLen % Config.W ≠ 0) := fun h => h.2 (by rw [← hip, Nat.mul_mod_left])
  rw [blockStep_back_decode _ _ hs hd, Machine.totxtStep, if_neg hlen, if_pos hip, commit_finish]

/-- The scanner states that accept (R157). -/
theorem scanAccepts_of_state {ds : ScanState} (h : ds = .s0 ∨ ds = .r ∨ ds = .e) : scanAccepts ds = true := by
  obtain h | h | h := h <;> rw [h, scanAccepts]

/-- The input of the call that a GO in `s` starts is empty. -/
structure State.EmptyInput (s : State) : Prop where
  text : s.control.fe = true → s.cinLen = 0
  digits : s.control.fe = false → s.digLen = 0

/-- Buffers of any size have the sizes of R192 for an empty input. -/
theorem State.EmptyInput.room {s : State} (h : s.EmptyInput) : s.Room := by
  constructor
  case front_encode | front_decode => exact fun hfe _ => by simp [h.text hfe]
  case back_enc | back_dec => exact fun hfe _ _ => by simp [h.text hfe]
  case back_encode | back_decode => exact fun hfe _ _ => by simp [h.digits hfe]

/-- A call on an empty input is about no digits. -/
theorem State.EmptyInput.frontResult {s : State} (h : s.EmptyInput) : s.callStart.frontResult = .ok [] := by
  rw [State.callStart_frontResult]
  cases hfe : s.control.fe with
  | true =>
    have htext : s.callText = [] := List.length_eq_zero_iff.1 (s.callText_length.trans (h.text hfe))
    rw [if_pos rfl, htext]
    split <;> rfl
  | false =>
    have hdigits : s.callDigits = [] := List.length_eq_zero_iff.1 (s.callDigits_length.trans (h.digits hfe))
    rw [if_neg nofun, hdigits]

theorem State.backResult_nil (s : State) : s.backResult [] = .ok [] := by
  unfold State.backResult
  split <;> rfl

/-- The result of a call on an empty input is empty. -/
theorem State.EmptyInput.callResult {s : State} (h : s.EmptyInput)
    (hstage : s.control.fe = true ∨ s.control.be = true) :
    s.callStart.callResult = { err := .none, digits := [], output := [] } := by
  cases hbe : s.control.be with
  | false =>
    have hfe : s.callStart.control.fe = true := hstage.resolve_right (by simp [hbe])
    rw [State.callResult_of_no_back h.frontResult hbe, if_pos hfe]
  | true =>
    rw [State.callResult_of_back_ok h.frontResult hbe (State.backResult_nil _)]
    split <;> rfl

/-- A call on an empty input ends with its GO and the last step of each stage. -/
theorem State.EmptyInput.call_ends {s : State} (h : s.EmptyInput) (hs : s.st ≠ .busy)
    (hstage : s.control.fe = true ∨ s.control.be = true) : ∃ n t, n ≤ 3 ∧ CallEnds s n t := by
  have hends : ∃ t, CallEnds s (s.callStart.stepsToLast 0 + 2) t := by
    refine call_ends_in_stages hs hstage
      (fun u hb hinv hc hu => (hu.room h.room).roomFor_blockStep hb hinv hc) (fun u hb hc hu hback _ => ?_)
    have hlen : u.digLen = 0 := by rw [← State.digText_length, hu.digText hb hc hback h.frontResult, List.length_nil]
    cases hd : u.control.dir with
    | false => rw [State.stageInput_back_encode hback hd, hlen]
    | true => rw [State.stageInput_back_decode hback hd, hlen, Nat.zero_div]
  obtain ⟨t, ht⟩ := hends
  refine ⟨_, t, ?_, ht⟩
  cases hfe : s.control.fe with
  | true => rw [State.callStart_stepsToLast_front 0 hfe, h.text hfe]
  | false => rw [State.callStart_stepsToLast_back 0 hfe (hstage.resolve_left (by simp [hfe]))]; decide

end Sys2Proof.Machine
end

section
/-! PROOFS. The obligations of 43_toplevel. -/

open Sys2Proof Sys2Proof.Machine

/-- Settles O32, by the shapes of a step. -/
theorem stepKeepsTheInvariant : Obligations.StepKeepsTheInvariant :=
  fun _ _ => step_inv

/-- Settles O34: `State.stepsLeft` bounds the steps left, is linear in the lengths, and decreases with every block
step; unbounded buffers have room for every step. -/
theorem everyCallEnds : Obligations.EveryCallEnds := by
  intro s hinv hb hp
  obtain ⟨n, hn, hend⟩ := run_ends_or_refused (P := fun u => u.caps = s.caps)
    (fun u _ _ hu _ => (blockStep_caps _ _).trans hu) hb hp hinv rfl
  refine ⟨n, hn.trans s.stepsLeft_le, ?_⟩
  obtain ⟨t, hrun, hdone, -⟩ | ⟨hrun, u, -, -, hu, hno⟩ := hend
  · exact .inl ⟨t, hrun, hdone⟩
  · exact .inr ⟨hrun, hu ▸ State.bounded_of_no_room hno⟩

/-- Settles O39. A call that ends shows what `encodeText` answers on the text; where the buffers have the room, FRONT
consumes the characters and BACK seven digits for each of them. -/
theorem encCallResult : Obligations.EncCallResult := by
  intro s hs hcmd
  obtain ⟨hfe, hbe, -⟩ := State.control_enc hcmd
  have hres := State.stagesResult_enc hcmd
  refine ⟨fun n t h => ?_, enc_call_ends hs hcmd⟩
  obtain ⟨hcmd, hcin, hcinLen⟩ := h.input_frame hs
  exact ⟨h.both_no_digits hs hfe hbe, hcmd, hcin, hcinLen, fun c hc => h.both_ok hs hfe hbe (hres.trans hc),
    fun e he => ⟨encodeText_error he, h.both_raised hs hfe hbe (hres.trans he)⟩⟩

/-- Settles O40. A call that ends shows what `decodeText` answers on the cipher text; where the buffers have the room,
FRONT consumes the characters and BACK a group for each character of the text, and none where there is no text. -/
theorem decCallResult : Obligations.DecCallResult := by
  intro s hs hcmd
  obtain ⟨hfe, hbe, -⟩ := State.control_dec hcmd
  have hres := State.stagesResult_dec hcmd
  refine ⟨fun n t h => ?_, fun hok herr hcout => ?_⟩
  · obtain ⟨hcmd, hcin, hcinLen⟩ := h.input_frame hs
    refine ⟨h.both_no_digits hs hfe hbe, hcmd, hcin, hcinLen, fun c hc => h.both_ok hs hfe hbe (hres.trans hc),
      fun e he => ?_⟩
    obtain ⟨hkind, hlen⟩ := h.both_raised hs hfe hbe (hres.trans he)
    exact ⟨hkind, hlen, decodeText_error he⟩
  · have hdig : FitsDecoded s.caps.dig s.callText := ⟨hok, by rwa [State.callText_length]⟩
    cases hdec : decodeText s.callText with
    | ok c =>
      obtain ⟨t, ht⟩ := dec_call_ends (n := c.length) hs hcmd hdig hcout (by simp [hdec])
      exact ⟨_, t, ht, fun c' hc => by cases hc; rfl, nofun⟩
    | error e =>
      obtain ⟨t, ht⟩ := dec_call_ends (n := 0) hs hcmd hdig hcout (by simp [hdec])
      exact ⟨_, t, ht, nofun, fun _ _ => Nat.le_refl _⟩

/-- Settles O41: in the sizes of R192 every step has room. -/
theorem callWithRoomEnds : Obligations.CallWithRoomEnds :=
  fun _ hs hroom => hroom.call_ends hs

/-- Settles O49. The ENC call leaves the encoding of the digits of the text in COUT, which the DEC call reads; the text
is no longer than its cipher, so the buffers that had room for the first call have room for the second. -/
theorem encThenDecGivesTheTextBack : Obligations.EncThenDecGivesTheTextBack := by
  obtain ⟨-, -, -, -, hencWord, hdecWord, -⟩ := commandWordsOfTheTable
  refine ⟨fun s text hs hlen hholds hrange hdig hcout => ?_, fun text hrange => ?_⟩
  · obtain ⟨d, hbin, henc, htext⟩ := exists_digits_of_text hrange
    have hfits := hcout _ henc
    have hdlen := toBinary_digits_length hbin
    have hshorter : text.length ≤ (rlEncode d).length :=
      (Nat.le_mul_of_pos_left _ (by decide)).trans (hdlen ▸ length_le_rlEncode_length d)
    obtain ⟨n, t, ht, herr, htlen, htholds⟩ :=
      enc_call_of_holds (s := s.withCmd 0b110#3) hs hencWord hlen hholds henc hdig hfits
    have hcaps : t.caps = s.caps := ht.caps (s := s.withCmd 0b110#3) hs
    obtain ⟨m, u, hu⟩ := dec_call_of_holds (s := { t with cin := t.cout, cinLen := t.coutLen, cmd := 0b111#3 })
      (by simp [ht.done]) hdecWord htlen htholds (rlDecode_rlEncode d) htext (by rwa [hcaps, hdlen])
      (by rw [hcaps]; exact Capacity.fits_mono hfits hshorter)
    exact ⟨n, t, m, u, ht, herr, hu⟩
  · obtain ⟨d, -, henc, htext⟩ := exists_digits_of_text hrange
    exact ⟨_, henc, (decodeText_of_rlDecode_ok (rlDecode_rlEncode d)).trans htext⟩

/-- Settles O59: the encoding parses as the runs of the digits. With a trailing space a text decodes as well, to
digits whose encoding has none. -/
theorem runLengthRoundTrip : Obligations.RunLengthRoundTrip := by
  refine ⟨rlDecode_rlEncode, ⟨[0x30#8, 0x20#8, 0x30#8, 0x20#8], [true], by decide, by decide⟩, fun c d h => ?_⟩
  refine ⟨fun hc => ⟨d, hc.symm⟩, ?_⟩
  rintro ⟨d', rfl⟩
  rw [rlDecode_rlEncode] at h
  cases h
  rfl

/-- Settles O43: the digits are those of the parse, one for each filler, and `toText` rejects their number. -/
theorem lengthValidation : Obligations.LengthValidation := by
  intro s ts hs hparse hmod
  have hdec := rlDecode_of_parsesAs hparse
  have hlen := digitsOfTokens_length ts
  have herr : decodeText s.callText = .error .invalidLength :=
    (decodeText_of_rlDecode_ok hdec).trans (toText_error_iff.2 ⟨by rwa [hlen], rfl⟩)
  refine ⟨fun hcmd n t h => ?_, fun hcmd n t h => ?_, fun hcmd hfits => ?_⟩
  · obtain ⟨hshow, -⟩ := decCallResult s hs hcmd
    obtain ⟨-, -, -, -, -, hraised⟩ := hshow n t h
    exact (hraised _ herr).1
  · obtain ⟨hshow, -⟩ := rldecCallResult s hs hcmd
    obtain ⟨-, -, -, -, hok, -⟩ := hshow n t h
    obtain ⟨hnone, hdigLen, -⟩ := hok _ hdec
    exact ⟨hnone, hdigLen.trans hlen⟩
  · have hdig : ∀ d, rlDecode s.callText = .ok d → s.caps.dig.fits d.length = true := by
      rw [hdec]
      rintro d ⟨⟩
      rwa [hlen]
    obtain hcmd | hcmd := hcmd
    · obtain ⟨-, hends⟩ := decCallResult s hs hcmd
      obtain ⟨n, t, h, -⟩ := hends hdig (by simp [hdec]) (by simp [herr])
      exact ⟨n, t, h⟩
    · obtain ⟨-, hends⟩ := rldecCallResult s hs hcmd
      exact ⟨_, hends hdig (by simp [hdec])⟩

/-- Settles O44: no cell of the scanner's table reads a third character. -/
theorem otherCharactersAreRejected : Obligations.OtherCharactersAreRejected := by
  intro s c hs hcmd hmem hz hsp
  have herr := rlDecode_of_other hmem hz hsp
  obtain hcmd | hcmd := hcmd
  · obtain ⟨hshow, hends⟩ := rldecCallResult s hs hcmd
    refine ⟨fun n t h => ?_, fun hfits => ⟨_, hends (by simp [herr]) fun _ _ => hfits⟩⟩
    obtain ⟨-, -, -, -, -, hraised⟩ := hshow n t h
    obtain ⟨-, hkind, -⟩ := hraised _ herr
    exact hkind
  · obtain ⟨hshow, hends⟩ := decCallResult s hs hcmd
    have herr' := decodeText_of_rlDecode_error herr
    refine ⟨fun n t h => ?_, fun hfits => ?_⟩
    · obtain ⟨-, -, -, -, -, hraised⟩ := hshow n t h
      exact (hraised _ herr').1
    · obtain ⟨n, t, h, -⟩ := hends (by simp [herr]) (fun _ _ => hfits) (by simp [herr'])
      exact ⟨n, t, h⟩

/-- Settles O45: the call is about no digits, and needs no room. -/
theorem emptyInputGivesEmptyOutput : Obligations.EmptyInputGivesEmptyOutput := by
  intro s hs hstage htext hdigits
  have hempty : s.EmptyInput := ⟨htext, hdigits⟩
  obtain ⟨n, t, hn, h⟩ := hempty.call_ends hs hstage
  have hshow := h.shows hs
  rw [hempty.callResult hstage] at hshow
  exact ⟨n, t, hn, h, hshow.err, hshow.digLen, hshow.coutLen⟩

/-- Settles O60: two characters of a cipher text stage no digit, and every other at most one. -/
theorem decodedDigitBound : Obligations.DecodedDigitBound := by
  intro c d h
  have hle := rlDecode_digits_length h
  exact ⟨fun _ => hle, fun hshort => List.length_eq_zero_iff.1 (by omega)⟩

/-- Settles O8: a GO is never refused, and a block step appends at most W digits or five characters. -/
theorem everyCommandAnswersANextState : Obligations.EveryCommandAnswersANextState := by
  intro i s
  by_cases hb : s.st = .busy
  · rw [exec_of_busy i s hb]
    refine ⟨fun hroom => ?_, fun r hr => ⟨hb, (State.commit_refused.1 hr).1⟩⟩
    obtain ⟨hdig, hcout⟩ := hroom.resolve_left (not_not.2 hb)
    obtain ⟨hdigLe, hcoutLe⟩ := blockStep_lengths_le i.control s
    exact ⟨_, State.commit_of_room ((State.roomFor_iff _ _).2
      ⟨.inr (Capacity.fits_mono hdig hdigLe), .inr (Capacity.fits_mono hcout hcoutLe)⟩)⟩
  · rw [exec_of_not_busy i s hb]
    exact ⟨fun _ => ⟨_, rfl⟩, nofun⟩

/-- Settles O9: the GO write runs the command in CMD, whose transition between calls is `State.go`. -/
theorem goTransition : Obligations.GoTransition := by
  refine ⟨fun s v rest hv hp hs => step_go_runs hs hv hp, fun i s hs => ?_⟩
  refine ⟨_, exec_of_not_busy i s hs, rfl, rfl, rfl, rfl, rfl, rfl, rfl, rfl, rfl, rfl, fun _ => ⟨rfl, rfl, rfl⟩,
    fun hfe hbe => ?_, fun hfe => ?_, fun hfe hbe => ?_⟩
  · simp [hfe, hbe]
  · simp [hfe]
  · simp [hfe, hbe]

/-- Settles O17: the step at the end of FRONT is FrontDone, by whether the command has a back end. -/
theorem frontDoneGoesOnOrFinishes : Obligations.FrontDoneGoesOnOrFinishes := by
  intro i s hb hs hip _ hds
  rw [exec_of_busy i s hb, commit_frontDone hs hip.ge fun hd => scanAccepts_of_state (hds hd)]
  exact ⟨fun hbe => by rw [State.frontDone_be _ _ hbe], fun hbe => by rw [State.frontDone_not_be _ _ hbe]⟩

/-- Settles O18: the last step of each command's last stage is Finish. -/
theorem finishEndsTheCall : Obligations.FinishEndsTheCall := by
  intro s hb
  simp only [exec_of_busy _ s hb]
  refine ⟨fun hs hip => ⟨commit_frontDone hs hip.ge nofun, fun hds => ?_⟩, fun hs hip => ?_, fun hs hip => ?_⟩
  · exact commit_frontDone hs hip.ge fun _ => scanAccepts_of_state hds
  · exact ⟨commit_rlencFinish hs rfl hip.ge, commit_rlencFinish hs rfl hip.ge⟩
  · exact ⟨commit_totxtFinish hs rfl hip, commit_totxtFinish hs rfl hip⟩

end

section
/-! PROOFS. Which commands have a front or a back stage in each direction (the table of R82). -/

namespace Sys2Proof

theorem Instr.eq_of_front_encode {i : Instr} (hfe : i.control.fe = true) (hdir : i.control.dir = false) :
    i = .tobin ∨ i = .enc := by
  cases i <;> simp [Instr.control] at hfe hdir ⊢

theorem Instr.eq_of_front_decode {i : Instr} (hfe : i.control.fe = true) (hdir : i.control.dir = true) :
    i = .rldec ∨ i = .dec := by
  cases i <;> simp [Instr.control] at hfe hdir ⊢

theorem Instr.eq_of_back_decode {i : Instr} (hbe : i.control.be = true) (hdir : i.control.dir = true) :
    i = .totxt ∨ i = .dec := by
  cases i <;> simp [Instr.control] at hbe hdir ⊢

end Sys2Proof
end

section
/-! PROOFS. Errors (R210 to R217): a block step whose next state holds an error kind is Fail, what an error leaves
at the end of a call, and the rest between calls (R235). -/

namespace Sys2Proof.Machine

open Sys2Proof

/-- A block step that raises is Fail with the kind raised, and only Fail puts a kind into ERR (R216). -/
theorem blockStep_raises {c : Control} {s : State} (hnone : s.err = .none) (herr : (blockStep c s).err ≠ .none) :
    Raises c s (blockStep c s).err ∧ blockStep c s = s.fail c (blockStep c s).err := by
  have h := blockStep_case c s
  generalize blockStep c s = t at h herr ⊢
  cases h with
  | raise e why => exact ⟨why, rfl⟩
  | tobinChar | rldecChar | rlencDigit | totxtGroup | frontDone | rlencFinish | totxtFinish => simp [hnone] at herr

/-- The same for a command that runs while BUSY. -/
theorem exec_raises {i : Instr} {s t : State} (hb : s.st = .busy) (hnone : s.err = .none) (h : exec i s = .next t)
    (herr : t.err ≠ .none) : Raises i.control s t.err ∧ t = s.fail i.control t.err := by
  rw [exec_of_busy i s hb] at h
  obtain ⟨rfl, -⟩ := State.commit_next.1 h
  exact blockStep_raises hnone herr

/-- The invariant of a call holds where the call has ended. -/
theorem CallEnds.callInv {s t : State} {n : Nat} (hs : s.st ≠ .busy) (h : CallEnds s n t) : t.CallInv :=
  h.keeps (P := State.CallInv) (fun _ hb hinv _ _ => blockStep_callInv hb hinv) hs s.callStart_callInv

/-- A call with a front end that fails, in either stage, discards the staged digits (R217). -/
theorem CallEnds.no_digits_of_error {s t : State} {n : Nat} (hs : s.st ≠ .busy) (h : CallEnds s n t)
    (hfe : s.control.fe = true) (herr : t.err ≠ .none) : t.digLen = 0 := by
  have hend : t.control.fe = true ∧ (t.err ≠ .none → t.digLen = 0) := by
    refine h.keeps (P := fun u => u.control.fe = true ∧ (u.err ≠ .none → u.digLen = 0)) ?_ hs ?_
    · intro u hb hinv _ ⟨hu, _⟩
      refine ⟨by simpa using hu, fun hraised => ?_⟩
      obtain ⟨-, hfail⟩ := blockStep_raises (hinv.err_of_not_done (by simp [hb])) hraised
      rw [hfail, State.fail_digLen, if_pos hu]
    · exact ⟨hfe, fun hraised => by simp [State.callStart, hfe] at hraised⟩
  exact hend.2 herr

/-! Between calls a host that waits or stands aside is no occasion for the block to step (R235). -/

theorem step_await_rests {s : State} {rest : List HostMove} (hs : s.st ≠ .busy)
    (hp : s.pending = .awaitNotBusy :: rest) : step s = .next { s with pending := rest } := by
  rw [step_cons s _ _ hp]
  exact if_neg hs

theorem step_blockTurn_rests {s : State} {rest : List HostMove} (hs : s.st ≠ .busy)
    (hp : s.pending = .blockTurn :: rest) : step s = .next { s with pending := rest } := by
  rw [step_cons s _ _ hp]
  exact blockTurn_of_not_busy _ hs

end Sys2Proof.Machine
end

section
/-! PROOFS. The obligations of 60_exceptions. -/

open Sys2Proof Sys2Proof.Machine

/-- Settles O21. No step writes the input, nor the host's digits where there is no front end; beside an error the
invariant of a call allows no output, and Fail discards the digits of a front end. -/
theorem failedCallLeavesOnlyItsKind : Obligations.FailedCallLeavesOnlyItsKind := by
  intro s t n hs h herr
  obtain ⟨hcmd, hcin, hcinLen⟩ := h.input_frame hs
  refine ⟨hcmd, hcin, hcinLen, (h.callInv hs).no_output_with_error herr,
    fun hfe => h.no_digits_of_error hs hfe herr, fun hfe => ?_⟩
  obtain ⟨hdig, hdigLen⟩ := h.host_digits hs hfe
  exact ⟨hdigLen, hdig⟩

/-- Settles O19: the only case of a block step that raises is Fail. -/
theorem failReplacesTheStep : Obligations.FailReplacesTheStep := by
  intro i s t hb hnone h herr
  exact (exec_raises hb hnone h herr).2

/-- Settles O20, by why the step raises: the stage and the direction that raise a kind are those of its commands. -/
theorem errorKindsOfEachCommand : Obligations.ErrorKindsOfEachCommand := by
  intro s t hinv hb h herr
  obtain ⟨hwhy, -⟩ := exec_raises hb (hinv.err_of_not_done (by simp [hb])) h herr
  obtain ⟨hfront, hback⟩ := hinv.stage_of_command hb
  generalize t.err = e at hwhy ⊢
  cases hwhy with
  | outOfRange stage dir =>
    obtain hi | hi := Instr.eq_of_front_encode (hfront stage) dir <;> simp [hi]
  | errorCell stage dir | unfinished stage dir =>
    obtain hi | hi := Instr.eq_of_front_decode (hfront stage) dir <;> simp [hi]
  | partialGroup stage dir =>
    obtain hi | hi := Instr.eq_of_back_decode (hback stage) dir <;> simp [hi]

/-- Settles O7: between calls the block's turn changes nothing, and neither does waiting for it. -/
theorem blockRestsBetweenCalls : Obligations.BlockRestsBetweenCalls := by
  refine ⟨fun s hs hp => ?_, fun s m rest hs hm hp => ?_⟩
  · rw [step_nil s hp, blockTurn_of_not_busy s hs]
  · obtain rfl | rfl := hm
    · exact step_await_rests hs hp
    · exact step_blockTurn_rests hs hp

end

section
/-! PROOFS. Why a step is refused: by the host's write, by its read, or by the block step it lets the block take. -/

namespace Sys2Proof.Machine

open Sys2Proof

/-- Between calls a host write is refused only where it does not fit. -/
theorem hostWrite_refused {s t : State} {f : Bool} {r : Refusal} (hs : s.st ≠ .busy)
    (h : hostWrite s f t = .refused r) : r = .capacityExceeded ∧ f = false := by
  cases f with
  | false =>
    rw [hostWrite_of_not_fits hs rfl] at h
    cases h
    exact ⟨rfl, rfl⟩
  | true =>
    rw [hostWrite_of_fits hs rfl] at h
    cases h

/-- A block step is refused only where one group of digits or the longest emission does not fit (R7). -/
theorem commit_blockStep_refused {c : Control} {s : State} {r : Refusal} (h : s.commit (blockStep c s) = .refused r) :
    r = .capacityExceeded ∧
      (s.caps.dig.fits (s.digLen + Config.W) = false ∨ s.caps.cout.fits (s.coutLen + 5) = false) := by
  obtain ⟨hr, hno⟩ := State.commit_refused.1 h
  obtain ⟨hdig, hcout⟩ := blockStep_lengths_le c s
  refine ⟨hr, ?_⟩
  obtain ⟨-, hfits⟩ | ⟨-, hfits⟩ := (State.roomFor_false_iff _ _).1 hno
  · exact .inl (Bool.eq_false_iff.2 fun hroom => Bool.eq_false_iff.1 hfits (Capacity.fits_mono hroom hdig))
  · exact .inr (Bool.eq_false_iff.2 fun hroom => Bool.eq_false_iff.1 hfits (Capacity.fits_mono hroom hcout))

/-- The block's turn is refused only while BUSY, for want of room. -/
theorem blockTurn_refused {s : State} {r : Refusal} (h : blockTurn s = .refused r) :
    r = .capacityExceeded ∧ s.st = .busy ∧
      (s.caps.dig.fits (s.digLen + Config.W) = false ∨ s.caps.cout.fits (s.coutLen + 5) = false) := by
  by_cases hb : s.st = .busy
  · rw [blockTurn_of_busy s hb] at h
    obtain ⟨hr, hroom⟩ := commit_blockStep_refused h
    exact ⟨hr, hb, hroom⟩
  · rw [blockTurn_of_not_busy s hb] at h
    cases h

/-- The moves that write a register or an element (R40). -/
def HostMove.IsWrite (m : HostMove) : Prop :=
  (∃ v, m = .writeCmd v) ∨ (∃ v, m = .writeCtrl v) ∨ (∃ n, m = .writeCinLen n) ∨ (∃ n, m = .writeDigLen n) ∨
    (∃ i c, m = .writeCin i c) ∨ (∃ i d, m = .writeDig i d)

/-- The moves that read what the host may not read while BUSY (R40, R256; log 9). -/
def HostMove.IsReadBetweenCalls (m : HostMove) : Prop :=
  m = .readReg .ctrl ∨ m = .readReg .digLen ∨ m = .readReg .coutLen ∨ (∃ i, m = .readDig i) ∨ (∃ i, m = .readCout i)

/-- The moves that write what does not fit a capacity of `s` (R7). -/
def HostMove.IsMisfit (s : State) (m : HostMove) : Prop :=
  (∃ n, m = .writeCinLen n ∧ s.caps.cin.fits n = false) ∨
    (∃ n, m = .writeDigLen n ∧ s.caps.dig.fits n = false) ∨
    (∃ i c, m = .writeCin i c ∧ s.caps.cin.fits (i + 1) = false) ∨
    (∃ i d, m = .writeDig i d ∧ s.caps.dig.fits (i + 1) = false)

/-- While BUSY the host has no writes, no reads of what the call still changes, and no turn of a block that has no
room. -/
theorem step_refused_of_busy {s : State} {m : HostMove} {rest : List HostMove} {r : Refusal} (hb : s.st = .busy)
    (hp : s.pending = m :: rest) (h : step s = .refused r) :
    (r = .hostWriteWhileBusy ∧ m.IsWrite) ∨ (r = .hostReadWhileBusy ∧ m.IsReadBetweenCalls) ∨
      (r = .capacityExceeded ∧ (m = .awaitNotBusy ∨ m = .blockTurn) ∧
        (s.caps.dig.fits (s.digLen + Config.W) = false ∨ s.caps.cout.fits (s.coutLen + 5) = false)) := by
  by_cases hwrite : m.IsWrite
  · rw [step_write_of_busy hb hp hwrite] at h
    cases h
    exact .inl ⟨rfl, hwrite⟩
  by_cases hread : m.IsReadBetweenCalls
  · rw [step_read_of_busy hb hp hread] at h
    cases h
    exact .inr (.inl ⟨rfl, hread⟩)
  cases m with
  | writeCmd | writeCtrl | writeCinLen | writeDigLen | writeCin | writeDig => simp [HostMove.IsWrite] at hwrite
  | readDig | readCout => simp [HostMove.IsReadBetweenCalls] at hread
  | readReg reg =>
    have hreadable : reg.readableWhileBusy = true := by
      cases reg <;> simp [HostMove.IsReadBetweenCalls] at hread <;> rfl
    rw [step_readReg hp (.inr hreadable)] at h
    cases h
  | readCin i =>
    rw [step_readCin hp] at h
    cases h
  | awaitNotBusy =>
    rw [step_await_runs hb hp, exec_of_busy _ s hb] at h
    obtain ⟨hr, hroom⟩ := commit_blockStep_refused h
    exact .inr (.inr ⟨hr, .inl rfl, hroom⟩)
  | blockTurn =>
    rw [step_cons s _ rest hp] at h
    obtain ⟨hr, -, hroom⟩ := blockTurn_refused (s := { s with pending := rest }) h
    exact .inr (.inr ⟨hr, .inr rfl, hroom⟩)
  | platformReset =>
    rw [step_cons s _ rest hp] at h
    cases h

/-- Between calls only a write is refused, of what does not fit. -/
theorem step_refused_of_not_busy {s : State} {m : HostMove} {rest : List HostMove} {r : Refusal} (hs : s.st ≠ .busy)
    (hp : s.pending = m :: rest) (h : step s = .refused r) : r = .capacityExceeded ∧ m.IsMisfit s := by
  rw [step_cons s m rest hp] at h
  cases m with
  | writeCmd v => exact nomatch (hostWrite_refused hs h).2
  | writeCinLen n =>
    obtain ⟨hr, hf⟩ := hostWrite_refused hs h
    exact ⟨hr, .inl ⟨n, rfl, hf⟩⟩
  | writeDigLen n =>
    obtain ⟨hr, hf⟩ := hostWrite_refused hs h
    exact ⟨hr, .inr (.inl ⟨n, rfl, hf⟩)⟩
  | writeCin i c =>
    obtain ⟨hr, hf⟩ := hostWrite_refused hs h
    exact ⟨hr, .inr (.inr (.inl ⟨i, c, rfl, hf⟩))⟩
  | writeDig i d =>
    obtain ⟨hr, hf⟩ := hostWrite_refused hs h
    exact ⟨hr, .inr (.inr (.inr ⟨i, d, rfl, hf⟩))⟩
  | writeCtrl v =>
    cases hv : v.getLsbD 0 with
    | true => rw [← step_cons s _ rest hp, step_writeCtrl_go hs hp hv] at h; cases h
    | false => rw [← step_cons s _ rest hp, step_writeCtrl_no_go hs hp hv] at h; cases h
  | readReg | readCin | readDig | readCout | awaitNotBusy | blockTurn | platformReset =>
    simp [hostMove, blockTurn, hs] at h

end Sys2Proof.Machine
end

section
/-! PROOFS. The host's writes of the protocol of R252, from the string to GO, as one run. -/

namespace Sys2Proof.Machine

open Sys2Proof

/-- The machine comes from `s` to `t` in some number of steps. -/
def Reaches (s t : State) : Prop := ∃ n, stepN n s = .next t

theorem Reaches.refl (s : State) : Reaches s s := ⟨0, rfl⟩

theorem Reaches.head {s t u : State} (h : step s = .next t) (k : Reaches t u) : Reaches s u := by
  obtain ⟨n, hn⟩ := k
  exact ⟨n + 1, (stepN_next n h).trans hn⟩

theorem Reaches.trans {s t u : State} (h : Reaches s t) (k : Reaches t u) : Reaches s u := by
  obtain ⟨m, hm⟩ := h
  obtain ⟨n, hn⟩ := k
  exact ⟨m + n, (stepN_add m n hm).trans hn⟩

/-- The state with other moves for the host to make. -/
def State.withPending (s : State) (p : List HostMove) : State := { s with pending := p }

theorem step_writeCmd {s : State} {v : CommandWord} {rest : List HostMove} (hs : s.st ≠ .busy)
    (hp : s.pending = .writeCmd v :: rest) : step s = .next { s with pending := rest, cmd := v } := by
  rw [step_cons s _ rest hp]
  exact hostWrite_of_fits hs rfl

theorem step_writeCinLen {s : State} {n : Nat} {rest : List HostMove} (hs : s.st ≠ .busy)
    (hp : s.pending = .writeCinLen n :: rest) (hfits : s.caps.cin.fits n = true) :
    step s = .next { s with pending := rest, cinLen := n } := by
  rw [step_cons s _ rest hp]
  exact hostWrite_of_fits hs hfits

theorem step_writeCin {s : State} {i : Nat} {c : Code} {rest : List HostMove} (hs : s.st ≠ .busy)
    (hp : s.pending = .writeCin i c :: rest) (hfits : s.caps.cin.fits (i + 1) = true) :
    step s = .next { s with pending := rest, cin := Memory.set s.cin i c } := by
  rw [step_cons s _ rest hp]
  exact hostWrite_of_fits hs hfits

/-- The host writes a string into CIN, from an index on. -/
theorem reaches_cin_written {s : State} {text : List Code} {i : Nat} {rest : List HostMove} (hs : s.st ≠ .busy)
    (hp : s.pending = text.mapIdx (fun k c => .writeCin (i + k) c) ++ rest)
    (hfits : s.caps.cin.fits (i + text.length) = true) :
    Reaches s { s with pending := rest, cin := Memory.setSeq s.cin i text } := by
  induction text generalizing s i with
  | nil =>
    obtain rfl : s.pending = rest := hp
    exact .refl s
  | cons c text ih =>
    have hlen : i + 1 + text.length = i + (text.length + 1) := by omega
    have hidx : ∀ k, i + 1 + k = i + (k + 1) := fun k => by omega
    rw [List.mapIdx_cons] at hp
    exact .head (step_writeCin hs hp (Capacity.fits_mono hfits (by simp)))
      (ih (s := { s with pending := _, cin := Memory.set s.cin i c }) (i := i + 1) hs (by simp only [hidx]; rfl)
        (hlen ▸ hfits))

/-- The state with a string, its length and a command written by the host. -/
def State.loaded (s : State) (w : CommandWord) (text : List Code) : State :=
  { s with cmd := w, cin := Memory.setSeq s.cin 0 text, cinLen := text.length }

/-- The call of a loaded machine reads the string. -/
theorem State.loaded_callText (s : State) (w : CommandWord) (text : List Code) : (s.loaded w text).callText = text := by
  refine State.callText_of_holds (fun i hi => ?_) rfl
  have h := Memory.get?_setSeq_at s.cin 0 i text hi
  rwa [Nat.zero_add] at h

/-- The moves of the protocol after GO. -/
def hostReads (n : Nat) : List HostMove :=
  .readReg .status :: .readReg .coutLen :: (List.range n).map .readCout

/-- The protocol up to the wait makes the call of the loaded machine. -/
theorem reaches_callStart {s : State} {w : CommandWord} {text : List Code} {n : Nat} (hs : s.st ≠ .busy)
    (hp : s.pending = hostScript w text n) (hfits : s.caps.cin.fits text.length = true) :
    Reaches s ((s.loaded w text).callStart.withPending (.awaitNotBusy :: hostReads n)) := by
  have hscript : s.pending = text.mapIdx (fun k c => .writeCin (0 + k) c) ++
      .writeCinLen text.length :: .writeCmd w :: .writeCtrl 1#1 :: .awaitNotBusy :: hostReads n := by
    simp [hp, hostScript, hostReads]
  exact (reaches_cin_written hs hscript (by rwa [Nat.zero_add])).trans <|
    .head (step_writeCinLen hs rfl hfits) <| .head (step_writeCmd hs rfl) <| .head (step_writeCtrl_go hs rfl rfl) <|
    .refl _

end Sys2Proof.Machine
end

section
/-! PROOFS. While the host waits (R252), the block's steps are those of a machine whose host has no move left. -/

namespace Sys2Proof.Machine

open Sys2Proof

@[simp] theorem State.withPending_stage (s : State) (p : List HostMove) : (s.withPending p).stage = s.stage := rfl

theorem State.scanInput_withPending (s : State) (p : List HostMove) :
    scanCell (s.withPending p).ds (classify ((s.withPending p).cinAt (s.withPending p).ip)) =
      scanCell s.ds (classify (s.cinAt s.ip)) := rfl

theorem State.frontDone_withPending (s : State) (c : Control) (p : List HostMove) :
    (s.withPending p).frontDone c = (s.frontDone c).withPending p := by
  cases hbe : c.be with
  | true => simp only [State.frontDone_be _ _ hbe]; rfl
  | false => simp only [State.frontDone_not_be _ _ hbe]; rfl

/-- A block step does not read the moves of the host. -/
theorem blockStep_withPending (c : Control) (s : State) (p : List HostMove) :
    blockStep c (s.withPending p) = (blockStep c s).withPending p := by
  unfold blockStep
  rw [State.withPending_stage]
  cases s.stage <;> cases c.dir <;> simp only
  · obtain ⟨hip, hchar, h⟩ | ⟨hip, hchar, h⟩ | ⟨hip, h⟩ := tobinStep_cases c s <;> rw [h]
    · exact (if_pos hip).trans (if_pos hchar)
    · exact (if_pos hip).trans (if_neg (ne_true_of_eq_false hchar))
    · exact (if_neg (Nat.not_lt.2 hip)).trans (s.frontDone_withPending c p)
  · obtain ⟨hip, ds, a, hcell, h⟩ | ⟨hip, hcell, h⟩ | ⟨hip, hacc, h⟩ | ⟨hip, hacc, h⟩ := rldecStep_cases c s <;> rw [h]
    · refine (if_pos hip).trans ?_
      rw [State.scanInput_withPending, hcell]
      cases a <;> rfl
    · refine (if_pos hip).trans ?_
      rw [State.scanInput_withPending, hcell]
      rfl
    · exact (if_neg (Nat.not_lt.2 hip)).trans ((if_pos hacc).trans (s.frontDone_withPending c p))
    · exact (if_neg (Nat.not_lt.2 hip)).trans (if_neg (ne_true_of_eq_false hacc))
  · obtain ⟨hip, h⟩ | ⟨hip, h⟩ := rlencStep_cases c s <;> rw [h]
    · exact if_pos hip
    · exact if_neg (Nat.not_lt.2 hip)
  · obtain ⟨hlen, h⟩ | ⟨hlen, hip, h⟩ | ⟨hlen, hip, h⟩ := totxtStep_cases c s <;> rw [h]
    · exact if_pos hlen
    · exact (if_neg hlen).trans (if_pos hip)
    · exact (if_neg hlen).trans (if_neg hip)

theorem step_await_of_busy {s : State} {rest : List HostMove} (hb : s.st = .busy)
    (hp : s.pending = .awaitNotBusy :: rest) : step s = s.commit (blockStep s.control s) := by
  rw [step_await_runs hb hp, exec_of_busy _ s hb, State.control]

/-- A run to a state that is not BUSY ends the wait of the host. -/
theorem reaches_waited {s t : State} {n : Nat} (rest : List HostMove) (hp : s.pending = []) (h : stepN n s = .next t)
    (ht : t.st ≠ .busy) : Reaches (s.withPending (.awaitNotBusy :: rest)) (t.withPending rest) := by
  induction n generalizing s with
  | zero =>
    cases h
    exact .head (step_await_rests ht rfl) (.refl _)
  | succ n ih =>
    by_cases hb : s.st = .busy
    · obtain ⟨u, hu, hrun⟩ := stepN_succ_next h
      rw [step_of_busy hb hp] at hu
      obtain ⟨rfl, hroom⟩ := State.commit_next.1 hu
      refine .head ?_ (ih (by simpa using hp) hrun)
      rw [step_await_of_busy (s := s.withPending (.awaitNotBusy :: rest)) hb rfl, ← blockStep_withPending]
      exact State.commit_of_room (by rw [blockStep_withPending]; exact hroom)
    · rw [stepN_rest hb hp] at h
      cases h
      exact .head (step_await_rests ht rfl) (.refl _)

/-- A host that waits for a call sees its end. -/
theorem CallEnds.reaches {s t : State} {n : Nat} (rest : List HostMove) (hs : s.st ≠ .busy) (h : CallEnds s n t) :
    Reaches (s.callStart.withPending (.awaitNotBusy :: rest)) (t.withPending rest) := by
  obtain ⟨m, rfl⟩ := Nat.exists_eq_succ_of_ne_zero h.started
  have hrun := h.run
  rw [stepN_next m (step_calling hs)] at hrun
  exact reaches_waited rest s.callStart_pending hrun (by simp [h.done])

theorem CallEnds.answers {s t : State} {n : Nat} (hs : s.st ≠ .busy) (h : CallEnds s n t) : t.answers = s.answers :=
  h.keeps (P := fun u => u.answers = s.answers) (fun _ _ _ _ hu => (blockStep_answers _ _).trans hu) hs rfl

end Sys2Proof.Machine
end

section
/-! PROOFS. The host's reads of the protocol of R252, and the whole protocol as one run. -/

namespace Sys2Proof.Machine

open Sys2Proof

/-- The host reads the last elements of an output. -/
theorem reaches_cout_read {s : State} {cs : List Code} {i : Nat} (hs : s.st ≠ .busy)
    (hp : s.pending = (List.range' i cs.length).map .readCout) (hlen : i + cs.length ≤ s.coutLen)
    (hcs : ∀ k, k < cs.length → Memory.get? s.cout (i + k) = cs[k]?) :
    Reaches s { s with pending := [], answers := s.answers ++ cs.map .code } := by
  induction cs generalizing s i with
  | nil =>
    rw [List.map_nil, List.append_nil, ← show s.pending = [] from hp]
    exact .refl s
  | cons c cs ih =>
    rw [List.length_cons] at hlen
    have hread : s.hostCode s.cout s.coutLen i = c :=
      State.hostCode_of_written (by omega) (hcs 0 (Nat.succ_pos _))
    have hrest := ih (s := { s with pending := _, answers := s.answers ++ [.code c] }) (i := i + 1) hs rfl
      (show i + 1 + cs.length ≤ s.coutLen by omega) fun k hk => by
        rw [show i + 1 + k = i + (k + 1) by omega]
        exact hcs (k + 1) (Nat.succ_lt_succ hk)
    exact .head (hread ▸ step_readCout hs hp) (by simpa using hrest)

/-- The host reads STATUS, COUT_LEN and the whole output. -/
theorem reaches_result_read {s : State} {cs : List Code} (hs : s.st ≠ .busy) (hp : s.pending = hostReads cs.length)
    (hlen : s.coutLen = cs.length) (hcs : Memory.Holds s.cout cs) :
    Reaches s { s with
      pending := [], answers := s.answers ++ [.status s.status, .length cs.length] ++ cs.map .code } := by
  have hstatus := step_readReg hp (.inl hs)
  have hlength := step_readReg (s := { s with
    pending := .readReg .coutLen :: (List.range cs.length).map .readCout
    answers := s.answers ++ [.status s.status] }) rfl (.inl hs)
  have houtput := reaches_cout_read (s := { s with
      pending := (List.range cs.length).map .readCout
      answers := s.answers ++ [.status s.status] ++ [.length s.coutLen] })
    (cs := cs) (i := 0) hs (by rw [List.range_eq_range']) (by simp [hlen])
    fun k hk => (congrArg _ (Nat.zero_add k)).trans (hcs k hk)
  simpa [hlen] using Reaches.head hstatus (.head hlength houtput)

/-- Between a call and the next STATUS reads DONE beside the error kind (R35). -/
theorem CallEnds.status {s t : State} {n : Nat} (h : CallEnds s n t) : t.status = t.err.code ++ 2#2 := by
  rw [State.status, h.done, CallState.code]

/-- The whole protocol: where the call of the loaded machine leaves an output, the host reads DONE, the error kind and
that output. -/
theorem host_reads_call_end {s t : State} {w : CommandWord} {text cs : List Code} {k : Nat} (hs : s.st ≠ .busy)
    (hp : s.pending = hostScript w text cs.length) (hfits : s.caps.cin.fits text.length = true)
    (h : CallEnds (s.loaded w text) k t) (hlen : t.coutLen = cs.length) (hcs : Memory.Holds t.cout cs) :
    ∃ n u, stepN n s = .next u ∧ u.pending = [] ∧
      u.answers = s.answers ++ [.status (t.err.code ++ 2#2), .length cs.length] ++ cs.map .code := by
  have hloaded : (s.loaded w text).st ≠ .busy := hs
  have hwait := h.reaches (hostReads cs.length) hloaded
  have hread := reaches_result_read (s := t.withPending (hostReads cs.length)) (by simp [State.withPending, h.done]) rfl
    hlen hcs
  obtain ⟨n, hn⟩ := (reaches_callStart hs hp hfits).trans (hwait.trans hread)
  have hanswers : t.answers = (s.loaded w text).answers := h.answers hloaded
  refine ⟨n, _, hn, rfl, ?_⟩
  show t.answers ++ [.status t.status, .length cs.length] ++ cs.map .code = _
  rw [hanswers, h.status]
  rfl

/-- A call of ENC or DEC has both stages, and they answer what the function level does. -/
theorem State.stagesResult_both {s : State} {i : Instr} {f : List Code → Except ErrKind (List Code)}
    (hcmd : s.cmd = encodeCommand i) (hi : (i = .enc ∧ f = encodeText) ∨ (i = .dec ∧ f = decodeText)) :
    s.control.fe = true ∧ s.control.be = true ∧ s.callStart.stagesResult = f s.callText := by
  obtain ⟨rfl, rfl⟩ | ⟨rfl, rfl⟩ := hi
  · have h : decodeCommand s.cmd = .enc := by rw [hcmd]; rfl
    obtain ⟨hfe, hbe, -⟩ := State.control_enc h
    exact ⟨hfe, hbe, State.stagesResult_enc h⟩
  · have h : decodeCommand s.cmd = .dec := by rw [hcmd]; rfl
    obtain ⟨hfe, hbe, -⟩ := State.control_dec h
    exact ⟨hfe, hbe, State.stagesResult_dec h⟩

end Sys2Proof.Machine
end

section
/-! PROOFS. The obligations of 70_reset_and_hazards. -/

open Sys2Proof Sys2Proof.Machine

/-- Settles O50: the call of the machine that the host has loaded ends in the sizes of R192 and shows what the function
level answers on the string; the host's writes lead to that call, and its reads see that end. -/
theorem hostProtocolDeliversTheResult : Obligations.HostProtocolDeliversTheResult := by
  intro s i text f hs hi hfits hroom
  have hloaded : (s.loaded (encodeCommand i) text).st ≠ .busy := hs
  obtain ⟨hfe, hbe, hres⟩ := State.stagesResult_both (s := s.loaded (encodeCommand i) text) rfl hi
  rw [State.loaded_callText] at hres
  have hsizes : (s.loaded (encodeCommand i) text).Room := hroom.congr rfl rfl rfl fun _ => rfl
  obtain ⟨k, t, ht⟩ := hsizes.call_ends hloaded
  refine ⟨fun c hc hp => ?_, fun e he hp => ?_⟩
  · obtain ⟨herr, hlen, hholds⟩ := ht.both_ok hloaded hfe hbe (hres.trans hc)
    have h := host_reads_call_end hs hp hfits ht hlen hholds
    rw [herr] at h
    exact h
  · obtain ⟨herr, hlen⟩ := ht.both_raised hloaded hfe hbe (hres.trans he)
    simpa [herr] using host_reads_call_end (cs := []) hs hp hfits ht hlen (Memory.holds_nil _)

/-- Settles O26: the block's own turn is refused for want of room, and a move of the host by the call state. -/
theorem onlyAccessesWhileBusyAreRefused : Obligations.OnlyAccessesWhileBusyAreRefused := by
  intro s r h
  cases hp : s.pending with
  | nil =>
    rw [step_nil s hp] at h
    obtain ⟨hr, hb, hroom⟩ := blockTurn_refused h
    exact .inr (.inr (.inr ⟨hr, hb, .inl rfl, hroom⟩))
  | cons m rest =>
    by_cases hb : s.st = .busy
    · obtain ⟨hr, hm⟩ | ⟨hr, hm⟩ | ⟨hr, hm, hroom⟩ := step_refused_of_busy hb hp h
      · exact .inl ⟨hr, hb, m, rest, rfl, hm⟩
      · exact .inr (.inl ⟨hr, hb, m, rest, rfl, hm⟩)
      · exact .inr (.inr (.inr ⟨hr, hb, .inr ⟨m, rest, rfl, hm⟩, hroom⟩))
    · obtain ⟨hr, hm⟩ := step_refused_of_not_busy hb hp h
      exact .inr (.inr (.inl ⟨hr, hb, m, rest, rfl, hm⟩))

/-- Settles O2: the move is performed in any call state, and keeps the host's own fields and the capacities. -/
theorem platformResetAbandonsTheCall : Obligations.PlatformResetAbandonsTheCall :=
  fun s rest hp => step_cons s .platformReset rest hp

end
